-- ==== Sys2Proof/Word.lean ====
section
/-! DEFINITION. The word types of the block (spec/00_scope.md R7) and the raw command triple (spec/30_encoding.md R60). -/

namespace Sys2Proof

/-- U64: an unsigned 64-bit word, bit 0 least significant (R7). -/
abbrev U64 := BitVec 64

/-- The 32-bit encoding `bits32(f)` of a binary32 value (R7, R9). -/
abbrev F32 := BitVec 32

/-- The 64-bit encoding `bits64(f)` of a binary64 value (R7, R9). -/
abbrev F64 := BitVec 64

/-- One command as the host presents it: the fixed-length triple `(CMD, A, B)` (R60). -/
structure Command where
  cmd : BitVec 8
  a   : U64
  b   : U64
  deriving DecidableEq, Repr

end Sys2Proof
end

