-- ==== Sys2Proof/Machine/Operands.lean ====
section
/-! DEFINITION. How an operand is read from a 64-bit port (spec/30_encoding.md R62) and how a result is placed in RES
(R63). -/

namespace Sys2Proof.Machine

/-- An I32 operand: `P[31:0]` as two's complement; `P[63:32]` is ignored (R62). -/
def i32Operand (p : U64) : Int := (p.setWidth 32).toInt

/-- An F32 operand: the encoding `P[31:0]`; `P[63:32]` is ignored (R62). -/
def f32Operand (p : U64) : F32 := p.setWidth 32

/-- An F64 operand: the encoding `P[63:0]` (R62). -/
def f64Operand (p : U64) : F64 := p

/-- An I32 result: `sext_64` of its 32-bit two's-complement encoding (R63). -/
def i32Result (x : Int) : U64 := (BitVec.ofInt 32 x).signExtend 64

/-- An F32 result: `zext_64(bits32(value))` (R63). -/
def f32Result (bits : F32) : U64 := bits.setWidth 64

/-- An F64 result: `bits64(value)` (R63). -/
def f64Result (bits : F64) : U64 := bits

/-- The port word the encoder writes for an I32 operand: its 32-bit encoding in bits 31:0, ignored bits 0. -/
def i32Port (x : Int) : U64 := (BitVec.ofInt 32 x).setWidth 64

/-- The port word the encoder writes for an F32 operand, ignored bits 0. -/
def f32Port (bits : F32) : U64 := bits.setWidth 64

end Sys2Proof.Machine
end

