-- ==== Sys2Proof/Syntax.lean ====
section
/-! DEFINITION. The commands of the block: one constructor per row of spec/opcode_table.json (spec/30_encoding.md R61). -/

namespace Sys2Proof

/-- A decoded command with its operands in their types (R61, R62). An I32 operand is the integer it stands for; an F32 or
F64 operand is its encoding; ignored ports and bits are gone. -/
inductive Instr
  /-- 0x01 SEED, A = value (spec/40_seed.md R82). -/
  | seed (value : U64)
  /-- 0x02 NEXT_U64 (spec/41_core_step.md R106). -/
  | nextU64
  /-- 0x03 BELOW, A = range (spec/42_bounded_range.md R130). -/
  | below (range : U64)
  /-- 0x04 INT_IN_RANGE, A = lower, B = upper (spec/42_bounded_range.md R137). -/
  | intInRange (lower upper : Int)
  /-- 0x05 FLOAT01 (spec/43_float_conversion.md R163). -/
  | float01
  /-- 0x06 DOUBLE01 (spec/43_float_conversion.md R164). -/
  | double01
  /-- 0x07 FLOAT_IN_RANGE, A = lower, B = upper (spec/43_float_conversion.md R166). -/
  | floatInRange (lower upper : F32)
  /-- 0x08 DOUBLE_IN_RANGE, A = lower, B = upper (spec/43_float_conversion.md R167). -/
  | doubleInRange (lower upper : F64)
  /-- 0x09 FLOAT_GAUSSIAN, A = mu, B = sigma (spec/44_gaussian.md R192). -/
  | floatGaussian (mu sigma : F32)
  /-- 0x0A DOUBLE_GAUSSIAN, A = mu, B = sigma (spec/44_gaussian.md R193). -/
  | doubleGaussian (mu sigma : F64)
  /-- 0x0B READ_STATE, A = index (spec/45_state_access.md R220). -/
  | readState (index : U64)
  /-- 0x0C WRITE_STATE, A = index, B = value (spec/45_state_access.md R221). -/
  | writeState (index value : U64)
  /-- 0x0D READ_STATUS (spec/45_state_access.md R222). -/
  | readStatus
  deriving DecidableEq, Repr

end Sys2Proof
end

