-- ==== Sys2Proof/WellFormed.lean ====
section
/-! DEFINITION. Which terms of `Instr` a command word can stand for (spec/30_encoding.md R62). -/

namespace Sys2Proof

/-- The range of an I32 operand: -2^31 to 2^31 - 1 (spec/00_scope.md R7). -/
def isI32 (x : Int) : Bool := decide (-2 ^ 31 ≤ x) && decide (x < 2 ^ 31)

/-- An I32 operand must be an I32 (R62, R137). Every bit pattern of every other operand is an operand: an index above 3
is a command that raises BAD_INDEX, not an ill-formed one (R220), and no float encoding is refused (R169, R197). -/
def Instr.wellFormed : Instr → Bool
  | .seed _ => true
  | .nextU64 => true
  | .below _ => true
  | .intInRange lower upper => isI32 lower && isI32 upper
  | .float01 => true
  | .double01 => true
  | .floatInRange _ _ => true
  | .doubleInRange _ _ => true
  | .floatGaussian _ _ => true
  | .doubleGaussian _ _ => true
  | .readState _ => true
  | .writeState _ _ => true
  | .readStatus => true

end Sys2Proof
end

