-- ==== Sys2Proof/Decode.lean ====
section
/-! DEFINITION. The decoder, the encoder, and the command triple as one number of bits (spec/30_encoding.md R60 to R66). -/

namespace Sys2Proof

/-- Why a command word is no command (R65). Raised by `decode`; `Machine.execIllegal` turns it into the fault
ILLEGAL_COMMAND. -/
inductive DecodeError
  /-- `CMD = 0x00` or `CMD` in `0x0E..0xFF`. -/
  | illegalCommand (cmd : BitVec 8)
  deriving DecidableEq, Repr

/-- The opcode map: a command is selected by `CMD[7:0]` alone (R61), its operands are read by R62. -/
def decode (c : Command) : Except DecodeError Instr :=
  match c.cmd.toNat with
  | 0x01 => .ok (.seed c.a)
  | 0x02 => .ok .nextU64
  | 0x03 => .ok (.below c.a)
  | 0x04 => .ok (.intInRange (Machine.i32Operand c.a) (Machine.i32Operand c.b))
  | 0x05 => .ok .float01
  | 0x06 => .ok .double01
  | 0x07 => .ok (.floatInRange (Machine.f32Operand c.a) (Machine.f32Operand c.b))
  | 0x08 => .ok (.doubleInRange (Machine.f64Operand c.a) (Machine.f64Operand c.b))
  | 0x09 => .ok (.floatGaussian (Machine.f32Operand c.a) (Machine.f32Operand c.b))
  | 0x0A => .ok (.doubleGaussian (Machine.f64Operand c.a) (Machine.f64Operand c.b))
  | 0x0B => .ok (.readState c.a)
  | 0x0C => .ok (.writeState c.a c.b)
  | 0x0D => .ok .readStatus
  | _ => .error (.illegalCommand c.cmd)

/-- The command word of an instruction, written from the same table (R61); ignored ports and bits are 0. -/
def encode : Instr → Command
  | .seed value => ⟨0x01, value, 0⟩
  | .nextU64 => ⟨0x02, 0, 0⟩
  | .below range => ⟨0x03, range, 0⟩
  | .intInRange lower upper => ⟨0x04, Machine.i32Port lower, Machine.i32Port upper⟩
  | .float01 => ⟨0x05, 0, 0⟩
  | .double01 => ⟨0x06, 0, 0⟩
  | .floatInRange lower upper => ⟨0x07, Machine.f32Port lower, Machine.f32Port upper⟩
  | .doubleInRange lower upper => ⟨0x08, lower, upper⟩
  | .floatGaussian mu sigma => ⟨0x09, Machine.f32Port mu, Machine.f32Port sigma⟩
  | .doubleGaussian mu sigma => ⟨0x0A, mu, sigma⟩
  | .readState index => ⟨0x0B, index, 0⟩
  | .writeState index value => ⟨0x0C, index, value⟩
  | .readStatus => ⟨0x0D, 0, 0⟩

/-- The bits of a port that a command reads (R61, R62, R64): `(mask of A, mask of B)`, no bit for an illegal command. -/
def usedBits (cmd : BitVec 8) : U64 × U64 :=
  match cmd.toNat with
  | 0x01 => (BitVec.allOnes 64, 0)
  | 0x03 => (BitVec.allOnes 64, 0)
  | 0x04 => (0xffffffff, 0xffffffff)
  | 0x07 => (0xffffffff, 0xffffffff)
  | 0x08 => (BitVec.allOnes 64, BitVec.allOnes 64)
  | 0x09 => (0xffffffff, 0xffffffff)
  | 0x0A => (BitVec.allOnes 64, BitVec.allOnes 64)
  | 0x0B => (BitVec.allOnes 64, 0)
  | 0x0C => (BitVec.allOnes 64, BitVec.allOnes 64)
  | _ => (0, 0)

/-- A command with every ignored port and bit cleared (R62, R64). -/
def Command.canonical (c : Command) : Command :=
  ⟨c.cmd, c.a &&& (usedBits c.cmd).1, c.b &&& (usedBits c.cmd).2⟩

/-- The triple read from one number: CMD in bits 7:0 (spec/opcode_table.json), then A in 71:8 and B in 135:72
(DESIGN CHOICE, log 8). -/
def Command.ofBits (w : Nat) : Command :=
  ⟨BitVec.ofNat 8 w, BitVec.ofNat 64 (w >>> 8), BitVec.ofNat 64 (w >>> 72)⟩

/-- The triple as one number of 136 bits, the inverse of `ofBits` (log 8). -/
def Command.toBits (c : Command) : Nat :=
  c.cmd.toNat + c.a.toNat * 2 ^ 8 + c.b.toNat * 2 ^ 72

/-- The instruction whose bits are `w` as spec/opcode_table.json numbers them; every bit from `nbits` up is 0. -/
def decodeTableWord (nbits w : Nat) : Option Instr :=
  match decode (Command.ofBits (w % 2 ^ nbits)) with
  | .ok i => some i
  | .error _ => none

end Sys2Proof
end

