-- ==== Sys2Proof/Config.lean ====
section
/-! DEFINITION. The configuration parameters of an instance (spec/00_scope.md R6) and the free values of the model.
The opaque constants have no body: no proof can learn a value of them. -/

namespace Sys2Proof

/-- `VARIANT` (R6, R28): the output scrambler of the instance. -/
inductive Variant
  | plus
  | plusPlus
  deriving DecidableEq, Repr, Inhabited

/-- `SEED_CHAIN` (R6): how SEED chains SPLITMIX (spec/40_seed.md R82, R83). -/
inductive SeedChain
  | outputChained
  | counter
  deriving DecidableEq, Repr

/-- `GAUSS_FORM` (R6): the form of the polar method (spec/44_gaussian.md R191, R199). -/
inductive GaussForm
  | polar2
  | literal1
  deriving DecidableEq, Repr

/-- The finite parameters of R6 together: fixed for the life of an instance (log 2). -/
structure Params where
  variant   : Variant
  seedChain : SeedChain
  gaussForm : GaussForm
  deriving DecidableEq, Repr

/-- `VARIANT` is OPEN (R6): the value the instance under reset has is not known to any proof (log 2). -/
opaque Config.variant : Variant

/-- `LN32` (R6, R190): a total function binary32 to binary32 of which nothing else is assumed (log 7). -/
opaque Config.ln32 : F32 → F32

/-- `LN64` (R6, R190): as `ln32`, in binary64 (log 7). -/
opaque Config.ln64 : F64 → F64

/-- `NAN_RESULT` for binary32 (R6, R170): the k-th draw; `Machine.nanFrom32` makes a NaN of it (log 6). -/
opaque Config.nanDraw32 : Nat → F32

/-- `NAN_RESULT` for binary64 (R6, R170) (log 6). -/
opaque Config.nanDraw64 : Nat → F64

/-- DESIGN CHOICE (log 5), safe: how many iterations of a rejection loop one step of the model spans. No result depends
on it: a loop that needs more goes on in the next step. -/
def Config.loopFuel : Nat := 64

/-- The parameters of the instance: `VARIANT` open, the other two at the value the spec takes (R6). -/
def Config.params : Params :=
  { variant := Config.variant, seedChain := .outputChained, gaussForm := .polar2 }

end Sys2Proof
end

