-- ==== Sys2Proof/Machine/State.lean ====
section
/-! DEFINITION. The state of the block and of its host interface (spec/10_state.md), and the state after reset. -/

namespace Sys2Proof.Machine

/-- The fault causes (spec/60_exceptions.md R240). They are the block's own faults, recorded in STATUS and answered in
the response; they are next states of the model. -/
inductive Cause
  | illegalCommand
  | rangeZero
  | emptyRange
  | unseeded
  | badIndex
  deriving DecidableEq, Repr

/-- The response of a command (spec/30_encoding.md R60): `OK(RES)` or `FAULT(cause)`, the cause by its code. -/
inductive Response
  | ok (res : U64)
  | fault (cause : BitVec 4)
  deriving DecidableEq, Repr

/-- What the host can do to the block: present a command, assert reset, or make no move while the block takes one step
(spec/70_reset_and_hazards.md R270, R273; log 3). -/
inductive HostMove
  | command (c : Command)
  | reset
  | wait
  deriving DecidableEq, Repr

/-- The 256-bit state vector when all four words hold a value (spec/10_state.md R20). -/
structure Words where
  s0 : U64
  s1 : U64
  s2 : U64
  s3 : U64
  deriving DecidableEq, Repr

/-- The commands that run a rejection loop (spec/70_reset_and_hazards.md R276), with their operands. -/
inductive LoopCommand
  | below (range : U64)
  | intInRange (lower upper : Int)
  | floatGaussian (mu sigma : F32)
  | doubleGaussian (mu sigma : F64)
  deriving DecidableEq, Repr

/-- A loop command that has not accepted yet and the words its draws have reached (R273, R278; log 5). The words stay
here until the command responds, so that `S` changes whole or not at all (spec/20_memory.md R45). -/
structure InProgress where
  cmd   : LoopCommand
  words : Words
  deriving DecidableEq, Repr

/-- The whole state. `s0` to `s3` are the state words `S[0..3]`; `none` is the spec's own "holds no value" (R24), so the
validity bit `V[i]` of R23 is whether the word is there (log 1). -/
structure State where
  /-- `S[0]` with `V[0]` (R20, R23). -/
  s0 : Option U64
  /-- `S[1]` with `V[1]`. -/
  s1 : Option U64
  /-- `S[2]` with `V[2]`. -/
  s2 : Option U64
  /-- `S[3]` with `V[3]`. -/
  s3 : Option U64
  /-- `STATUS.CAUSE` (R26). -/
  cause : BitVec 4
  /-- `STATUS.FAULT` (R26). -/
  fault : Bool
  /-- The instance's parameters (spec/00_scope.md R6, R28), `STATUS.VARIANT` among them; no step changes them (log 2). -/
  params : Params
  /-- The command in progress, if its loop has not accepted yet (R273, R278; log 5). -/
  inProgress : Option InProgress
  /-- MODEL's own: the response given by the step just taken, if any (R60; log 4). -/
  response : Option Response
  /-- MODEL's own: the host's moves still to come, first one first (R25, R273; log 3). -/
  host : List HostMove
  /-- MODEL's own: how many NaN draws have been taken (R170; log 6). -/
  freeIndex : Nat
  deriving DecidableEq, Repr

/-- The block right after reset (spec/10_state.md R32): no state word holds a value, STATUS.CAUSE and STATUS.FAULT are 0,
VARIANT is the instance's; the host has made no move yet (log 3). -/
def State.reset : State :=
  { s0 := none, s1 := none, s2 := none, s3 := none, cause := 0, fault := false, params := Config.params,
    inProgress := none, response := none, host := [], freeIndex := 0 }

/-- The reasons a step of the model could stop the machine: NONE. Every fault of the block is a next state
(spec/60_exceptions.md R241) and a hang is a command that stays in progress (R278), so nothing raises a constructor of
this type (log 12). -/
inductive Fault
  deriving DecidableEq, Repr

/-- The reasons a step of the model could refuse an instruction. -/
inductive Refusal
  /-- Raised by an arm of `exec` whose instruction has no meaning yet (safe); no arm does. -/
  | notModelled (mnemonic : String)
  deriving DecidableEq, Repr

end Sys2Proof.Machine
end

