-- ==== Sys2Proof/Machine/Ops.lean ====
section
/-! DEFINITION. The operations the meanings share: the state words and their validity, responding, taking a fault,
ignoring a command while faulted, the rejection loop, and reset. -/

namespace Sys2Proof.Machine

/-! ### The state words -/

/-- `S[i]` for an index 0 to 3, with its validity (spec/10_state.md R20, R23); above 3 there is no word (R41). -/
def State.word (s : State) (i : Nat) : Option U64 :=
  match i with
  | 0 => s.s0
  | 1 => s.s1
  | 2 => s.s2
  | 3 => s.s3
  | _ => none

/-- `S[i] <- v; V[i] <- 1` for an index 0 to 3 (spec/45_state_access.md R221). -/
def State.setWord (s : State) (i : Nat) (v : U64) : State :=
  match i with
  | 0 => { s with s0 := some v }
  | 1 => { s with s1 := some v }
  | 2 => { s with s2 := some v }
  | 3 => { s with s3 := some v }
  | _ => s

/-- The four words, if `V[0..3] = 1111` (spec/10_state.md R24). -/
def State.words? (s : State) : Option Words :=
  match s.s0, s.s1, s.s2, s.s3 with
  | some w0, some w1, some w2, some w3 => some ⟨w0, w1, w2, w3⟩
  | _, _, _, _ => none

/-- All four words written and `V[0..3] <- 1111`. -/
def State.setWords (s : State) (w : Words) : State :=
  { s with s0 := some w.s0, s1 := some w.s1, s2 := some w.s2, s3 := some w.s3 }

/-! ### Responding and faults -/

/-- End the command in progress with a response (spec/30_encoding.md R60). -/
def State.respond (s : State) (r : Response) : State :=
  { s with response := some r, inProgress := none }

/-- `return v`: respond `OK(v)` (spec/00_scope.md R10). -/
def State.respondOk (s : State) (res : U64) : State := s.respond (.ok res)

/-- The code of a cause in STATUS.CAUSE (spec/60_exceptions.md R240). -/
def Cause.code : Cause → BitVec 4
  | .illegalCommand => 1
  | .rangeZero => 2
  | .emptyRange => 3
  | .unseeded => 4
  | .badIndex => 5

/-- Taking a fault (spec/60_exceptions.md R241): STATUS records the first cause, S and V keep their values, and the
response is `FAULT(cause)`. There is no handler and no return (R246): only `resetBlock` clears FAULT. -/
def State.raise (s : State) (c : Cause) : State :=
  if s.fault then s.respond (.fault c.code)
  else { s with cause := c.code, fault := true }.respond (.fault c.code)

/-- A command ignored while STATUS.FAULT = 1: it responds `FAULT(STATUS.CAUSE)` and changes nothing (R242). -/
def State.ignore (s : State) : State := s.respond (.fault s.cause)

/-- The first check of R243: while STATUS.FAULT = 1 the command is ignored, else its body runs. -/
def State.unlessFaulted (s : State) (body : State) : State :=
  if s.fault then s.ignore else body

/-- The last check of R243: a generation command needs `V[0..3] = 1111`, else it raises UNSEEDED (R24). -/
def State.withWords (s : State) (body : Words → State) : State :=
  match s.words? with
  | none => s.raise .unseeded
  | some w => body w

/-- A command word that decodes to no command: ILLEGAL_COMMAND, after the check of FAULT (R65, R243). -/
def execIllegal (s : State) : Host.Outcome State Fault Refusal :=
  .next (s.unlessFaulted (s.raise .illegalCommand))

/-! ### The rejection loop -/

/-- What one iteration of a rejection loop does: accept with a result, or reject; either way with the words after its
draws (spec/42_bounded_range.md R132, spec/44_gaussian.md R196). -/
inductive Iteration (α : Type)
  | accept (result : α) (words : Words)
  | reject (words : Words)
  deriving Repr

/-- At most `fuel` iterations, up to the first that accepts. A `reject` answer is "out of fuel", distinct from every
result (spec/70_reset_and_hazards.md R278). -/
def iterate {α : Type} (body : Words → Iteration α) : Nat → Words → Iteration α
  | 0, w => .reject w
  | fuel + 1, w =>
    match body w with
    | .accept r w' => .accept r w'
    | .reject w' => iterate body fuel w'

/-- The command `c` goes on in the next step: no response, `S` as before the command (R273, R278, R45). -/
def State.stayBusy (s : State) (c : LoopCommand) (w : Words) : State :=
  { s with inProgress := some ⟨c, w⟩, response := none }

/-- Run the loop of command `c` from the words `w`: on acceptance the words are written and the command finishes, else
it stays in progress (R278; log 5). -/
def State.runLoop {α : Type} (s : State) (c : LoopCommand) (body : Words → Iteration α)
    (finish : State → α → State) (w : Words) : State :=
  match iterate body Config.loopFuel w with
  | .accept r w' => finish (s.setWords w') r
  | .reject w' => s.stayBusy c w'

/-! ### Reset and idling -/

/-- The reset input (spec/70_reset_and_hazards.md R270): `V[0..3] <- 0000`, so S holds no value; CAUSE and FAULT are
cleared; a command in progress ends with no response. The instance's parameters, the host's moves and the NaN counter are
not the block's to reset (R28; log 6). -/
def resetBlock (s : State) : State :=
  { s with s0 := none, s1 := none, s2 := none, s3 := none, cause := 0, fault := false, inProgress := none,
           response := none }

/-- The block waits for the host (R271): nothing changes and no response is given in this step. -/
def idle (s : State) : State := { s with response := none }

end Sys2Proof.Machine
end

