-- ==== Sys2Proof/Machine/CoreStep.lean ====
section
/-! DEFINITION. The core step (spec/41_core_step.md): state advance, output scrambler, raw draw, and NEXT_U64. -/

namespace Sys2Proof.Machine

/-- `rotl(a, k)` for `0 < k < 64` (spec/00_scope.md R8, spec/41_core_step.md R102). -/
def rotl (a : U64) (k : Nat) : U64 := (a <<< k) ||| (a >>> (64 - k))

/-- `ADVANCE` (R100): each assignment reads the values the one before it left; the same in both variants (R101). -/
def advance (w : Words) : Words :=
  let t  := w.s1 <<< 17
  let s2 := w.s2 ^^^ w.s0
  let s3 := w.s3 ^^^ w.s1
  let s1 := w.s1 ^^^ s2
  let s0 := w.s0 ^^^ s3
  let s2 := s2 ^^^ t
  let s3 := rotl s3 45
  ⟨s0, s1, s2, s3⟩

/-- `ADVANCE_INV`, the inverse of `advance` (R107). -/
def advanceInv (w : Words) : Words :=
  let a3 := rotl w.s3 19
  let s0 := w.s0 ^^^ a3
  let y  := w.s1 ^^^ w.s2
  let s1 := y ^^^ (y <<< 17) ^^^ (y <<< 34) ^^^ (y <<< 51)
  let s3 := a3 ^^^ s1
  let s2 := w.s1 ^^^ s0 ^^^ s1
  ⟨s0, s1, s2, s3⟩

/-- `SCRAMBLE_PLUS` (R103, variant A). -/
def scramblePlus (w : Words) : U64 := w.s0 + w.s3

/-- `SCRAMBLE_PLUSPLUS` (R103, variant B). -/
def scramblePlusPlus (w : Words) : U64 := rotl (w.s0 + w.s3) 23 + w.s0

/-- `SCRAMBLE`, as the instance's VARIANT says (R104). -/
def scramble (v : Variant) (w : Words) : U64 :=
  match v with
  | .plus => scramblePlus w
  | .plusPlus => scramblePlusPlus w

/-- `DRAW()` (R105): the scrambled pre-update words, and the words advanced once. -/
def draw (v : Variant) (w : Words) : U64 × Words := (scramble v w, advance w)

/-- A command that takes exactly one draw: UNSEEDED unless all words are valid, else the words are written advanced and
`finish` responds from the draw (R105, R277). -/
def State.withDraw (s : State) (finish : State → U64 → State) : State :=
  s.withWords fun w => finish (s.setWords (draw s.params.variant w).2) (draw s.params.variant w).1

/-- NEXT_U64 (R106). -/
def execNextU64 (s : State) : Host.Outcome State Fault Refusal :=
  .next (s.unlessFaulted (s.withDraw State.respondOk))

end Sys2Proof.Machine
end

