-- ==== Sys2Proof/Machine/Bounded.lean ====
section
/-! DEFINITION. The bounded-integer reducer, BELOW and INT_IN_RANGE (spec/42_bounded_range.md). -/

namespace Sys2Proof.Machine

/-- The acceptance test of REDUCE, `(x - r) <= (-range)` in wrapping unsigned arithmetic with `r = x mod range`
(R130, R131). -/
def accepts (range x : U64) : Bool := decide (x - x % range ≤ -range)

/-- One iteration of REDUCE: one draw, accepted with `x mod range` or rejected (R130, R132). -/
def reduceIteration (v : Variant) (range : U64) (w : Words) : Iteration U64 :=
  let x := (draw v w).1
  if accepts range x then .accept (x % range) (draw v w).2 else .reject (draw v w).2

/-- The loop of BELOW from the words `w` (R130). -/
def runBelow (range : U64) (w : Words) (s : State) : State :=
  s.runLoop (.below range) (reduceIteration s.params.variant range) State.respondOk w

/-- BELOW (R130): RANGE_ZERO before UNSEEDED (R133, spec/60_exceptions.md R243), then REDUCE. -/
def execBelow (range : U64) (s : State) : Host.Outcome State Fault Refusal :=
  .next (s.unlessFaulted (if range = 0 then s.raise .rangeZero else s.withWords fun w => runBelow range w s))

/-- The range of INT_IN_RANGE, `exact(upper - lower + 1)`, held as a U64 (R137, R138). -/
def intRange (lower upper : Int) : U64 := BitVec.ofInt 64 (upper - lower + 1)

/-- The loop of INT_IN_RANGE from the words `w`; it returns `exact(lower + r)` (R137). -/
def runIntInRange (lower upper : Int) (w : Words) (s : State) : State :=
  s.runLoop (.intInRange lower upper) (reduceIteration s.params.variant (intRange lower upper))
    (fun s r => s.respondOk (i32Result (lower + r.toNat))) w

/-- INT_IN_RANGE (R137): EMPTY_RANGE before UNSEEDED (R139, spec/60_exceptions.md R243), then REDUCE. -/
def execIntInRange (lower upper : Int) (s : State) : Host.Outcome State Fault Refusal :=
  .next (s.unlessFaulted
    (if upper < lower then s.raise .emptyRange else s.withWords fun w => runIntInRange lower upper w s))

end Sys2Proof.Machine
end

