-- ==== Sys2Proof/Machine/Float.lean ====
section
/-! DEFINITION. IEEE 754 binary32 and binary64 arithmetic (spec/00_scope.md R9, spec/43_float_conversion.md R160): every
operation is computed exactly and rounded once, to nearest with ties to even. What R9 does not spell out (encodings,
signed zeros, infinities, NaN) is IEEE 754's (PRESUMED, log 10). -/

namespace Sys2Proof.Machine

/-- A binary format: significand bits with the hidden bit (24, 53: R6), and exponent bits. -/
structure FloatFormat where
  precision : Nat
  expBits   : Nat
  deriving DecidableEq, Repr

/-- F32 (R7). -/
def binary32 : FloatFormat := ⟨24, 8⟩

/-- F64 (R7). -/
def binary64 : FloatFormat := ⟨53, 11⟩

/-- A float value. `finite neg mant exp` is `(-1)^neg * mant * 2^exp`, so zero keeps its sign; a NaN inside a command has
no payload (R170: only a NaN result has an encoding, and that is a draw). -/
inductive FloatValue
  | nan
  | inf (neg : Bool)
  | finite (neg : Bool) (mant : Nat) (exp : Int)
  deriving DecidableEq, Repr

/-- The exponent bias, 127 or 1023. -/
def FloatFormat.bias (f : FloatFormat) : Nat := 2 ^ (f.expBits - 1) - 1

/-- The exponent of the last place of a subnormal, -149 or -1074. -/
def FloatFormat.minExp (f : FloatFormat) : Int := 2 - f.bias - f.precision

/-- The exponent of the last place in the top binade, 104 or 971. -/
def FloatFormat.maxExp (f : FloatFormat) : Int := f.bias - f.precision + 1

/-! ### Rounding -/

/-- `floor(log2(num / den))` for positive `num` and `den`. -/
def floorLog2 (num den : Nat) : Int :=
  let l : Int := (num.log2 : Int) - den.log2
  if den <<< l.toNat ≤ num <<< (-l).toNat then l else l - 1

/-- `num / den` to the nearest integer, ties to even. -/
def divNearestEven (num den : Nat) : Nat :=
  let q := num / den
  let r := num % den
  if den < 2 * r ∨ (2 * r = den ∧ q % 2 = 1) then q + 1 else q

/-- The exponent of the last place of the result's binade for the exact magnitude `num / den * 2^exp`. -/
def unitExp (f : FloatFormat) (num den : Nat) (exp : Int) : Int :=
  max (floorLog2 num den + exp - (f.precision - 1)) f.minExp

/-- A rounded significand put in canonical form: a carry out of the top bit moves to the next binade, and past the top
binade the result is an infinity. -/
def normalize (f : FloatFormat) (neg : Bool) (mant : Nat) (exp : Int) : FloatValue :=
  let carried : Bool := mant = 2 ^ f.precision
  let mant' := if carried then 2 ^ (f.precision - 1) else mant
  let exp' := if carried then exp + 1 else exp
  if f.maxExp < exp' then .inf neg else .finite neg mant' exp'

/-- Round the exact value `(-1)^neg * (num / den) * 2^exp` once to the format, to nearest with ties to even, keeping
subnormals (R9, R160). An exact zero takes the sign given. -/
def roundTo (f : FloatFormat) (neg : Bool) (num den : Nat) (exp : Int) : FloatValue :=
  if num = 0 then .finite neg 0 f.minExp
  else
    let unit := unitExp f num den exp
    let shift := exp - unit
    normalize f neg (divNearestEven (num <<< shift.toNat) (den <<< (-shift).toNat)) unit

/-! ### Encodings -/

/-- `bits32` or `bits64` of a rounded value (R9); `nan` is the encoding a NaN gets (R170). -/
def pack (f : FloatFormat) (nan : Nat) : FloatValue → Nat
  | .nan => nan
  | .inf neg => neg.toNat * 2 ^ (f.expBits + f.precision - 1) + (2 ^ f.expBits - 1) * 2 ^ (f.precision - 1)
  | .finite neg mant exp =>
    neg.toNat * 2 ^ (f.expBits + f.precision - 1) + ((exp - f.minExp).toNat * 2 ^ (f.precision - 1) + mant)

/-- `f32` or `f64`: the value of an encoding (R9). -/
def unpack (f : FloatFormat) (bits : Nat) : FloatValue :=
  let neg : Bool := bits.testBit (f.expBits + f.precision - 1)
  let biased := bits / 2 ^ (f.precision - 1) % 2 ^ f.expBits
  let frac := bits % 2 ^ (f.precision - 1)
  if biased = 2 ^ f.expBits - 1 then (if frac = 0 then .inf neg else .nan)
  else if biased = 0 then .finite neg frac f.minExp
  else .finite neg (frac + 2 ^ (f.precision - 1)) (f.minExp + biased - 1)

/-- `f32(w)` (R9). -/
def f32Value (w : F32) : FloatValue := unpack binary32 w.toNat

/-- `f64(w)` (R9). -/
def f64Value (w : F64) : FloatValue := unpack binary64 w.toNat

/-- `bits32(v)` (R9), with the encoding a NaN gets (R170). -/
def f32Bits (nan : F32) (v : FloatValue) : F32 := BitVec.ofNat 32 (pack binary32 nan.toNat v)

/-- `bits64(v)` (R9), with the encoding a NaN gets (R170). -/
def f64Bits (nan : F64) (v : FloatValue) : F64 := BitVec.ofNat 64 (pack binary64 nan.toNat v)

/-- A binary32 NaN from a draw: the draw itself if it is a NaN, else with a NaN's exponent and a fraction bit set. Every
NaN is the image of some draw (R170; log 6). -/
def nanFrom32 (draw : F32) : F32 :=
  if f32Value draw = .nan then draw else draw ||| 0x7f800001

/-- A binary64 NaN from a draw, as `nanFrom32` (R170; log 6). -/
def nanFrom64 (draw : F64) : F64 :=
  if f64Value draw = .nan then draw else draw ||| 0x7ff0000000000001

/-! ### The operators of R9 -/

/-- The sign applied to a magnitude. -/
def signed (neg : Bool) (mant : Nat) : Int := if neg then -(mant : Int) else mant

/-- The integer `(-1)^neg * mant * 2^(exp - base)`, for `base <= exp`. -/
def alignedTo (base : Int) (neg : Bool) (mant : Nat) (exp : Int) : Int :=
  signed neg (mant <<< (exp - base).toNat)

/-- The value negated. -/
def FloatValue.negate : FloatValue → FloatValue
  | .nan => .nan
  | .inf neg => .inf (!neg)
  | .finite neg mant exp => .finite (!neg) mant exp

/-- `fadd_N`. An exact zero sum is +0 unless both operands are negative zeros. -/
def fadd (f : FloatFormat) : FloatValue → FloatValue → FloatValue
  | .nan, _ => .nan
  | _, .nan => .nan
  | .inf n1, .inf n2 => if n1 = n2 then .inf n1 else .nan
  | .inf n1, .finite _ _ _ => .inf n1
  | .finite _ _ _, .inf n2 => .inf n2
  | .finite n1 m1 e1, .finite n2 m2 e2 =>
    let base := min e1 e2
    let sum := alignedTo base n1 m1 e1 + alignedTo base n2 m2 e2
    let neg : Bool := if sum = 0 then n1 && n2 else decide (sum < 0)
    roundTo f neg sum.natAbs 1 base

/-- `fsub_N`: `a - b` is `a + (-b)`. -/
def fsub (f : FloatFormat) (a b : FloatValue) : FloatValue := fadd f a b.negate

/-- `fmul_N`. An infinity times a zero is NaN. -/
def fmul (f : FloatFormat) : FloatValue → FloatValue → FloatValue
  | .nan, _ => .nan
  | _, .nan => .nan
  | .inf n1, .inf n2 => .inf (n1 != n2)
  | .inf n1, .finite n2 m2 _ => if m2 = 0 then .nan else .inf (n1 != n2)
  | .finite n1 m1 _, .inf n2 => if m1 = 0 then .nan else .inf (n1 != n2)
  | .finite n1 m1 e1, .finite n2 m2 e2 => roundTo f (n1 != n2) (m1 * m2) 1 (e1 + e2)

/-- `fdiv_N`. Zero by zero and infinity by infinity are NaN; a non-zero finite value by zero is an infinity. -/
def fdiv (f : FloatFormat) : FloatValue → FloatValue → FloatValue
  | .nan, _ => .nan
  | _, .nan => .nan
  | .inf _, .inf _ => .nan
  | .inf n1, .finite n2 _ _ => .inf (n1 != n2)
  | .finite n1 _ _, .inf n2 => .finite (n1 != n2) 0 f.minExp
  | .finite n1 m1 e1, .finite n2 m2 e2 =>
    if m2 = 0 then (if m1 = 0 then .nan else .inf (n1 != n2))
    else roundTo f (n1 != n2) m1 m2 (e1 - e2)

/-- The bits of an integer square root from bit `i - 1` down, added to `root` where the square still fits. -/
def isqrtBits (n : Nat) : Nat → Nat → Nat
  | 0, root => root
  | i + 1, root =>
    if (root + 2 ^ i) * (root + 2 ^ i) ≤ n then isqrtBits n i (root + 2 ^ i) else isqrtBits n i root

/-- `floor(sqrt(n))`. -/
def isqrt (n : Nat) : Nat := isqrtBits n (n.log2 / 2 + 1) 0

/-- `fsqrt_N`, correctly rounded (spec/44_gaussian.md R190). The root is computed to more bits than the format holds; a
last bit 1 stands for a remainder, which cannot be a tie. The root of a negative non-zero value is NaN, of -0 is -0. -/
def fsqrt (f : FloatFormat) : FloatValue → FloatValue
  | .nan => .nan
  | .inf neg => if neg then .nan else .inf false
  | .finite neg mant exp =>
    if mant = 0 then .finite neg 0 f.minExp
    else if neg then .nan
    else
      let odd := exp % 2
      let n := (mant <<< odd.toNat) <<< (2 * (f.precision + 2))
      let root := isqrt n
      roundTo f false (2 * root + (if root * root = n then 0 else 1)) 1 ((exp - odd) / 2 - (f.precision + 2) - 1)

/-- The IEEE comparison; a NaN is unordered with everything (R9). -/
def fcompare : FloatValue → FloatValue → Option Ordering
  | .nan, _ => none
  | _, .nan => none
  | .inf n1, .inf n2 => some (compare n2 n1)
  | .inf n1, .finite _ _ _ => some (if n1 then .lt else .gt)
  | .finite _ _ _, .inf n2 => some (if n2 then .gt else .lt)
  | .finite n1 m1 e1, .finite n2 m2 e2 =>
    some (compare (alignedTo (min e1 e2) n1 m1 e1) (alignedTo (min e1 e2) n2 m2 e2))

/-- `a == b` on floats (R9): false with a NaN; the two zeros are equal. -/
def feq (a b : FloatValue) : Bool := fcompare a b == some .eq

/-- `a >= b` on floats (R9): false with a NaN. -/
def fge (a b : FloatValue) : Bool := fcompare a b == some .gt || fcompare a b == some .eq

/-- `a < b` on floats (R9): false with a NaN. -/
def flt (a b : FloatValue) : Bool := fcompare a b == some .lt

/-- `int_to_fN(k)` (R9), exact for `k < 2^precision`. -/
def intToFloat (f : FloatFormat) (k : Nat) : FloatValue := roundTo f false k 1 0

/-- The constant `2^exp` (R9). -/
def powerOfTwo (f : FloatFormat) (exp : Int) : FloatValue := roundTo f false 1 1 exp

end Sys2Proof.Machine
end

