-- ==== Sys2Proof/Machine/FloatUniform.lean ====
section
/-! DEFINITION. The float uniform converter: FLOAT01, DOUBLE01, FLOAT_IN_RANGE and DOUBLE_IN_RANGE
(spec/43_float_conversion.md). -/

namespace Sys2Proof.Machine

/-- `U24(x)` (R161): `int_to_f32(x[63:40]) * 2^-24`. -/
def u24 (x : U64) : FloatValue :=
  fmul binary32 (intToFloat binary32 (x >>> 40).toNat) (powerOfTwo binary32 (-24))

/-- `U53(x)` (R162): `int_to_f64(x[63:11]) * 2^-53`. -/
def u53 (x : U64) : FloatValue :=
  fmul binary64 (intToFloat binary64 (x >>> 11).toNat) (powerOfTwo binary64 (-53))

/-- Respond with a binary32 result, `RES = zext_64(bits32(value))` (spec/30_encoding.md R63). A NaN result gets the next
NaN draw; the draw counter moves on with every float result (R170; log 6). -/
def State.respondF32 (s : State) (v : FloatValue) : State :=
  { s with freeIndex := s.freeIndex + 1 }.respondOk (f32Result (f32Bits (nanFrom32 (Config.nanDraw32 s.freeIndex)) v))

/-- Respond with a binary64 result, `RES = bits64(value)` (spec/30_encoding.md R63), as `respondF32`. -/
def State.respondF64 (s : State) (v : FloatValue) : State :=
  { s with freeIndex := s.freeIndex + 1 }.respondOk (f64Result (f64Bits (nanFrom64 (Config.nanDraw64 s.freeIndex)) v))

/-- `lower + (upper - lower) * u`, each operation rounded, in the formula's order (R166, R167). -/
def scaleToRange (f : FloatFormat) (lower upper u : FloatValue) : FloatValue :=
  fadd f lower (fmul f (fsub f upper lower) u)

/-- FLOAT01 (R163). -/
def execFloat01 (s : State) : Host.Outcome State Fault Refusal :=
  .next (s.unlessFaulted (s.withDraw fun s x => s.respondF32 (u24 x)))

/-- DOUBLE01 (R164). -/
def execDouble01 (s : State) : Host.Outcome State Fault Refusal :=
  .next (s.unlessFaulted (s.withDraw fun s x => s.respondF64 (u53 x)))

/-- FLOAT_IN_RANGE (R166): no operand value faults (R169). -/
def execFloatInRange (lower upper : F32) (s : State) : Host.Outcome State Fault Refusal :=
  .next (s.unlessFaulted
    (s.withDraw fun s x => s.respondF32 (scaleToRange binary32 (f32Value lower) (f32Value upper) (u24 x))))

/-- DOUBLE_IN_RANGE (R167): no operand value faults (R169). -/
def execDoubleInRange (lower upper : F64) (s : State) : Host.Outcome State Fault Refusal :=
  .next (s.unlessFaulted
    (s.withDraw fun s x => s.respondF64 (scaleToRange binary64 (f64Value lower) (f64Value upper) (u53 x))))

end Sys2Proof.Machine
end

