-- ==== Sys2Proof/Machine/Gaussian.lean ====
section
/-! DEFINITION. The Gaussian polar sampler, FLOAT_GAUSSIAN and DOUBLE_GAUSSIAN (spec/44_gaussian.md). -/

namespace Sys2Proof.Machine

/-- The constant 1.0. -/
def floatOne (f : FloatFormat) : FloatValue := intToFloat f 1

/-- The constant 2.0. -/
def floatTwo (f : FloatFormat) : FloatValue := intToFloat f 2

/-- `2.0 * UNI_N(x) - 1.0` (R191). -/
def coordinate (f : FloatFormat) (uni : FloatValue) : FloatValue :=
  fsub f (fmul f (floatTwo f) uni) (floatOne f)

/-- The rejection test `s >= 1.0 or s == 0.0` (R191). -/
def rejectsRadius (f : FloatFormat) (s : FloatValue) : Bool :=
  fge s (floatOne f) || feq s (.finite false 0 f.minExp)

/-- The returned expression `mu + (sigma * u) * sqrt((-2.0 * ln(s)) / s)`, in C's order, each operation rounded
(R191). -/
def deviate (f : FloatFormat) (ln : FloatValue → FloatValue) (mu sigma u s : FloatValue) : FloatValue :=
  let q := fdiv f (fmul f (floatTwo f).negate (ln s)) s
  fadd f mu (fmul f (fmul f sigma u) (fsqrt f q))

/-- One iteration of POLAR_N: two draws, `u` first, under POLAR2 (R191, R196); one draw under LITERAL1 (R199). -/
def polarIteration (f : FloatFormat) (uni : U64 → FloatValue) (ln : FloatValue → FloatValue) (v : Variant)
    (form : GaussForm) (mu sigma : FloatValue) (w : Words) : Iteration FloatValue :=
  match form with
  | .polar2 =>
    let cu := coordinate f (uni (draw v w).1)
    let w1 := (draw v w).2
    let cv := coordinate f (uni (draw v w1).1)
    let w2 := (draw v w1).2
    let s := fadd f (fmul f cu cu) (fmul f cv cv)
    if rejectsRadius f s then .reject w2 else .accept (deviate f ln mu sigma cu s) w2
  | .literal1 =>
    let cu := coordinate f (uni (draw v w).1)
    let w1 := (draw v w).2
    let s := fmul f cu cu
    if rejectsRadius f s then .reject w1 else .accept (deviate f ln mu sigma cu s) w1

/-- `ln_32`: the parameter LN32 on encodings (R190). Its argument is never a NaN (R195), so `nan` is never used. -/
def ln32 (nan : F32) (v : FloatValue) : FloatValue := f32Value (Config.ln32 (f32Bits nan v))

/-- `ln_64`: the parameter LN64 on encodings (R190), as `ln32`. -/
def ln64 (nan : F64) (v : FloatValue) : FloatValue := f64Value (Config.ln64 (f64Bits nan v))

/-- The loop of FLOAT_GAUSSIAN from the words `w` (R192). -/
def runFloatGaussian (mu sigma : F32) (w : Words) (s : State) : State :=
  s.runLoop (.floatGaussian mu sigma)
    (polarIteration binary32 u24 (ln32 (nanFrom32 (Config.nanDraw32 s.freeIndex))) s.params.variant s.params.gaussForm
      (f32Value mu) (f32Value sigma))
    State.respondF32 w

/-- FLOAT_GAUSSIAN (R192): no operand value faults (R197). -/
def execFloatGaussian (mu sigma : F32) (s : State) : Host.Outcome State Fault Refusal :=
  .next (s.unlessFaulted (s.withWords fun w => runFloatGaussian mu sigma w s))

/-- The loop of DOUBLE_GAUSSIAN from the words `w` (R193). -/
def runDoubleGaussian (mu sigma : F64) (w : Words) (s : State) : State :=
  s.runLoop (.doubleGaussian mu sigma)
    (polarIteration binary64 u53 (ln64 (nanFrom64 (Config.nanDraw64 s.freeIndex))) s.params.variant s.params.gaussForm
      (f64Value mu) (f64Value sigma))
    State.respondF64 w

/-- DOUBLE_GAUSSIAN (R193): no operand value faults (R197). -/
def execDoubleGaussian (mu sigma : F64) (s : State) : Host.Outcome State Fault Refusal :=
  .next (s.unlessFaulted (s.withWords fun w => runDoubleGaussian mu sigma w s))

end Sys2Proof.Machine
end

