-- ==== Sys2Proof/Machine/Seed.lean ====
section
/-! DEFINITION. The seed expander and SEED (spec/40_seed.md). -/

namespace Sys2Proof.Machine

/-- The odd constant SPLITMIX adds (R80). -/
def splitmixGamma : U64 := 0x9e3779b97f4a7c15

/-- `SPLITMIX` (R80): add, two rounds of xor-shift then multiply, a final xor-shift. -/
def splitmix (x : U64) : U64 :=
  let z := x + splitmixGamma
  let z := (z ^^^ (z >>> 30)) * 0xbf58476d1ce4e5b9
  let z := (z ^^^ (z >>> 27)) * 0x94d049bb133111eb
  z ^^^ (z >>> 31)

/-- The words SEED loads under OUTPUT_CHAINED: each call takes the previous output (R82). -/
def seedChained (value : U64) : Words :=
  let w0 := splitmix value
  let w1 := splitmix w0
  let w2 := splitmix w1
  let w3 := splitmix w2
  ⟨w0, w1, w2, w3⟩

/-- The words SEED loads under COUNTER: word i is `SPLITMIX(value + i * gamma)` (R83). -/
def seedCounter (value : U64) : Words :=
  ⟨splitmix value, splitmix (value + splitmixGamma), splitmix (value + 2 * splitmixGamma),
    splitmix (value + 3 * splitmixGamma)⟩

/-- The words SEED loads, as the instance's SEED_CHAIN says (R82, R83). -/
def seedWords (chain : SeedChain) (value : U64) : Words :=
  match chain with
  | .outputChained => seedChained value
  | .counter => seedCounter value

/-- SEED (R82): all four words written, `V[0..3] <- 1111`, RES = 0; the old state is not read. -/
def execSeed (value : U64) (s : State) : Host.Outcome State Fault Refusal :=
  .next (s.unlessFaulted ((s.setWords (seedWords s.params.seedChain value)).respondOk 0))

end Sys2Proof.Machine
end

