-- ==== Sys2Proof/Machine/Flags.lean ====
section
/-! DEFINITION. The STATUS register (spec/10_state.md R26): the block's only flags (R27). -/

namespace Sys2Proof.Machine

/-- `VALID[i] = V[i]` (R26, R23), bit i for word i. -/
def State.validBits (s : State) : BitVec 4 :=
  BitVec.ofBool s.s3.isSome ++ BitVec.ofBool s.s2.isSome ++ BitVec.ofBool s.s1.isSome ++ BitVec.ofBool s.s0.isSome

/-- The VARIANT bit: 0 = PLUS, 1 = PLUSPLUS (R26). -/
def variantBit : Variant → BitVec 1
  | .plus => 0
  | .plusPlus => 1

/-- The STATUS word, from bit 63 down: reserved 63:17, VARIANT 16, reserved 15:12, VALID 11:8, reserved 7:5, FAULT 4,
CAUSE 3:0 (R26). Reserved bits read 0. -/
def statusWord (s : State) : U64 :=
  (0 : BitVec 47) ++ variantBit s.params.variant ++ (0 : BitVec 4) ++ s.validBits ++ (0 : BitVec 3) ++
    BitVec.ofBool s.fault ++ s.cause

end Sys2Proof.Machine
end

