-- ==== Sys2Proof/Machine/StateAccess.lean ====
section
/-! DEFINITION. State access: READ_STATE, WRITE_STATE and READ_STATUS (spec/45_state_access.md). -/

namespace Sys2Proof.Machine

/-- READ_STATE (R220): BAD_INDEX compared over all 64 bits, then UNSEEDED for that word alone, else the word. -/
def execReadState (index : U64) (s : State) : Host.Outcome State Fault Refusal :=
  .next (s.unlessFaulted
    (if 3 < index then s.raise .badIndex
     else
      match s.word index.toNat with
      | none => s.raise .unseeded
      | some w => s.respondOk w))

/-- WRITE_STATE (R221): BAD_INDEX, else `S[index] <- value`, `V[index] <- 1`, RES = 0. -/
def execWriteState (index value : U64) (s : State) : Host.Outcome State Fault Refusal :=
  .next (s.unlessFaulted
    (if 3 < index then s.raise .badIndex else (s.setWord index.toNat value).respondOk 0))

/-- READ_STATUS (R222): the STATUS word; the one command that runs while STATUS.FAULT = 1 (spec/60_exceptions.md
R242). -/
def execReadStatus (s : State) : Host.Outcome State Fault Refusal :=
  .next (s.respondOk (statusWord s))

end Sys2Proof.Machine
end

