-- ==== Sys2Proof/Machine/Dispatch.lean ====
section
/-! DEFINITION. One arm per command: its meaning (spec/30_encoding.md R61). -/

namespace Sys2Proof.Machine

/-- What a command does when the block accepts it. -/
def exec (i : Instr) (s : State) : Host.Outcome State Fault Refusal :=
  match i with
  | .seed value => Sys2Proof.Machine.execSeed value s
  | .nextU64 => Sys2Proof.Machine.execNextU64 s
  | .below range => Sys2Proof.Machine.execBelow range s
  | .intInRange lower upper => Sys2Proof.Machine.execIntInRange lower upper s
  | .float01 => Sys2Proof.Machine.execFloat01 s
  | .double01 => Sys2Proof.Machine.execDouble01 s
  | .floatInRange lower upper => Sys2Proof.Machine.execFloatInRange lower upper s
  | .doubleInRange lower upper => Sys2Proof.Machine.execDoubleInRange lower upper s
  | .floatGaussian mu sigma => Sys2Proof.Machine.execFloatGaussian mu sigma s
  | .doubleGaussian mu sigma => Sys2Proof.Machine.execDoubleGaussian mu sigma s
  | .readState index => Sys2Proof.Machine.execReadState index s
  | .writeState index value => Sys2Proof.Machine.execWriteState index value s
  | .readStatus => Sys2Proof.Machine.execReadStatus s

end Sys2Proof.Machine
end

