-- ==== Sys2Proof/Machine/Resume.lean ====
section
/-! DEFINITION. Going on with a loop command that has not accepted yet (spec/70_reset_and_hazards.md R276, R278). -/

namespace Sys2Proof.Machine

/-- The next iterations of the command in progress, from the words its draws have reached (log 5). -/
def resume (p : InProgress) (s : State) : State :=
  match p.cmd with
  | .below range => runBelow range p.words s
  | .intInRange lower upper => runIntInRange lower upper p.words s
  | .floatGaussian mu sigma => runFloatGaussian mu sigma p.words s
  | .doubleGaussian mu sigma => runDoubleGaussian mu sigma p.words s

end Sys2Proof.Machine
end

