-- ==== Sys2Proof/Machine/HostPort.lean ====
section
/-! DEFINITION. The host's moves: what a step does with the next one, with and without a command in progress
(spec/70_reset_and_hazards.md R270 to R278). -/

namespace Sys2Proof.Machine

/-- The block accepts the command triple the host presents: it runs the command the triple decodes to, or takes
ILLEGAL_COMMAND (spec/30_encoding.md R61, R65). -/
def runCommand (c : Command) (s : State) : Host.Outcome State Fault Refusal :=
  match decode c with
  | .ok i => exec i s
  | .error _ => execIllegal s

/-- A step while no command is in progress: the host's next move, or waiting for one (R271, R273). -/
def stepReady (s : State) : Host.Outcome State Fault Refusal :=
  match s.host with
  | [] => .next (idle s)
  | .wait :: rest => .next (idle { s with host := rest })
  | .reset :: rest => .next (resetBlock { s with host := rest })
  | .command c :: rest => runCommand c { s with host := rest }

/-- A step while a command is in progress: a reset ends it (R270); a command the host has still to present waits for the
response (R273; log 11); else the loop goes on. -/
def stepBusy (p : InProgress) (s : State) : Host.Outcome State Fault Refusal :=
  match s.host with
  | [] => .next (resume p s)
  | .wait :: rest => .next (resume p { s with host := rest })
  | .reset :: rest => .next (resetBlock { s with host := rest })
  | .command _ :: _ => .next (resume p s)

end Sys2Proof.Machine
end

