-- ==== Sys2Proof/Machine/Step.lean ====
section
/-! DEFINITION. One step of the block and its host (spec/70_reset_and_hazards.md R270 to R278). -/

namespace Sys2Proof.Machine

/-- One step of the machine. -/
def step (s : State) : Host.Outcome State Fault Refusal :=
  match s.inProgress with
  | none => stepReady s
  | some p => stepBusy p s

/-- The state whose very next step presents the command with the bits `w` (spec/opcode_table.json's numbering; bits from
`nbits` up are 0). The block fetches nothing (spec/10_state.md R25): the command goes to the front of the host's moves,
and no command is in progress (log 3). -/
def State.withFetchWord (s : State) (nbits w : Nat) : State :=
  { s with host := .command (Command.ofBits (w % 2 ^ nbits)) :: s.host, inProgress := none }

end Sys2Proof.Machine
end

