-- ==== Sys2Proof/Safety.lean ====
section
/-! DEFINITION. The terms claims use: the draws a state will give, the states a completed or faulting command leaves, runs,
the invariant of the machine, and the rational value of a float. -/

namespace Sys2Proof.Machine

/-! ### Draws -/

/-- The words after `n` draws (spec/41_core_step.md R105). -/
def advanceN : Nat → Words → Words
  | 0, w => w
  | n + 1, w => advanceN n (advance w)

/-- Draw number `n`, from 0, that the words `w` give (R105). -/
def drawAt (v : Variant) (w : Words) (n : Nat) : U64 := scramble v (advanceN n w)

/-- The all-zero state (spec/10_state.md R21). -/
def Words.zero : Words := ⟨0, 0, 0, 0⟩

/-! ### What a command leaves -/

/-- `s` after a command that wrote the words `w` and responded `OK(res)`; everything else as before. -/
def State.completed (s : State) (w : Words) (res : U64) : State :=
  { s with s0 := some w.s0, s1 := some w.s1, s2 := some w.s2, s3 := some w.s3, response := some (.ok res),
           inProgress := none }

/-- As `completed`, for a command with a float result: the model's NaN counter has moved on by one (log 6). -/
def State.completedFloat (s : State) (w : Words) (res : U64) : State :=
  { s.completed w res with freeIndex := s.freeIndex + 1 }

/-- `s` after a command that raised a fault with the given code (spec/60_exceptions.md R241). -/
def State.faulted (s : State) (code : BitVec 4) : State :=
  { s with cause := code, fault := true, response := some (.fault code), inProgress := none }

/-- `s` after a command it ignored because STATUS.FAULT = 1 (spec/60_exceptions.md R242). -/
def State.ignored (s : State) : State := { s with response := some (.fault s.cause), inProgress := none }

/-! ### Runs -/

/-- `k` steps of the machine. -/
def run (k : Nat) (s : State) : Host.Outcome State Fault Refusal := Sys2Proof.core.run k s

/-- The host is about to present the one command `c`, and the block is waiting for it, unfaulted. -/
def State.presents (s : State) (c : Command) : Prop :=
  s.inProgress = none ∧ s.fault = false ∧ s.host = [.command c]

/-! ### The invariant -/

/-- STATUS holds legal values (spec/10_state.md R26): CAUSE is 0 to 5, and FAULT is 1 exactly when a cause is kept. -/
def State.statusLegal (s : State) : Bool := decide (s.cause ≤ 5) && (s.fault == (s.cause != 0))

/-- A loop command that has passed its operand checks (spec/60_exceptions.md R243). -/
def LoopCommand.legal : LoopCommand → Bool
  | .below range => range != 0
  | .intInRange lower upper => isI32 lower && isI32 upper && decide (lower ≤ upper)
  | .floatGaussian _ _ => true
  | .doubleGaussian _ _ => true

/-- A command in progress passed all its checks and has not responded (spec/70_reset_and_hazards.md R273, R278). -/
def State.busyLegal (s : State) : Bool :=
  match s.inProgress with
  | none => true
  | some p => !s.fault && s.words?.isSome && p.cmd.legal && s.response.isNone

/-- The machine's invariant. -/
def State.inv (s : State) : Bool := s.statusLegal && s.busyLegal

/-- The words a command in progress has reached come from `S` by draws (spec/42_bounded_range.md R132,
spec/44_gaussian.md R196). -/
def State.busyWordsDrawn (s : State) : Prop :=
  ∀ p, s.inProgress = some p → ∃ w n, s.words? = some w ∧ 1 ≤ n ∧ p.words = advanceN n w

/-- The state is loaded and not all-zero, and neither are the words of a command in progress (spec/41_core_step.md
R108). -/
def State.nonZero (s : State) : Prop :=
  (∃ w, s.words? = some w ∧ w ≠ Words.zero) ∧ ∀ p, s.inProgress = some p → p.words ≠ Words.zero

/-- The commands of the polar sampler (spec/44_gaussian.md R192, R193). -/
def LoopCommand.isGaussian : LoopCommand → Bool
  | .below _ => false
  | .intInRange _ _ => false
  | .floatGaussian _ _ => true
  | .doubleGaussian _ _ => true

/-- A Gaussian command is in progress on all-zero words, S is all-zero, and there is no response (spec/44_gaussian.md
R198). -/
def State.hangs (s : State) : Prop :=
  s.words? = some Words.zero ∧ s.response = none ∧
    ∃ p, s.inProgress = some p ∧ p.cmd.isGaussian = true ∧ p.words = Words.zero

/-! ### Float values -/

/-- The rational value of a finite float. -/
def FloatValue.toRat? : FloatValue → Option ℚ
  | .nan => none
  | .inf _ => none
  | .finite neg mant exp => some ((signed neg mant : ℚ) * (2 : ℚ) ^ exp)

/-- The significand and exponent of a finite value of the format: canonical, so each value has one pair. -/
def FloatFormat.holds (f : FloatFormat) (mant : Nat) (exp : Int) : Prop :=
  mant < 2 ^ f.precision ∧ f.minExp ≤ exp ∧ exp ≤ f.maxExp ∧ (2 ^ (f.precision - 1) ≤ mant ∨ exp = f.minExp)

/-- A rational rounded once to the format; a zero becomes +0. -/
def roundRat (f : FloatFormat) (q : ℚ) : FloatValue := roundTo f (decide (q < 0)) q.num.natAbs q.den 0

end Sys2Proof.Machine
end

