-- ==== Sys2Proof/Certificates/Slice0/Obligations.lean ====
section
/-! DEFINITION. The statements for the provers. Each docstring names the rule of spec/ it formalises. -/

open Sys2Proof Sys2Proof.Machine

/-! ### Encoding -/

/-- The opcode map (R61, R62): each of the 13 rows at every value of the ports, and nothing else (R65). -/
def Obligations.OpcodeMapDecodesEveryRow : Prop :=
  ∀ a b : U64,
    decode ⟨0x01, a, b⟩ = .ok (.seed a) ∧
    decode ⟨0x02, a, b⟩ = .ok .nextU64 ∧
    decode ⟨0x03, a, b⟩ = .ok (.below a) ∧
    decode ⟨0x04, a, b⟩ = .ok (.intInRange (a.setWidth 32).toInt (b.setWidth 32).toInt) ∧
    decode ⟨0x05, a, b⟩ = .ok .float01 ∧
    decode ⟨0x06, a, b⟩ = .ok .double01 ∧
    decode ⟨0x07, a, b⟩ = .ok (.floatInRange (a.setWidth 32) (b.setWidth 32)) ∧
    decode ⟨0x08, a, b⟩ = .ok (.doubleInRange a b) ∧
    decode ⟨0x09, a, b⟩ = .ok (.floatGaussian (a.setWidth 32) (b.setWidth 32)) ∧
    decode ⟨0x0A, a, b⟩ = .ok (.doubleGaussian a b) ∧
    decode ⟨0x0B, a, b⟩ = .ok (.readState a) ∧
    decode ⟨0x0C, a, b⟩ = .ok (.writeState a b) ∧
    decode ⟨0x0D, a, b⟩ = .ok .readStatus ∧
    ∀ cmd : BitVec 8, (cmd = 0 ∨ 0x0E ≤ cmd) → decode ⟨cmd, a, b⟩ = .error (.illegalCommand cmd)

/-- Decode and encode agree on every well-formed instruction, every operand at every value (R61, R62). -/
def Obligations.DecodeOfEncodeIsTheInstruction : Prop :=
  ∀ i : Instr, i.wellFormed = true → decode (encode i) = .ok i

/-- The other direction: a decoded command word is the encoding of its instruction, ignored bits cleared (R61, R62,
R64), and what the decoder gives is well-formed. -/
def Obligations.EncodeOfDecodeIsTheCanonicalWord : Prop :=
  ∀ (c : Command) (i : Instr), decode c = .ok i → encode i = c.canonical ∧ i.wellFormed = true

/-- R64, R62: a port that a command does not use, and bits 63:32 of a port holding an I32 or F32 operand, have no effect
on result, state or faults. -/
def Obligations.IgnoredPortBitsHaveNoEffect : Prop :=
  ∀ (s : State) (cmd : BitVec 8) (a a' b b' : U64),
    (cmd = 0x01 ∨ cmd = 0x03 ∨ cmd = 0x0B → runCommand ⟨cmd, a, b⟩ s = runCommand ⟨cmd, a, b'⟩ s) ∧
    (cmd = 0x02 ∨ cmd = 0x05 ∨ cmd = 0x06 ∨ cmd = 0x0D → runCommand ⟨cmd, a, b⟩ s = runCommand ⟨cmd, a', b'⟩ s) ∧
    (cmd = 0x04 ∨ cmd = 0x07 ∨ cmd = 0x09 → a.setWidth 32 = a'.setWidth 32 → b.setWidth 32 = b'.setWidth 32 →
      runCommand ⟨cmd, a, b⟩ s = runCommand ⟨cmd, a', b'⟩ s)

/-! ### Pure functions -/

/-- R100, R101, R103, R104: ADVANCE as functions of the old words, and the two output functions, selected by VARIANT;
the rotations are rotations. -/
def Obligations.CoreStepHasItsClosedForms : Prop :=
  ∀ w : Words,
    (advance w).s0 = w.s0 ^^^ w.s1 ^^^ w.s3 ∧
    (advance w).s1 = w.s0 ^^^ w.s1 ^^^ w.s2 ∧
    (advance w).s2 = w.s0 ^^^ w.s2 ^^^ (w.s1 <<< 17) ∧
    (advance w).s3 = (w.s1 ^^^ w.s3).rotateLeft 45 ∧
    scramble .plus w = w.s0 + w.s3 ∧
    scramble .plusPlus w = (w.s0 + w.s3).rotateLeft 23 + w.s0 ∧
    ∀ v, draw v w = (scramble v w, advance w)


/-- R107: ADVANCE is a bijection, and the rule's ADVANCE_INV is its inverse on both sides. -/
def Obligations.AdvanceIsABijection : Prop :=
  Function.Bijective advance ∧ (∀ w, advanceInv (advance w) = w) ∧ ∀ w, advance (advanceInv w) = w

/-- R81: SPLITMIX is a bijection, and the one input it maps to 0 is `-0x9e3779b97f4a7c15`. -/
def Obligations.SplitmixIsABijection : Prop :=
  Function.Bijective splitmix ∧
    ∀ x : U64, splitmix x = 0 ↔ x = -(0x9e3779b97f4a7c15 : U64)

/-- R84: SEED never produces the all-zero state, for any seed and either SEED_CHAIN. -/
def Obligations.SeedNeverLoadsTheZeroState : Prop :=
  ∀ (chain : SeedChain) (value : U64), seedWords chain value ≠ Words.zero

/-! ### SEED -/

/-- R82: SEED under OUTPUT_CHAINED, from any state that is not faulted; a faulted block ignores it. -/
def Obligations.SeedLoadsTheChainedWords : Prop :=
  ∀ (s : State) (value : U64), s.params.seedChain = .outputChained →
    (s.fault = false →
      exec (.seed value) s = .next (s.completed
        ⟨splitmix value, splitmix (splitmix value), splitmix (splitmix (splitmix value)),
          splitmix (splitmix (splitmix (splitmix value)))⟩ 0)) ∧
    (s.fault = true → exec (.seed value) s = .next s.ignored)

/-- R83: SEED under COUNTER: word i is SPLITMIX(value + i * 0x9e3779b97f4a7c15). -/
def Obligations.SeedLoadsTheCounterWords : Prop :=
  ∀ (s : State) (value : U64), s.fault = false → s.params.seedChain = .counter →
    exec (.seed value) s = .next (s.completed
      ⟨splitmix (value + 0 * 0x9e3779b97f4a7c15), splitmix (value + 1 * 0x9e3779b97f4a7c15),
        splitmix (value + 2 * 0x9e3779b97f4a7c15), splitmix (value + 3 * 0x9e3779b97f4a7c15)⟩ 0)

/-- R85: after SEED v the S and V do not depend on any earlier command, and a second SEED v leaves the same state. -/
def Obligations.SeedIsHistoryFreeAndIdempotent : Prop :=
  ∀ (s s' t t' : State) (value : U64), s.fault = false → s'.fault = false → s.params = s'.params →
    exec (.seed value) s = .next t → exec (.seed value) s' = .next t' →
    t.words? = t'.words? ∧ t.words?.isSome ∧ exec (.seed value) t = .next t

/-! ### NEXT_U64 -/

/-- R106: NEXT_U64 returns one raw draw and advances the state once; it faults UNSEEDED when a word holds no value. -/
def Obligations.NextReturnsOneDraw : Prop :=
  ∀ s : State, s.fault = false →
    (∀ w, s.words? = some w →
      exec .nextU64 s = .next (s.completed (advance w) (scramble s.params.variant w))) ∧
    (s.words? = none → exec .nextU64 s = .next (s.faulted 4))

/-- R108: the all-zero state is a fixed point of ADVANCE, the only state mapped to it, and every draw from it is 0. -/
def Obligations.ZeroStateIsTheOnlyPreimageOfZero : Prop :=
  (∀ w, advance w = Words.zero ↔ w = Words.zero) ∧ ∀ v n, drawAt v Words.zero n = 0

/-- R108: a loaded non-zero state stays non-zero in every step but a reset and WRITE_STATE. -/
def Obligations.NonZeroStateStaysNonZero : Prop :=
  ∀ s t : State, s.nonZero → step s = .next t → s.host.head? ≠ some .reset →
    (∀ c index value, s.host.head? = some (.command c) → decode c ≠ .ok (.writeState index value)) → t.nonZero

/-! ### BELOW and INT_IN_RANGE -/

/-- R136: with `q = 2^64 mod range`, a draw is rejected exactly when it is `2^64 - q` or more, so exactly `q` draws are
rejected, and each result comes from exactly `floor(2^64 / range)` accepted draws. -/
def Obligations.EveryResultHasEquallyManyDraws : Prop :=
  ∀ range : U64, range ≠ 0 →
    (∀ x : U64, accepts range x = false ↔ 2 ^ 64 - 2 ^ 64 % range.toNat ≤ x.toNat) ∧
    Set.ncard {x : U64 | accepts range x = false} = 2 ^ 64 % range.toNat ∧
    ∀ r : U64, r < range →
      Set.ncard {x : U64 | accepts range x = true ∧ x % range = r} = 2 ^ 64 / range.toNat

/-- R135: a power-of-two range never rejects: BELOW returns the low bits of the one draw it takes. -/
def Obligations.BelowPowerOfTwoTakesOneDraw : Prop :=
  ∀ (s : State) (w : Words) (k : Nat), s.fault = false → s.words? = some w → k < 64 →
    exec (.below (1 <<< k)) s =
      .next (s.completed (advance w) (scramble s.params.variant w &&& ((1 <<< k) - 1)))

/-- R130, R131: BELOW returns the remainder of the first draw with `x - r <= -range`; with that draw number `n` the state
has advanced `n + 1` times. One step of the model spans Config.loopFuel draws (the model's choice, log 5). -/
def Obligations.BelowReturnsTheFirstAcceptedRemainder : Prop :=
  ∀ (s : State) (w : Words) (range : U64) (n : Nat), s.fault = false → s.words? = some w → range ≠ 0 →
    n < Config.loopFuel →
    (∀ j < n, -range < drawAt s.params.variant w j - drawAt s.params.variant w j % range) →
    drawAt s.params.variant w n - drawAt s.params.variant w n % range ≤ -range →
    exec (.below range) s = .next (s.completed (advanceN (n + 1) w) (drawAt s.params.variant w n % range))

/-- R137, R138: INT_IN_RANGE reduces to the exact width of its range and adds the lower bound exactly; the I32 result is
sign-extended (R63). One step of the model spans Config.loopFuel draws (log 5). -/
def Obligations.IntInRangeReturnsTheFirstAcceptedValue : Prop :=
  ∀ (s : State) (w : Words) (lower upper : BitVec 32) (n : Nat) (range : U64), s.fault = false → s.words? = some w →
    lower.toInt ≤ upper.toInt → (range.toNat : Int) = upper.toInt - lower.toInt + 1 → n < Config.loopFuel →
    (∀ j < n, -range < drawAt s.params.variant w j - drawAt s.params.variant w j % range) →
    drawAt s.params.variant w n - drawAt s.params.variant w n % range ≤ -range →
    ∃ res : BitVec 32, res.toInt = lower.toInt + (drawAt s.params.variant w n % range).toNat ∧
      exec (.intInRange lower.toInt upper.toInt) s =
        .next (s.completed (advanceN (n + 1) w) (res.signExtend 64))

/-- R141: every BELOW result is below the range and every INT_IN_RANGE result lies in the inclusive range, whether the
command responds in its first step or a later one. -/
def Obligations.BoundedResultsLieInTheRange : Prop :=
  ∀ (s t : State) (res : U64), t.response = some (.ok res) →
    (∀ (range : U64) (w : Words), range ≠ 0 →
      (exec (.below range) s = .next t ∨ resume ⟨.below range, w⟩ s = t) → res < range) ∧
    (∀ (lower upper : Int) (w : Words), isI32 lower = true → isI32 upper = true → lower ≤ upper →
      (exec (.intInRange lower upper) s = .next t ∨ resume ⟨.intInRange lower upper, w⟩ s = t) →
      lower ≤ res.toInt ∧ res.toInt ≤ upper)

/-- R130, R132, R137, R276: however many draws are rejected first, a presented BELOW or INT_IN_RANGE responds with the first
accepted draw, in some number of steps that depends on nothing else. -/
def Obligations.BoundedCommandsRespondOnceADrawIsAccepted : Prop :=
  ∀ (s : State) (c : Command) (w : Words) (range : U64) (n : Nat), s.presents c → s.words? = some w → range ≠ 0 →
    (∀ j < n, accepts range (drawAt s.params.variant w j) = false) →
    accepts range (drawAt s.params.variant w n) = true →
    (decode c = .ok (.below range) →
      ∃ k, run (k + 1) s =
        .next { s.completed (advanceN (n + 1) w) (drawAt s.params.variant w n % range) with host := [] }) ∧
    (∀ lower upper : Int, decode c = .ok (.intInRange lower upper) → lower ≤ upper →
      (range.toNat : Int) = upper - lower + 1 →
      ∃ k, run (k + 1) s =
        .next { s.completed (advanceN (n + 1) w)
            (BitVec.ofInt 64 (lower + (drawAt s.params.variant w n % range).toNat)) with host := [] })

/-! ### Floats -/

/-- R9, R160: a finite rounded result is canonical in the format, no value of the format is nearer to the exact value,
and a tie goes to the even significand. The clause on infinities is not the spec's but the model's reading of IEEE 754
(PRESUMED, log 10): a result is an infinity only from half a unit past the largest finite value on. -/
def Obligations.RoundingIsToNearestTiesToEven : Prop :=
  ∀ (f : FloatFormat) (neg : Bool) (num den : Nat) (exp : Int), f = binary32 ∨ f = binary64 → 0 < num → 0 < den →
    (∀ (n : Bool) (m : Nat) (e : Int), roundTo f neg num den exp = .finite n m e →
      n = neg ∧ f.holds m e ∧
      ∀ (m' : Nat) (e' : Int), f.holds m' e' →
        |(num : ℚ) / den * 2 ^ exp - m * 2 ^ e| ≤ |(num : ℚ) / den * 2 ^ exp - m' * 2 ^ e'| ∧
        (|(num : ℚ) / den * 2 ^ exp - m * 2 ^ e| = |(num : ℚ) / den * 2 ^ exp - m' * 2 ^ e'| →
          (m : ℚ) * 2 ^ e ≠ m' * 2 ^ e' → m % 2 = 0)) ∧
    (∀ n : Bool, roundTo f neg num den exp = .inf n →
      n = neg ∧ ((2 : ℚ) ^ (f.precision + 1) - 1) * 2 ^ (f.maxExp - 1) ≤ (num : ℚ) / den * 2 ^ exp) ∧
    roundTo f neg num den exp ≠ .nan

/-- R9: add, subtract, multiply and divide of finite values round the exact result once. -/
def Obligations.OperatorsRoundTheExactResult : Prop :=
  ∀ (f : FloatFormat) (a b : FloatValue) (x y : ℚ), f = binary32 ∨ f = binary64 →
    a.toRat? = some x → b.toRat? = some y →
    (x + y ≠ 0 → fadd f a b = roundRat f (x + y)) ∧
    (x - y ≠ 0 → fsub f a b = roundRat f (x - y)) ∧
    (x * y ≠ 0 → fmul f a b = roundRat f (x * y)) ∧
    (x ≠ 0 → y ≠ 0 → fdiv f a b = roundRat f (x / y))

/-- R190: the square root of a positive finite value of the format is a positive finite value of the format, and no value
of the format is nearer to the real root. -/
def Obligations.SquareRootIsCorrectlyRounded : Prop :=
  ∀ (f : FloatFormat) (mant : Nat) (exp : Int), f = binary32 ∨ f = binary64 → f.holds mant exp → 0 < mant →
    ∃ (m : Nat) (e : Int), fsqrt f (.finite false mant exp) = .finite false m e ∧ f.holds m e ∧
      ∀ (m' : Nat) (e' : Int), f.holds m' e' →
        |Real.sqrt ((mant : ℝ) * 2 ^ exp) - m * 2 ^ e| ≤ |Real.sqrt ((mant : ℝ) * 2 ^ exp) - m' * 2 ^ e'|

/-- Encodings lose nothing: the encoding of the value of an encoding that is no NaN is that encoding, in both formats
(R9). -/
def Obligations.FloatEncodingsRoundTrip : Prop :=
  (∀ nan bits : F32, f32Value bits ≠ .nan → f32Bits nan (f32Value bits) = bits) ∧
    ∀ nan bits : F64, f64Value bits ≠ .nan → f64Bits nan (f64Value bits) = bits

/-- R163, R161: FLOAT01 returns `k * 2^-24` exactly, `k` the draw's top 24 bits: +0.0 or a normal number below 1.0; it
faults UNSEEDED when a word holds no value. -/
def Obligations.Float01ReturnsTheTopBitsScaled : Prop :=
  ∀ s : State, s.fault = false →
    (∀ w, s.words? = some w → ∃ bits : F32,
      exec .float01 s = .next (s.completedFloat (advance w) (bits.setWidth 64)) ∧
      (f32Value bits).toRat? = some (((scramble s.params.variant w >>> 40).toNat : ℚ) / 2 ^ 24) ∧
      (bits = 0 ∨ 0x00800000 ≤ bits) ∧ bits < 0x3f800000) ∧
    (s.words? = none → exec .float01 s = .next (s.faulted 4))

/-- R164, R162: DOUBLE01 returns `k * 2^-53` exactly, `k` the draw's top 53 bits: +0.0 or a normal number below 1.0; it
faults UNSEEDED when a word holds no value. -/
def Obligations.Double01ReturnsTheTopBitsScaled : Prop :=
  ∀ s : State, s.fault = false →
    (∀ w, s.words? = some w → ∃ bits : F64,
      exec .double01 s = .next (s.completedFloat (advance w) bits) ∧
      (f64Value bits).toRat? = some (((scramble s.params.variant w >>> 11).toNat : ℚ) / 2 ^ 53) ∧
      (bits = 0 ∨ 0x0010000000000000 ≤ bits) ∧ bits < 0x3ff0000000000000) ∧
    (s.words? = none → exec .double01 s = .next (s.faulted 4))

/-- R165: U24 and U53 lie on the grid in [0,1), and each grid point comes from exactly 2^40 or 2^11 draws. -/
def Obligations.UniformGridPointsAreEquallyLikely : Prop :=
  (∀ k : Nat, k < 2 ^ 24 → Set.ncard {x : U64 | (u24 x).toRat? = some ((k : ℚ) / 2 ^ 24)} = 2 ^ 40) ∧
  (∀ k : Nat, k < 2 ^ 53 → Set.ncard {x : U64 | (u53 x).toRat? = some ((k : ℚ) / 2 ^ 53)} = 2 ^ 11) ∧
  (∀ x : U64, ∃ k < 2 ^ 24, (u24 x).toRat? = some ((k : ℚ) / 2 ^ 24)) ∧
  ∀ x : U64, ∃ k < 2 ^ 53, (u53 x).toRat? = some ((k : ℚ) / 2 ^ 53)

/-- R166: FLOAT_IN_RANGE for every pair of operands: one draw, and `lower + (upper - lower) * u`, each operation
rounded, in that order; a NaN result is encoded as some NaN (R170). It faults UNSEEDED only. -/
def Obligations.FloatInRangeReturnsTheScaledDraw : Prop :=
  ∀ (s : State) (lower upper : F32), s.fault = false →
    (∀ w, s.words? = some w → ∃ nan : F32, f32Value nan = .nan ∧
      exec (.floatInRange lower upper) s = .next (s.completedFloat (advance w)
        ((f32Bits nan (fadd binary32 (f32Value lower)
          (fmul binary32 (fsub binary32 (f32Value upper) (f32Value lower))
            (u24 (scramble s.params.variant w))))).setWidth 64))) ∧
    (s.words? = none → exec (.floatInRange lower upper) s = .next (s.faulted 4))

/-- R167: DOUBLE_IN_RANGE, the binary64 form of R166. -/
def Obligations.DoubleInRangeReturnsTheScaledDraw : Prop :=
  ∀ (s : State) (lower upper : F64), s.fault = false →
    (∀ w, s.words? = some w → ∃ nan : F64, f64Value nan = .nan ∧
      exec (.doubleInRange lower upper) s = .next (s.completedFloat (advance w)
        (f64Bits nan (fadd binary64 (f64Value lower)
          (fmul binary64 (fsub binary64 (f64Value upper) (f64Value lower))
            (u53 (scramble s.params.variant w))))))) ∧
    (s.words? = none → exec (.doubleInRange lower upper) s = .next (s.faulted 4))

/-- R169: FLOAT_IN_RANGE with equal finite bounds, other than the negative zero, returns the bound. -/
def Obligations.FloatInRangeOfEqualBoundsReturnsTheBound : Prop :=
  ∀ (s : State) (w : Words) (bound : F32) (x : ℚ), s.fault = false → s.words? = some w →
    (f32Value bound).toRat? = some x → bound ≠ 0x80000000 →
    exec (.floatInRange bound bound) s = .next (s.completedFloat (advance w) (bound.setWidth 64))

/-- R170: a NaN result of any float command is some NaN of its format, in the low 32 bits of RES for binary32; and every
NaN of the format is the result of some draw. -/
def Obligations.NanResultsAreDrawnFromAllNans : Prop :=
  (∀ draw : F32, f32Value (nanFrom32 draw) = .nan) ∧ (∀ draw : F64, f64Value (nanFrom64 draw) = .nan) ∧
  (∀ nan : F32, f32Value nan = .nan → ∃ draw, nanFrom32 draw = nan) ∧
  (∀ nan : F64, f64Value nan = .nan → ∃ draw, nanFrom64 draw = nan) ∧
  (∀ s : State, ∃ nan : F32, f32Value nan = .nan ∧ (s.respondF32 .nan).response = some (.ok (nan.setWidth 64))) ∧
  ∀ s : State, ∃ nan : F64, f64Value nan = .nan ∧ (s.respondF64 .nan).response = some (.ok nan)

/-! ### Gaussians -/

/-- R194: the coordinates of the polar method are exact: `(k - 2^23) * 2^-23` and `(k - 2^52) * 2^-52` for the draw's top
24 or 53 bits `k`, in [-1, 1); the zero is +0.0. -/
def Obligations.PolarCoordinatesAreExact : Prop :=
  (∀ x : U64, ∃ q : ℚ, (coordinate binary32 (u24 x)).toRat? = some q ∧
    q = (((x >>> 40).toNat : ℚ) - 2 ^ 23) / 2 ^ 23 ∧ -1 ≤ q ∧ q < 1 ∧ (q = -1 ↔ x >>> 40 = 0) ∧
    (f32Bits 0 (coordinate binary32 (u24 x)) = 0 ↔ x >>> 40 = 0x800000)) ∧
  ∀ x : U64, ∃ q : ℚ, (coordinate binary64 (u53 x)).toRat? = some q ∧
    q = (((x >>> 11).toNat : ℚ) - 2 ^ 52) / 2 ^ 52 ∧ -1 ≤ q ∧ q < 1 ∧ (q = -1 ↔ x >>> 11 = 0) ∧
    (f64Bits 0 (coordinate binary64 (u53 x)) = 0 ↔ x >>> 11 = 0x10000000000000)

/-- R195: the radius is zero exactly when both coordinates are, and one that is not rejected lies in `[2^-46, 1)` or
`[2^-104, 1)`: the logarithm is applied to such values only. -/
def Obligations.AcceptedRadiusLiesInsideTheDisk : Prop :=
  (∀ x y : U64, ∃ q : ℚ,
    (fadd binary32 (fmul binary32 (coordinate binary32 (u24 x)) (coordinate binary32 (u24 x)))
      (fmul binary32 (coordinate binary32 (u24 y)) (coordinate binary32 (u24 y)))).toRat? = some q ∧
    (q = 0 ↔ x >>> 40 = 0x800000 ∧ y >>> 40 = 0x800000) ∧
    (rejectsRadius binary32
      (fadd binary32 (fmul binary32 (coordinate binary32 (u24 x)) (coordinate binary32 (u24 x)))
        (fmul binary32 (coordinate binary32 (u24 y)) (coordinate binary32 (u24 y)))) = false ↔
      1 / 2 ^ 46 ≤ q ∧ q < 1)) ∧
  ∀ x y : U64, ∃ q : ℚ,
    (fadd binary64 (fmul binary64 (coordinate binary64 (u53 x)) (coordinate binary64 (u53 x)))
      (fmul binary64 (coordinate binary64 (u53 y)) (coordinate binary64 (u53 y)))).toRat? = some q ∧
    (q = 0 ↔ x >>> 11 = 0x10000000000000 ∧ y >>> 11 = 0x10000000000000) ∧
    (rejectsRadius binary64
      (fadd binary64 (fmul binary64 (coordinate binary64 (u53 x)) (coordinate binary64 (u53 x)))
        (fmul binary64 (coordinate binary64 (u53 y)) (coordinate binary64 (u53 y)))) = false ↔
      1 / 2 ^ 104 ≤ q ∧ q < 1)

/-- R191, R192: FLOAT_GAUSSIAN under POLAR2 returns the deviate of the first accepted pair of draws, `u` before `v`,
whatever function LN32 is; with that pair number `n` the state has advanced `2n + 2` times. One step of the model spans
Config.loopFuel pairs (log 5). -/
def Obligations.FloatGaussianReturnsTheFirstAcceptedDeviate : Prop :=
  ∀ (s : State) (w : Words) (mu sigma : F32) (n : Nat) (u v r : Nat → FloatValue), s.fault = false →
    s.words? = some w → s.params.gaussForm = .polar2 → n < Config.loopFuel →
    (∀ j, u j = coordinate binary32 (u24 (drawAt s.params.variant w (2 * j)))) →
    (∀ j, v j = coordinate binary32 (u24 (drawAt s.params.variant w (2 * j + 1)))) →
    (∀ j, r j = fadd binary32 (fmul binary32 (u j) (u j)) (fmul binary32 (v j) (v j))) →
    (∀ j < n, rejectsRadius binary32 (r j) = true) → rejectsRadius binary32 (r n) = false →
    ∃ nan : F32, f32Value nan = .nan ∧
      exec (.floatGaussian mu sigma) s = .next (s.completedFloat (advanceN (2 * n + 2) w)
        ((f32Bits nan (fadd binary32 (f32Value mu)
          (fmul binary32 (fmul binary32 (f32Value sigma) (u n))
            (fsqrt binary32 (fdiv binary32
              (fmul binary32 (floatTwo binary32).negate (f32Value (Config.ln32 (f32Bits nan (r n))))) (r n)))))).setWidth
          64))

/-- R191, R193: DOUBLE_GAUSSIAN, the binary64 form. -/
def Obligations.DoubleGaussianReturnsTheFirstAcceptedDeviate : Prop :=
  ∀ (s : State) (w : Words) (mu sigma : F64) (n : Nat) (u v r : Nat → FloatValue), s.fault = false →
    s.words? = some w → s.params.gaussForm = .polar2 → n < Config.loopFuel →
    (∀ j, u j = coordinate binary64 (u53 (drawAt s.params.variant w (2 * j)))) →
    (∀ j, v j = coordinate binary64 (u53 (drawAt s.params.variant w (2 * j + 1)))) →
    (∀ j, r j = fadd binary64 (fmul binary64 (u j) (u j)) (fmul binary64 (v j) (v j))) →
    (∀ j < n, rejectsRadius binary64 (r j) = true) → rejectsRadius binary64 (r n) = false →
    ∃ nan : F64, f64Value nan = .nan ∧
      exec (.doubleGaussian mu sigma) s = .next (s.completedFloat (advanceN (2 * n + 2) w)
        (f64Bits nan (fadd binary64 (f64Value mu)
          (fmul binary64 (fmul binary64 (f64Value sigma) (u n))
            (fsqrt binary64 (fdiv binary64
              (fmul binary64 (floatTwo binary64).negate (f64Value (Config.ln64 (f64Bits nan (r n))))) (r n)))))))

/-- R199: under LITERAL1 each iteration takes one draw and the radius is `u * u`; both Gaussians, from their first
accepted draw `n`. -/
def Obligations.LiteralFormTakesOneDrawAnIteration : Prop :=
  ∀ (s : State) (w : Words) (n : Nat), s.fault = false → s.words? = some w → s.params.gaussForm = .literal1 →
    n < Config.loopFuel →
    (∀ (mu sigma : F32) (u r : Nat → FloatValue),
      (∀ j, u j = coordinate binary32 (u24 (drawAt s.params.variant w j))) →
      (∀ j, r j = fmul binary32 (u j) (u j)) →
      (∀ j < n, rejectsRadius binary32 (r j) = true) → rejectsRadius binary32 (r n) = false →
      ∃ nan : F32, f32Value nan = .nan ∧
        exec (.floatGaussian mu sigma) s = .next (s.completedFloat (advanceN (n + 1) w)
          ((f32Bits nan (deviate binary32 (fun x => f32Value (Config.ln32 (f32Bits nan x))) (f32Value mu)
            (f32Value sigma) (u n) (r n))).setWidth 64))) ∧
    ∀ (mu sigma : F64) (u r : Nat → FloatValue),
      (∀ j, u j = coordinate binary64 (u53 (drawAt s.params.variant w j))) →
      (∀ j, r j = fmul binary64 (u j) (u j)) →
      (∀ j < n, rejectsRadius binary64 (r j) = true) → rejectsRadius binary64 (r n) = false →
      ∃ nan : F64, f64Value nan = .nan ∧
        exec (.doubleGaussian mu sigma) s = .next (s.completedFloat (advanceN (n + 1) w)
          (f64Bits nan (deviate binary64 (fun x => f64Value (Config.ln64 (f64Bits nan x))) (f64Value mu)
            (f64Value sigma) (u n) (r n))))

/-- R197: mu and sigma do not affect the draws, the final state, or whether the command responds, and no value of them
faults. -/
def Obligations.MuAndSigmaDoNotAffectTheDraws : Prop :=
  ∀ (s t t' : State) (w : Words), s.fault = false → s.words? = some w →
    ((∃ mu sigma mu' sigma' : F32, exec (.floatGaussian mu sigma) s = .next t ∧
        exec (.floatGaussian mu' sigma') s = .next t') ∨
      ∃ mu sigma mu' sigma' : F64, exec (.doubleGaussian mu sigma) s = .next t ∧
        exec (.doubleGaussian mu' sigma') s = .next t') →
    t.words? = t'.words? ∧ t.words?.isSome ∧ t.inProgress.map InProgress.words = t'.inProgress.map InProgress.words ∧
      t.freeIndex = t'.freeIndex ∧ t.response.isSome = t'.response.isSome ∧ t.fault = false ∧ t'.fault = false ∧
      t.cause = t'.cause

/-- R191, R192, R193, R196, R199: however many iterations are rejected first, a presented Gaussian responds with the
deviate of the first accepted iteration `n`, in some number of steps that depends on nothing else. An iteration takes
`d = 2` draws and has the radius `u*u + v*v` under POLAR2, `d = 1` and `u*u` under LITERAL1; `z j` is the coordinate draw
number `j` gives, so `u` of iteration `n` is `z (d * n)`. A NaN result is encoded as some NaN (R170), and the NaN in the
argument of LN32 or LN64 is never used (R195). -/
def Obligations.GaussianRespondsOnceAPairIsAccepted : Prop :=
  ∀ (s : State) (c : Command) (w : Words) (n d : Nat) (f : FloatFormat) (z r : Nat → FloatValue), s.presents c →
    s.words? = some w →
    (s.params.gaussForm = .polar2 ∧ d = 2 ∧
        (∀ j, r j = fadd f (fmul f (z (2 * j)) (z (2 * j))) (fmul f (z (2 * j + 1)) (z (2 * j + 1)))) ∨
      s.params.gaussForm = .literal1 ∧ d = 1 ∧ ∀ j, r j = fmul f (z j) (z j)) →
    (∀ j < n, rejectsRadius f (r j) = true) → rejectsRadius f (r n) = false →
    (∀ mu sigma : F32, decode c = .ok (.floatGaussian mu sigma) → f = binary32 →
      (∀ j, z j = coordinate f (u24 (drawAt s.params.variant w j))) →
      ∃ (k : Nat) (nan : F32), f32Value nan = .nan ∧
        run (k + 1) s = .next { s.completedFloat (advanceN (d * n + d) w)
          ((f32Bits nan (deviate f (fun x => f32Value (Config.ln32 (f32Bits nan x))) (f32Value mu) (f32Value sigma)
            (z (d * n)) (r n))).setWidth 64) with host := [] }) ∧
    ∀ mu sigma : F64, decode c = .ok (.doubleGaussian mu sigma) → f = binary64 →
      (∀ j, z j = coordinate f (u53 (drawAt s.params.variant w j))) →
      ∃ (k : Nat) (nan : F64), f64Value nan = .nan ∧
        run (k + 1) s = .next { s.completedFloat (advanceN (d * n + d) w)
          (f64Bits nan (deviate f (fun x => f64Value (Config.ln64 (f64Bits nan x))) (f64Value mu) (f64Value sigma)
            (z (d * n)) (r n))) with host := [] }

/-- R198: on the all-zero state a Gaussian command never completes, under either form: after any number of steps it is
still in progress, without a response, and `S` is still all-zero. -/
def Obligations.GaussianHangsOnTheZeroState : Prop :=
  ∀ (s : State) (c : Command) (k : Nat), s.presents c → s.words? = some Words.zero →
    ((∃ mu sigma, decode c = .ok (.floatGaussian mu sigma)) ∨ ∃ mu sigma, decode c = .ok (.doubleGaussian mu sigma)) →
    ∃ t, run (k + 1) s = .next t ∧ t.inProgress.isSome ∧ t.response = none ∧ t.words? = some Words.zero

/-- R198, R278: a Gaussian command in progress on all-zero words over an all-zero S, with no response, is kept so by every
step in which the host does not reset the block, whatever its operands and the instance's parameters. -/
def Obligations.EveryStepKeepsTheHangingGaussian : Prop :=
  ∀ s t : State, s.hangs → s.host.head? ≠ some .reset → step s = .next t → t.hangs ∧ t.inProgress = s.inProgress

/-! ### State access -/

/-- R220: READ_STATE returns the word at its index and changes nothing; it needs only that word valid, else it faults
UNSEEDED, and an index above 3, over all 64 bits, faults BAD_INDEX. -/
def Obligations.ReadStateReturnsTheWord : Prop :=
  ∀ (s : State) (index : U64) (word : Option U64), s.fault = false →
    (index = 0 ∧ word = s.s0 ∨ index = 1 ∧ word = s.s1 ∨ index = 2 ∧ word = s.s2 ∨ index = 3 ∧ word = s.s3 →
      (∀ v, word = some v →
        exec (.readState index) s = .next { s with response := some (.ok v), inProgress := none }) ∧
      (word = none → exec (.readState index) s = .next (s.faulted 4))) ∧
    (3 < index → exec (.readState index) s = .next (s.faulted 5))

/-- R221: WRITE_STATE writes the word at its index and its validity, any value accepted, leaves the other words and
returns 0; an index above 3 faults BAD_INDEX. -/
def Obligations.WriteStateWritesTheWord : Prop :=
  ∀ (s : State) (v : U64), s.fault = false →
    exec (.writeState 0 v) s = .next { s with s0 := some v, response := some (.ok 0), inProgress := none } ∧
    exec (.writeState 1 v) s = .next { s with s1 := some v, response := some (.ok 0), inProgress := none } ∧
    exec (.writeState 2 v) s = .next { s with s2 := some v, response := some (.ok 0), inProgress := none } ∧
    exec (.writeState 3 v) s = .next { s with s3 := some v, response := some (.ok 0), inProgress := none } ∧
    ∀ index : U64, 3 < index → exec (.writeState index v) s = .next (s.faulted 5)

/-- R222, R26: READ_STATUS returns the STATUS word, every field in its place and reserved bits 0, faulted or not, and
clears nothing. -/
def Obligations.ReadStatusReturnsEveryField : Prop :=
  ∀ s : State, ∃ res : U64,
    exec .readStatus s = .next { s with response := some (.ok res), inProgress := none } ∧
    res.extractLsb' 0 4 = s.cause ∧ res.getLsbD 4 = s.fault ∧ res.extractLsb' 5 3 = 0 ∧
    res.getLsbD 8 = s.s0.isSome ∧ res.getLsbD 9 = s.s1.isSome ∧ res.getLsbD 10 = s.s2.isSome ∧
    res.getLsbD 11 = s.s3.isSome ∧ res.extractLsb' 12 4 = 0 ∧
    res.getLsbD 16 = (s.params.variant == .plusPlus) ∧ res.extractLsb' 17 47 = 0

/-- R223: writing back the four words read earlier restores S and V, whatever ran in between, and then every command does
what it would have done right after the reads. Both states have legal STATUS and no fault: one recorded in between would
have the writes ignored (R242). The model's own bookkeeping stays as it is after the writes: the host's moves (log 3), and
the NaN counter (log 6), so that the one thing that may differ from the earlier run is which NaN a NaN result is (R170). -/
def Obligations.SaveAndRestoreRoundTrips : Prop :=
  ∀ (s s' t1 t2 t3 t4 : State) (w : Words), s.words? = some w → s.statusLegal = true → s'.statusLegal = true →
    s.fault = false → s'.fault = false → s.params = s'.params →
    exec (.writeState 0 w.s0) s' = .next t1 → exec (.writeState 1 w.s1) t1 = .next t2 →
    exec (.writeState 2 w.s2) t2 = .next t3 → exec (.writeState 3 w.s3) t3 = .next t4 →
    t4.words? = some w ∧ ∀ i, exec i t4 = exec i { s with host := t4.host, freeIndex := t4.freeIndex }

/-! ### Faults -/

/-- R240, R241: each condition of the table, from a state that is not faulted, raises its fault: the cause's code and
FAULT are recorded, the response is FAULT(cause), and nothing else changes. -/
def Obligations.EachFaultConditionIsRecorded : Prop :=
  ∀ s : State, s.fault = false →
    (∀ (cmd : BitVec 8) (a b : U64), cmd = 0 ∨ 0x0E ≤ cmd → runCommand ⟨cmd, a, b⟩ s = .next (s.faulted 1)) ∧
    exec (.below 0) s = .next (s.faulted 2) ∧
    (∀ lower upper, upper < lower → exec (.intInRange lower upper) s = .next (s.faulted 3)) ∧
    (s.words? = none →
      exec .nextU64 s = .next (s.faulted 4) ∧
      (∀ range, range ≠ 0 → exec (.below range) s = .next (s.faulted 4)) ∧
      (∀ lower upper, lower ≤ upper → exec (.intInRange lower upper) s = .next (s.faulted 4)) ∧
      exec .float01 s = .next (s.faulted 4) ∧ exec .double01 s = .next (s.faulted 4) ∧
      (∀ lower upper, exec (.floatInRange lower upper) s = .next (s.faulted 4)) ∧
      (∀ lower upper, exec (.doubleInRange lower upper) s = .next (s.faulted 4)) ∧
      (∀ mu sigma, exec (.floatGaussian mu sigma) s = .next (s.faulted 4)) ∧
      (∀ mu sigma, exec (.doubleGaussian mu sigma) s = .next (s.faulted 4))) ∧
    (∀ index : U64, index ≤ 3 → s.word index.toNat = none → exec (.readState index) s = .next (s.faulted 4)) ∧
    (∀ index value : U64, 3 < index →
      exec (.readState index) s = .next (s.faulted 5) ∧ exec (.writeState index value) s = .next (s.faulted 5))

/-- R242: while STATUS.FAULT = 1 every command but READ_STATUS, an illegal one too, is ignored and answered
FAULT(STATUS.CAUSE); READ_STATUS runs; fault, cause, S and V last over any run in which no reset is asserted; a reset
clears FAULT. -/
def Obligations.FaultLastsUntilReset : Prop :=
  ∀ s : State, s.fault = true →
    (∀ c : Command, c.cmd ≠ 0x0D → runCommand c s = .next s.ignored) ∧
    exec .readStatus s = .next { s with response := some (.ok (statusWord s)), inProgress := none } ∧
    (∀ (t : State) (k : Nat), s.inProgress = none → HostMove.reset ∉ s.host → run k s = .next t →
      t.fault = true ∧ t.cause = s.cause ∧ t.s0 = s.s0 ∧ t.s1 = s.s1 ∧ t.s2 = s.s2 ∧ t.s3 = s.s3) ∧
    ∀ rest t, s.host = .reset :: rest → step s = .next t → t.fault = false ∧ t.cause = 0

/-- R241, R45, R277: a step that answers a fault takes no draw: S, V, the parameters and the NaN counter are as before. -/
def Obligations.FaultingCommandsChangeNoWord : Prop :=
  ∀ (s t : State) (code : BitVec 4), step s = .next t → t.response = some (.fault code) →
    t.s0 = s.s0 ∧ t.s1 = s.s1 ∧ t.s2 = s.s2 ∧ t.s3 = s.s3 ∧ t.params = s.params ∧ t.freeIndex = s.freeIndex ∧
      t.inProgress = none ∧ t.fault = true ∧ t.cause = code

/-! ### Reset, the host and the whole machine -/

/-- R32: S holds no value, V, CAUSE and FAULT are 0 right after reset, and STATUS shows only the instance's VARIANT. -/
def Obligations.ResetStateHoldsTheResetValues : Prop :=
  State.reset.s0 = none ∧ State.reset.s1 = none ∧ State.reset.s2 = none ∧ State.reset.s3 = none ∧
    State.reset.validBits = 0 ∧ State.reset.cause = 0 ∧ State.reset.fault = false ∧ State.reset.inProgress = none ∧
    State.reset.response = none ∧
    statusWord State.reset = (BitVec.ofBool (State.reset.params.variant == .plusPlus)).setWidth 64 <<< 16

/-- R270: a reset takes effect in any state, with or without a command in progress, which then gives no response; the
parameters are left alone. -/
def Obligations.ResetTakesEffectInAnyState : Prop :=
  ∀ (s : State) (rest : List HostMove), s.host = .reset :: rest →
    step s = .next { s with s0 := none, s1 := none, s2 := none, s3 := none, cause := 0, fault := false,
                            inProgress := none, response := none, host := rest }

/-- R271, R273: with no move from the host a block with no command in progress waits, and while a command is in progress
the host's next command is not taken. -/
def Obligations.OneCommandAtATime : Prop :=
  ∀ s : State,
    (s.inProgress = none → s.host = [] → step s = .next { s with response := none }) ∧
    (∀ c rest t, s.inProgress.isSome → s.host = .command c :: rest → step s = .next t → t.host = s.host)

/-- R48, R61: when the block is waiting and the host's next move is a command that decodes to `i`, the step is exec of
`i` with that move gone; and decoding gives well-formed instructions only. -/
def Obligations.StepRunsTheDecodedCommand : Prop :=
  ∀ (s : State) (c : Command) (rest : List HostMove) (i : Instr), s.inProgress = none → s.host = .command c :: rest →
    decode c = .ok i → i.wellFormed = true ∧ step s = exec i { s with host := rest }

/-- Every step keeps the invariant: STATUS holds legal values (R26), and a command in progress has passed its checks on
a loaded, unfaulted block and has not responded (R243, R273). -/
def Obligations.EveryStepKeepsTheInvariant : Prop :=
  ∀ s t : State, s.inv = true → step s = .next t → t.inv = true

/-- The reset state has the invariant. -/
def Obligations.ResetHasTheInvariant : Prop := State.reset.inv = true

/-- R45, R132, R196: what a command in progress has drawn comes from S, and S itself is left until it responds; every
step keeps this. -/
def Obligations.EveryStepKeepsTheDrawnWords : Prop :=
  ∀ s t : State, s.busyWordsDrawn → step s = .next t → t.busyWordsDrawn ∧
    (t.inProgress.isSome → t.words? = s.words?)

/-- R28: no step changes VARIANT or another parameter of the instance. -/
def Obligations.NoStepChangesTheParameters : Prop :=
  ∀ s t : State, step s = .next t → t.params = s.params

/-- R30, R48: the response of an earlier command is read by nothing. -/
def Obligations.NoStepReadsAnEarlierResponse : Prop :=
  ∀ (s : State) (r : Option Response), step { s with response := r } = step s

/-! ### Frames -/

/-- Frame of the commands that only read (READ_STATE, READ_STATUS; R46): no word, no parameter, no host move and no NaN
draw changes, and STATUS changes only when READ_STATE responds a fault. -/
def Obligations.ReadCommandsFrame : Prop :=
  ∀ (s t : State) (i : Instr), (i = .readStatus ∨ ∃ index, i = .readState index) → exec i s = .next t →
    t.s0 = s.s0 ∧ t.s1 = s.s1 ∧ t.s2 = s.s2 ∧ t.s3 = s.s3 ∧ t.params = s.params ∧ t.host = s.host ∧
      t.freeIndex = s.freeIndex ∧ ((∃ res, t.response = some (.ok res)) → t.cause = s.cause ∧ t.fault = s.fault)

/-- Frame of the commands that write words from their operands (SEED, WRITE_STATE): STATUS changes only when WRITE_STATE
responds a fault, WRITE_STATE leaves every word but the one at its index, and the parameters, the host's moves and the
NaN counter stay. -/
def Obligations.WriteCommandsFrame : Prop :=
  ∀ (s t : State) (i : Instr),
    ((∃ value, i = .seed value) ∨ ∃ index value, i = .writeState index value) → exec i s = .next t →
    t.params = s.params ∧ t.host = s.host ∧ t.freeIndex = s.freeIndex ∧
      ((∃ res, t.response = some (.ok res)) → t.cause = s.cause ∧ t.fault = s.fault) ∧
      ∀ index value, i = .writeState index value →
        (index ≠ 0 → t.s0 = s.s0) ∧ (index ≠ 1 → t.s1 = s.s1) ∧ (index ≠ 2 → t.s2 = s.s2) ∧ (index ≠ 3 → t.s3 = s.s3)

/-- Frame of the nine generation commands: with no fault response STATUS.CAUSE and FAULT stay, the parameters and the
host's moves always stay, the NaN counter moves only with a float result, and while the command has not responded S
stays whole (R45). -/
def Obligations.GenerationCommandsFrame : Prop :=
  ∀ (s t : State) (i : Instr),
    (i = .nextU64 ∨ (∃ r, i = .below r) ∨ (∃ l u, i = .intInRange l u) ∨ i = .float01 ∨ i = .double01 ∨
      (∃ l u, i = .floatInRange l u) ∨ (∃ l u, i = .doubleInRange l u) ∨ (∃ m d, i = .floatGaussian m d) ∨
      ∃ m d, i = .doubleGaussian m d) →
    exec i s = .next t →
    t.params = s.params ∧ t.host = s.host ∧
      ((∀ code, t.response ≠ some (.fault code)) → t.cause = s.cause ∧ t.fault = s.fault) ∧
      ((i = .nextU64 ∨ (∃ r, i = .below r) ∨ ∃ l u, i = .intInRange l u) → t.freeIndex = s.freeIndex) ∧
      ((∀ res, t.response ≠ some (.ok res)) →
        t.freeIndex = s.freeIndex ∧ t.s0 = s.s0 ∧ t.s1 = s.s1 ∧ t.s2 = s.s2 ∧ t.s3 = s.s3)
end

