-- ==== Sys2Proof/Laws/State.lean ====
section
/-! SUPPORT. What each update of State does to each field: one rewriting lemma a field, so that no later proof unfolds an
update. -/

namespace Sys2Proof.Machine

/-! ### After responding -/

@[simp] theorem State.respond_s0 (s : State) (r : Response) : (s.respond r).s0 = s.s0 := rfl
@[simp] theorem State.respond_s1 (s : State) (r : Response) : (s.respond r).s1 = s.s1 := rfl
@[simp] theorem State.respond_s2 (s : State) (r : Response) : (s.respond r).s2 = s.s2 := rfl
@[simp] theorem State.respond_s3 (s : State) (r : Response) : (s.respond r).s3 = s.s3 := rfl
@[simp] theorem State.respond_cause (s : State) (r : Response) : (s.respond r).cause = s.cause := rfl
@[simp] theorem State.respond_fault (s : State) (r : Response) : (s.respond r).fault = s.fault := rfl
@[simp] theorem State.respond_params (s : State) (r : Response) : (s.respond r).params = s.params := rfl
@[simp] theorem State.respond_inProgress (s : State) (r : Response) : (s.respond r).inProgress = none := rfl
@[simp] theorem State.respond_response (s : State) (r : Response) : (s.respond r).response = some r := rfl
@[simp] theorem State.respond_host (s : State) (r : Response) : (s.respond r).host = s.host := rfl
@[simp] theorem State.respond_freeIndex (s : State) (r : Response) : (s.respond r).freeIndex = s.freeIndex := rfl

/-! ### After writing the four words -/

@[simp] theorem State.setWords_s0 (s : State) (w : Words) : (s.setWords w).s0 = some w.s0 := rfl
@[simp] theorem State.setWords_s1 (s : State) (w : Words) : (s.setWords w).s1 = some w.s1 := rfl
@[simp] theorem State.setWords_s2 (s : State) (w : Words) : (s.setWords w).s2 = some w.s2 := rfl
@[simp] theorem State.setWords_s3 (s : State) (w : Words) : (s.setWords w).s3 = some w.s3 := rfl
@[simp] theorem State.setWords_cause (s : State) (w : Words) : (s.setWords w).cause = s.cause := rfl
@[simp] theorem State.setWords_fault (s : State) (w : Words) : (s.setWords w).fault = s.fault := rfl
@[simp] theorem State.setWords_params (s : State) (w : Words) : (s.setWords w).params = s.params := rfl
@[simp] theorem State.setWords_inProgress (s : State) (w : Words) : (s.setWords w).inProgress = s.inProgress := rfl
@[simp] theorem State.setWords_response (s : State) (w : Words) : (s.setWords w).response = s.response := rfl
@[simp] theorem State.setWords_host (s : State) (w : Words) : (s.setWords w).host = s.host := rfl
@[simp] theorem State.setWords_freeIndex (s : State) (w : Words) : (s.setWords w).freeIndex = s.freeIndex := rfl

/-! ### After staying in progress -/

@[simp] theorem State.stayBusy_s0 (s : State) (c : LoopCommand) (w : Words) : (s.stayBusy c w).s0 = s.s0 := rfl
@[simp] theorem State.stayBusy_s1 (s : State) (c : LoopCommand) (w : Words) : (s.stayBusy c w).s1 = s.s1 := rfl
@[simp] theorem State.stayBusy_s2 (s : State) (c : LoopCommand) (w : Words) : (s.stayBusy c w).s2 = s.s2 := rfl
@[simp] theorem State.stayBusy_s3 (s : State) (c : LoopCommand) (w : Words) : (s.stayBusy c w).s3 = s.s3 := rfl
@[simp] theorem State.stayBusy_cause (s : State) (c : LoopCommand) (w : Words) : (s.stayBusy c w).cause = s.cause := rfl
@[simp] theorem State.stayBusy_fault (s : State) (c : LoopCommand) (w : Words) : (s.stayBusy c w).fault = s.fault := rfl
@[simp] theorem State.stayBusy_params (s : State) (c : LoopCommand) (w : Words) : (s.stayBusy c w).params = s.params := rfl
@[simp] theorem State.stayBusy_inProgress (s : State) (c : LoopCommand) (w : Words) : (s.stayBusy c w).inProgress = some ⟨c, w⟩ := rfl
@[simp] theorem State.stayBusy_response (s : State) (c : LoopCommand) (w : Words) : (s.stayBusy c w).response = none := rfl
@[simp] theorem State.stayBusy_host (s : State) (c : LoopCommand) (w : Words) : (s.stayBusy c w).host = s.host := rfl
@[simp] theorem State.stayBusy_freeIndex (s : State) (c : LoopCommand) (w : Words) : (s.stayBusy c w).freeIndex = s.freeIndex := rfl

/-! ### After reset -/

@[simp] theorem resetBlock_s0 (s : State) : (resetBlock s).s0 = none := rfl
@[simp] theorem resetBlock_s1 (s : State) : (resetBlock s).s1 = none := rfl
@[simp] theorem resetBlock_s2 (s : State) : (resetBlock s).s2 = none := rfl
@[simp] theorem resetBlock_s3 (s : State) : (resetBlock s).s3 = none := rfl
@[simp] theorem resetBlock_cause (s : State) : (resetBlock s).cause = 0 := rfl
@[simp] theorem resetBlock_fault (s : State) : (resetBlock s).fault = false := rfl
@[simp] theorem resetBlock_params (s : State) : (resetBlock s).params = s.params := rfl
@[simp] theorem resetBlock_inProgress (s : State) : (resetBlock s).inProgress = none := rfl
@[simp] theorem resetBlock_response (s : State) : (resetBlock s).response = none := rfl
@[simp] theorem resetBlock_host (s : State) : (resetBlock s).host = s.host := rfl
@[simp] theorem resetBlock_freeIndex (s : State) : (resetBlock s).freeIndex = s.freeIndex := rfl

/-! ### After waiting -/

@[simp] theorem idle_s0 (s : State) : (idle s).s0 = s.s0 := rfl
@[simp] theorem idle_s1 (s : State) : (idle s).s1 = s.s1 := rfl
@[simp] theorem idle_s2 (s : State) : (idle s).s2 = s.s2 := rfl
@[simp] theorem idle_s3 (s : State) : (idle s).s3 = s.s3 := rfl
@[simp] theorem idle_cause (s : State) : (idle s).cause = s.cause := rfl
@[simp] theorem idle_fault (s : State) : (idle s).fault = s.fault := rfl
@[simp] theorem idle_params (s : State) : (idle s).params = s.params := rfl
@[simp] theorem idle_inProgress (s : State) : (idle s).inProgress = s.inProgress := rfl
@[simp] theorem idle_response (s : State) : (idle s).response = none := rfl
@[simp] theorem idle_host (s : State) : (idle s).host = s.host := rfl
@[simp] theorem idle_freeIndex (s : State) : (idle s).freeIndex = s.freeIndex := rfl

/-! ### After ignoring a command -/

@[simp] theorem State.ignore_s0 (s : State) : s.ignore.s0 = s.s0 := rfl
@[simp] theorem State.ignore_s1 (s : State) : s.ignore.s1 = s.s1 := rfl
@[simp] theorem State.ignore_s2 (s : State) : s.ignore.s2 = s.s2 := rfl
@[simp] theorem State.ignore_s3 (s : State) : s.ignore.s3 = s.s3 := rfl
@[simp] theorem State.ignore_cause (s : State) : s.ignore.cause = s.cause := rfl
@[simp] theorem State.ignore_fault (s : State) : s.ignore.fault = s.fault := rfl
@[simp] theorem State.ignore_params (s : State) : s.ignore.params = s.params := rfl
@[simp] theorem State.ignore_inProgress (s : State) : s.ignore.inProgress = none := rfl
@[simp] theorem State.ignore_response (s : State) : s.ignore.response = some (.fault s.cause) := rfl
@[simp] theorem State.ignore_host (s : State) : s.ignore.host = s.host := rfl
@[simp] theorem State.ignore_freeIndex (s : State) : s.ignore.freeIndex = s.freeIndex := rfl

/-! ### After reset -/

@[simp] theorem State.reset_s0 : State.reset.s0 = none := rfl
@[simp] theorem State.reset_s1 : State.reset.s1 = none := rfl
@[simp] theorem State.reset_s2 : State.reset.s2 = none := rfl
@[simp] theorem State.reset_s3 : State.reset.s3 = none := rfl
@[simp] theorem State.reset_cause : State.reset.cause = 0 := rfl
@[simp] theorem State.reset_fault : State.reset.fault = false := rfl
@[simp] theorem State.reset_params : State.reset.params = Config.params := rfl
@[simp] theorem State.reset_inProgress : State.reset.inProgress = none := rfl
@[simp] theorem State.reset_response : State.reset.response = none := rfl
@[simp] theorem State.reset_host : State.reset.host = [] := rfl
@[simp] theorem State.reset_freeIndex : State.reset.freeIndex = 0 := rfl

end Sys2Proof.Machine
end

