-- ==== Sys2Proof/Laws/Ops.lean ====
section
/-! SUPPORT. What each shared operation can do, said once: the state words, faults, the checks of R243 and the rejection
loop. -/

namespace Sys2Proof.Machine

/-! ### The state words -/

/-- All words are valid with the values of `w` exactly when each field holds its word. -/
theorem State.words?_eq_some_iff {s : State} {w : Words} :
    s.words? = some w ↔ s.s0 = some w.s0 ∧ s.s1 = some w.s1 ∧ s.s2 = some w.s2 ∧ s.s3 = some w.s3 := by
  obtain ⟨w0, w1, w2, w3⟩ := w
  cases h0 : s.s0 <;> cases h1 : s.s1 <;> cases h2 : s.s2 <;> cases h3 : s.s3 <;>
    simp [State.words?, h0, h1, h2, h3]

@[simp] theorem State.words?_setWords (s : State) (w : Words) : (s.setWords w).words? = some w := rfl

@[simp] theorem State.words?_respond (s : State) (r : Response) : (s.respond r).words? = s.words? := rfl

@[simp] theorem State.words?_stayBusy (s : State) (c : LoopCommand) (w : Words) :
    (s.stayBusy c w).words? = s.words? := rfl

@[simp] theorem State.words?_idle (s : State) : (idle s).words? = s.words? := rfl

@[simp] theorem State.words?_resetBlock (s : State) : (resetBlock s).words? = none := rfl

@[simp] theorem State.words?_host (s : State) (l : List HostMove) : { s with host := l }.words? = s.words? := rfl

/-- Writing a word leaves the other fields; above index 3 it leaves everything. -/
theorem State.setWord_frame (s : State) (i : Nat) (v : U64) :
    (s.setWord i v).cause = s.cause ∧ (s.setWord i v).fault = s.fault ∧ (s.setWord i v).params = s.params ∧
      (s.setWord i v).host = s.host ∧ (s.setWord i v).freeIndex = s.freeIndex := by
  unfold State.setWord
  split <;> simp

/-- Reading back the word just written. -/
theorem State.word_setWord (s : State) (i : Nat) (v : U64) (hi : i < 4) : (s.setWord i v).word i = some v := by
  match i, hi with
  | 0, _ => rfl
  | 1, _ => rfl
  | 2, _ => rfl
  | 3, _ => rfl

/-- Writing word `i` leaves every other word. -/
theorem State.word_setWord_ne (s : State) (i j : Nat) (v : U64) (h : i ≠ j) : (s.setWord i v).word j = s.word j := by
  unfold State.setWord
  split <;> unfold State.word <;> first | rfl | (split <;> first | rfl | omega)

/-! ### Faults and checks -/

/-- A fault raised on an unfaulted block is the entry R241 describes. -/
theorem State.raise_eq_faulted {s : State} (h : s.fault = false) (c : Cause) : s.raise c = s.faulted c.code := by
  simp [State.raise, h, State.faulted, State.respond]

theorem State.ignore_eq_ignored (s : State) : s.ignore = s.ignored := rfl

/-- Every cause has a legal, non-zero code (R240). -/
theorem Cause.code_legal (c : Cause) : c.code ≤ 5 ∧ c.code ≠ 0 := by
  cases c <;> decide

theorem State.unlessFaulted_of_unfaulted {s : State} (h : s.fault = false) (body : State) :
    s.unlessFaulted body = body := by
  simp [State.unlessFaulted, h]

theorem State.unlessFaulted_of_faulted {s : State} (h : s.fault = true) (body : State) :
    s.unlessFaulted body = s.ignored := by
  simp [State.unlessFaulted, h, State.ignore_eq_ignored]

theorem State.withWords_of_some {s : State} {w : Words} (h : s.words? = some w) (body : Words → State) :
    s.withWords body = body w := by
  simp [State.withWords, h]

theorem State.withWords_of_none {s : State} (h : s.words? = none) (body : Words → State) :
    s.withWords body = s.raise .unseeded := by
  simp [State.withWords, h]

/-! ### Draws -/

theorem advanceN_eq_iterate (n : Nat) (w : Words) : advanceN n w = advance^[n] w := by
  induction n generalizing w with
  | zero => rfl
  | succ n ih => simp [advanceN, ih]

theorem advanceN_add (m n : Nat) (w : Words) : advanceN (m + n) w = advanceN n (advanceN m w) := by
  simp [advanceN_eq_iterate, Nat.add_comm m n, Function.iterate_add_apply]

theorem advanceN_succ (n : Nat) (w : Words) : advanceN (n + 1) w = advance (advanceN n w) := advanceN_add n 1 w

/-! ### The rejection loop -/

/-- The loop answers the first acceptance within its fuel; `next` is the words' way through one rejected iteration. -/
theorem iterate_accepts {α : Type} {body : Words → Iteration α} {next : Words → Words} {r : α} {w' : Words}
    (n fuel : Nat) (w : Words) (hn : n < fuel)
    (hrej : ∀ j < n, body (next^[j] w) = .reject (next^[j + 1] w)) (hacc : body (next^[n] w) = .accept r w') :
    iterate body fuel w = .accept r w' := by
  induction n generalizing w fuel with
  | zero =>
    obtain ⟨fuel, rfl⟩ : ∃ k, fuel = k + 1 := ⟨fuel - 1, by omega⟩
    have h0 : body w = .accept r w' := hacc
    simp [iterate, h0]
  | succ n ih =>
    obtain ⟨fuel, rfl⟩ : ∃ k, fuel = k + 1 := ⟨fuel - 1, by omega⟩
    have h0 : body w = .reject (next w) := hrej 0 (by omega)
    simp only [iterate, h0]
    exact ih fuel (next w) (by omega) (fun j hj => hrej (j + 1) (by omega)) hacc

/-- The loop is out of fuel exactly where every iteration within it rejected. -/
theorem iterate_rejects {α : Type} {body : Words → Iteration α} {next : Words → Words} (fuel : Nat) (w : Words)
    (hrej : ∀ j < fuel, body (next^[j] w) = .reject (next^[j + 1] w)) :
    iterate body fuel w = .reject (next^[fuel] w) := by
  induction fuel generalizing w with
  | zero => rfl
  | succ fuel ih =>
    have h0 : body w = .reject (next w) := hrej 0 (by omega)
    simp only [iterate, h0]
    exact ih (next w) (fun j hj => hrej (j + 1) (by omega))

/-- Whatever holds of the words and is kept by each iteration holds of the words the loop leaves. -/
theorem iterate_keeps {α : Type} {body : Words → Iteration α} (P : Words → Prop)
    (hacc : ∀ w r w', P w → body w = .accept r w' → P w') (hrej : ∀ w w', P w → body w = .reject w' → P w')
    (fuel : Nat) (w : Words) (hw : P w) :
    (∀ r w', iterate body fuel w = .accept r w' → P w') ∧ ∀ w', iterate body fuel w = .reject w' → P w' := by
  induction fuel generalizing w with
  | zero =>
    refine ⟨fun r w' e => by simp [iterate] at e, fun w' e => ?_⟩
    cases e
    exact hw
  | succ fuel ih =>
    cases h : body w with
    | accept r w1 =>
      simp only [iterate, h]
      exact ⟨fun r' w' e => by cases e; exact hacc w r _ hw h, fun w' e => by cases e⟩
    | reject w1 =>
      simp only [iterate, h]
      exact ih w1 (hrej w w1 hw h)

/-- Running a loop does one of two things: the command finishes with the accepted result and words, or it stays in
progress with the words reached. -/
theorem State.runLoop_cases {α : Type} (s : State) (c : LoopCommand) (body : Words → Iteration α)
    (finish : State → α → State) (w : Words) :
    (∃ r w', iterate body Config.loopFuel w = .accept r w' ∧ s.runLoop c body finish w = finish (s.setWords w') r) ∨
      ∃ w', iterate body Config.loopFuel w = .reject w' ∧ s.runLoop c body finish w = s.stayBusy c w' := by
  unfold State.runLoop
  cases h : iterate body Config.loopFuel w with
  | accept r w' => exact .inl ⟨r, w', rfl, rfl⟩
  | reject w' => exact .inr ⟨w', rfl, rfl⟩

end Sys2Proof.Machine
end

