-- ==== Sys2Proof/Laws/Exec.lean ====
section
/-! SUPPORT. What a command and a step can do: one inversion lemma for `exec`, one for `resume` and one for `step`, and
one for a loop over as many steps as it takes, which later proofs cite instead of unfolding the meanings. -/

namespace Sys2Proof.Machine

/-! ### Finishing a command -/

theorem State.respondOk_setWords (s : State) (w : Words) (res : U64) :
    (s.setWords w).respondOk res = s.completed w res := rfl

theorem State.respondF32_setWords (s : State) (w : Words) (v : FloatValue) :
    (s.setWords w).respondF32 v =
      s.completedFloat w (f32Result (f32Bits (nanFrom32 (Config.nanDraw32 s.freeIndex)) v)) := rfl

theorem State.respondF64_setWords (s : State) (w : Words) (v : FloatValue) :
    (s.setWords w).respondF64 v =
      s.completedFloat w (f64Result (f64Bits (nanFrom64 (Config.nanDraw64 s.freeIndex)) v)) := rfl

/-- A one-draw command on a loaded block finishes from the scrambled words, with the words advanced once. -/
theorem State.withDraw_of_some {s : State} {w : Words} (h : s.words? = some w) (finish : State → U64 → State) :
    s.withDraw finish = finish (s.setWords (advance w)) (scramble s.params.variant w) := by
  simp [State.withDraw, State.withWords_of_some h, draw]

theorem State.withDraw_of_none {s : State} (h : s.words? = none) (finish : State → U64 → State) :
    s.withDraw finish = s.raise .unseeded := by
  simp [State.withDraw, State.withWords_of_none h]

/-! ### What a body can leave -/

/-- What a loop leaves: the command completed with an integer or a float result, or it stays in progress. -/
def State.LoopLeaves (s t : State) : Prop :=
  (∃ w res, t = s.completed w res) ∨ (∃ w res, t = s.completedFloat w res) ∨ ∃ c w, t = s.stayBusy c w

/-- What the body of a command leaves on an unfaulted block: a fault, a result alone, a word written, or what a loop can
leave. -/
def State.BodyLeaves (s t : State) : Prop :=
  (∃ c : Cause, t = s.faulted c.code) ∨ (∃ res, t = s.respondOk res) ∨
    (∃ i v, t = (s.setWord i v).respondOk 0) ∨ s.LoopLeaves t

theorem runBelow_leaves (range : U64) (w : Words) (s : State) : s.LoopLeaves (runBelow range w s) := by
  rcases s.runLoop_cases (.below range) (reduceIteration s.params.variant range) State.respondOk w with
    ⟨r, w', _, h⟩ | ⟨w', _, h⟩
  · exact .inl ⟨w', r, h⟩
  · exact .inr (.inr ⟨_, w', h⟩)

theorem runIntInRange_leaves (lower upper : Int) (w : Words) (s : State) :
    s.LoopLeaves (runIntInRange lower upper w s) := by
  rcases s.runLoop_cases (.intInRange lower upper) (reduceIteration s.params.variant (intRange lower upper))
      (fun s r => s.respondOk (i32Result (lower + r.toNat))) w with ⟨r, w', _, h⟩ | ⟨w', _, h⟩
  · exact .inl ⟨w', i32Result (lower + r.toNat), h⟩
  · exact .inr (.inr ⟨_, w', h⟩)

theorem runFloatGaussian_leaves (mu sigma : F32) (w : Words) (s : State) :
    s.LoopLeaves (runFloatGaussian mu sigma w s) := by
  unfold runFloatGaussian
  rcases s.runLoop_cases (.floatGaussian mu sigma) _ State.respondF32 w with ⟨r, w', _, h⟩ | ⟨w', _, h⟩
  · exact .inr (.inl ⟨w', _, h.trans (s.respondF32_setWords w' r)⟩)
  · exact .inr (.inr ⟨_, w', h⟩)

theorem runDoubleGaussian_leaves (mu sigma : F64) (w : Words) (s : State) :
    s.LoopLeaves (runDoubleGaussian mu sigma w s) := by
  unfold runDoubleGaussian
  rcases s.runLoop_cases (.doubleGaussian mu sigma) _ State.respondF64 w with ⟨r, w', _, h⟩ | ⟨w', _, h⟩
  · exact .inr (.inl ⟨w', _, h.trans (s.respondF64_setWords w' r)⟩)
  · exact .inr (.inr ⟨_, w', h⟩)

/-- Going on with the command in progress leaves what a loop can leave. -/
theorem resume_leaves (p : InProgress) (s : State) : s.LoopLeaves (resume p s) := by
  cases p with
  | mk cmd words =>
    cases cmd with
    | below range => exact runBelow_leaves range words s
    | intInRange lower upper => exact runIntInRange_leaves lower upper words s
    | floatGaussian mu sigma => exact runFloatGaussian_leaves mu sigma words s
    | doubleGaussian mu sigma => exact runDoubleGaussian_leaves mu sigma words s

/-- A generation command on an unfaulted block faults UNSEEDED or leaves what its body leaves. -/
theorem withWords_leaves {s : State} (hf : s.fault = false) {body : Words → State}
    (hb : ∀ w, s.words? = some w → s.LoopLeaves (body w)) : s.BodyLeaves (s.withWords body) := by
  cases h : s.words? with
  | none => exact .inl ⟨.unseeded, by rw [State.withWords_of_none h, State.raise_eq_faulted hf]⟩
  | some w => exact .inr (.inr (.inr (by rw [State.withWords_of_some h]; exact hb w h)))

/-- EXEC'S INVERSION: while FAULT = 1 a command but READ_STATUS is ignored; else its body leaves one of the things
`BodyLeaves` lists. -/
theorem exec_cases {i : Instr} {s t : State} (h : exec i s = .next t) :
    (s.fault = true ∧ i ≠ .readStatus ∧ t = s.ignored) ∨
      (i = .readStatus ∧ t = s.respondOk (statusWord s)) ∨ (s.fault = false ∧ s.BodyLeaves t) := by
  by_cases hs : i = .readStatus
  · subst hs
    cases h
    exact .inr (.inl ⟨rfl, rfl⟩)
  cases hf : s.fault with
  | true =>
    refine .inl ⟨rfl, hs, ?_⟩
    cases i <;> first | exact absurd rfl hs | (injection h with h; rw [← h]; exact State.unlessFaulted_of_faulted hf _)
  | false =>
    refine .inr (.inr ⟨rfl, ?_⟩)
    have oneDraw : ∀ finish : State → U64 → State, (∀ w x, s.LoopLeaves (finish (s.setWords w) x)) →
        s.BodyLeaves (s.withDraw finish) := fun finish hfin => withWords_leaves hf fun w _ => hfin _ _
    have faults : ∀ c : Cause, s.BodyLeaves (s.raise c) := fun c => .inl ⟨c, State.raise_eq_faulted hf c⟩
    cases i with
    | readStatus => exact absurd rfl hs
    | seed value =>
      injection h with h
      rw [← h, State.unlessFaulted_of_unfaulted hf]
      exact .inr (.inr (.inr (.inl ⟨_, 0, rfl⟩)))
    | nextU64 =>
      injection h with h
      rw [← h, State.unlessFaulted_of_unfaulted hf]
      exact oneDraw _ fun w x => .inl ⟨w, x, rfl⟩
    | below range =>
      injection h with h
      rw [← h, State.unlessFaulted_of_unfaulted hf]
      split
      · exact faults _
      · exact withWords_leaves hf fun w _ => runBelow_leaves range w s
    | intInRange lower upper =>
      injection h with h
      rw [← h, State.unlessFaulted_of_unfaulted hf]
      split
      · exact faults _
      · exact withWords_leaves hf fun w _ => runIntInRange_leaves lower upper w s
    | float01 =>
      injection h with h
      rw [← h, State.unlessFaulted_of_unfaulted hf]
      exact oneDraw _ fun w x => .inr (.inl ⟨w, _, s.respondF32_setWords w _⟩)
    | double01 =>
      injection h with h
      rw [← h, State.unlessFaulted_of_unfaulted hf]
      exact oneDraw _ fun w x => .inr (.inl ⟨w, _, s.respondF64_setWords w _⟩)
    | floatInRange lower upper =>
      injection h with h
      rw [← h, State.unlessFaulted_of_unfaulted hf]
      exact oneDraw _ fun w x => .inr (.inl ⟨w, _, s.respondF32_setWords w _⟩)
    | doubleInRange lower upper =>
      injection h with h
      rw [← h, State.unlessFaulted_of_unfaulted hf]
      exact oneDraw _ fun w x => .inr (.inl ⟨w, _, s.respondF64_setWords w _⟩)
    | floatGaussian mu sigma =>
      injection h with h
      rw [← h, State.unlessFaulted_of_unfaulted hf]
      exact withWords_leaves hf fun w _ => runFloatGaussian_leaves mu sigma w s
    | doubleGaussian mu sigma =>
      injection h with h
      rw [← h, State.unlessFaulted_of_unfaulted hf]
      exact withWords_leaves hf fun w _ => runDoubleGaussian_leaves mu sigma w s
    | readState index =>
      injection h with h
      rw [← h, State.unlessFaulted_of_unfaulted hf]
      split
      · exact faults _
      · split
        · exact faults _
        · exact .inr (.inl ⟨_, rfl⟩)
    | writeState index value =>
      injection h with h
      rw [← h, State.unlessFaulted_of_unfaulted hf]
      split
      · exact faults _
      · exact .inr (.inr (.inl ⟨_, _, rfl⟩))

/-- Every command answers a next state: the block's faults are next states (R241). -/
theorem exec_next (i : Instr) (s : State) : ∃ t, exec i s = .next t := by
  cases i <;> exact ⟨_, rfl⟩

theorem State.with_own_host {s : State} {l : List HostMove} (h : s.host = l) : { s with host := l } = s := by
  subst h; rfl

/-- STEP'S INVERSION: the block waits, is reset, presents the host's command, or goes on with the command in progress;
all but the last two only take the host's move. -/
theorem step_cases {s t : State} (h : step s = .next t) :
    (∃ rest, (s.host = rest ∨ s.host = .wait :: rest) ∧ s.inProgress = none ∧ t = idle { s with host := rest }) ∨
      (∃ rest, s.host = .reset :: rest ∧ t = resetBlock { s with host := rest }) ∨
      (∃ c rest, s.inProgress = none ∧ s.host = .command c :: rest ∧ runCommand c { s with host := rest } = .next t) ∨
      ∃ p rest, s.inProgress = some p ∧ (s.host = rest ∨ s.host = .wait :: rest) ∧ s.host.head? ≠ some .reset ∧
        t = resume p { s with host := rest } := by
  unfold step at h
  cases hp : s.inProgress with
  | none =>
    simp only [hp, stepReady] at h
    split at h
    next hh => exact .inl ⟨[], .inl hh, rfl, by injection h with h; rw [← h, ← hp, State.with_own_host hh]⟩
    next rest hh => exact .inl ⟨rest, .inr hh, rfl, by injection h with h; exact h.symm⟩
    next rest hh => exact .inr (.inl ⟨rest, hh, by injection h with h; exact h.symm⟩)
    next c rest hh => exact .inr (.inr (.inl ⟨c, rest, rfl, hh, h⟩))
  | some p =>
    simp only [hp, stepBusy] at h
    split at h
    next hh => exact .inr (.inr (.inr ⟨p, [], rfl, .inl hh, by simp [hh],
      by injection h with h; rw [← h, ← hp, State.with_own_host hh]⟩))
    next rest hh => exact .inr (.inr (.inr ⟨p, rest, rfl, .inr hh, by simp [hh], by injection h with h; exact h.symm⟩))
    next rest hh => exact .inr (.inl ⟨rest, hh, by injection h with h; exact h.symm⟩)
    next c rest hh =>
      exact .inr (.inr (.inr ⟨p, s.host, rfl, .inl rfl, by simp [hh], by injection h with h; exact h.symm⟩))

/-- A presented command either decodes and runs, or is illegal and is ignored or faults (R65, R243). -/
theorem runCommand_cases {c : Command} {s t : State} (h : runCommand c s = .next t) :
    (∃ i, decode c = .ok i ∧ exec i s = .next t) ∨
      ((∃ e, decode c = .error e) ∧
        (s.fault = true ∧ t = s.ignored ∨ s.fault = false ∧ t = s.faulted Cause.illegalCommand.code)) := by
  unfold runCommand at h
  split at h
  next i hd => exact .inl ⟨i, hd, h⟩
  next e hd =>
    refine .inr ⟨⟨e, hd⟩, ?_⟩
    injection h with h
    cases hf : s.fault with
    | true => exact .inl ⟨rfl, by rw [← h, State.unlessFaulted_of_faulted hf]⟩
    | false => exact .inr ⟨rfl, by rw [← h, State.unlessFaulted_of_unfaulted hf, State.raise_eq_faulted hf]⟩

/-! ### Runs -/

theorem run_succ {k : Nat} {s t : State} (h : step s = .next t) : run (k + 1) s = run k t := by
  have h' : Sys2Proof.core.step s = .next t := h
  simp only [run, Host.Core.run, h']
  rfl

theorem advanceN_iterate (d n : Nat) (w : Words) : (advanceN d)^[n] w = advanceN (d * n) w := by
  induction n generalizing w with
  | zero => rfl
  | succ n ih => rw [Function.iterate_succ_apply, ih, ← advanceN_add, Nat.mul_succ, Nat.add_comm]

/-- A loop command with the host waiting finishes with its first acceptance, number `n`, after some number of steps
(R276). `next` is the words' way through one rejected iteration; the body and the finish read nothing that staying in
progress changes. -/
theorem runLoop_finishes {α : Type} {c : LoopCommand} {finish : State → α → State}
    {body : State → Words → Iteration α} {next : Words → Words} {r : α} {w' : Words}
    (hresume : ∀ w s, resume ⟨c, w⟩ s = s.runLoop c (body s) finish w)
    (hbody : ∀ (s : State) w, body (s.stayBusy c w) = body s)
    (hfinish : ∀ (s : State) w w' r, finish ((s.stayBusy c w).setWords w') r = finish (s.setWords w') r)
    (n : Nat) (s : State) (w : Words) (hhost : s.host = [])
    (hrej : ∀ j < n, body s (next^[j] w) = .reject (next^[j + 1] w)) (hacc : body s (next^[n] w) = .accept r w') :
    ∃ k, run k (s.runLoop c (body s) finish w) = .next (finish (s.setWords w') r) := by
  induction n using Nat.strong_induction_on generalizing s w with
  | _ n ih =>
    by_cases hn : n < Config.loopFuel
    · refine ⟨0, ?_⟩
      simp only [State.runLoop, iterate_accepts n Config.loopFuel w hn hrej hacc]
      rfl
    · have hpos : 0 < Config.loopFuel := by decide
      have hout := iterate_rejects Config.loopFuel w fun j hj => hrej j (by omega)
      generalize hF : Config.loopFuel = fuel at *
      have hbusy : s.runLoop c (body s) finish w = s.stayBusy c (next^[fuel] w) := by
        simp only [State.runLoop, hF, hout]
      have hstep : step (s.stayBusy c (next^[fuel] w)) =
          .next (resume ⟨c, next^[fuel] w⟩ (s.stayBusy c (next^[fuel] w))) := by
        have hh : (s.stayBusy c (next^[fuel] w)).host = [] := hhost
        show stepBusy ⟨c, next^[fuel] w⟩ _ = _
        simp only [stepBusy, hh]
      obtain ⟨k, hk⟩ := ih (n - fuel) (by omega) (s.stayBusy c (next^[fuel] w)) (next^[fuel] w) hhost
        (fun j hj => by
          rw [hbody, ← Function.iterate_add_apply, ← Function.iterate_add_apply, hrej (j + fuel) (by omega),
            Nat.add_right_comm])
        (by rw [hbody, ← Function.iterate_add_apply, Nat.sub_add_cancel (by omega)]; exact hacc)
      exact ⟨k + 1, by rw [hbusy, run_succ hstep, hresume, hk, hfinish]⟩

end Sys2Proof.Machine
end

