-- ==== Sys2Proof/Laws/Float.lean ====
section
/-! SUPPORT. What each float helper computes, said once: the binary logarithm, the rounded quotient, the square root. -/

namespace Sys2Proof.Machine

/-! ### floorLog2 -/

/-- `2^l <= num/den` for a difference `l`, as the shifts compare it. -/
theorem shift_le_iff (num den : Nat) (l : Int) (hd : 0 < den) :
    den <<< l.toNat ≤ num <<< (-l).toNat ↔ (2 : ℚ) ^ l ≤ (num : ℚ) / den := by
  have hd' : (0 : ℚ) < den := by exact_mod_cast hd
  rw [le_div_iff₀ hd', Nat.shiftLeft_eq, Nat.shiftLeft_eq]
  rcases l with k | k
  · simp only [Int.ofNat_eq_natCast, Int.toNat_natCast, Int.toNat_neg_natCast, pow_zero, mul_one, zpow_natCast]
    rw [mul_comm ((2 : ℚ) ^ k)]
    exact_mod_cast Iff.rfl
  · have h1 : (Int.negSucc k).toNat = 0 := rfl
    have h2 : (-Int.negSucc k).toNat = k + 1 := rfl
    rw [h1, h2, zpow_negSucc, inv_mul_le_iff₀ (by positivity), Nat.pow_zero, Nat.mul_one, Nat.mul_comm num]
    exact_mod_cast Iff.rfl

/-- `floorLog2` is the floor of the logarithm. -/
theorem floorLog2_spec {num den : Nat} (hn : 0 < num) (hd : 0 < den) :
    (2 : ℚ) ^ floorLog2 num den ≤ (num : ℚ) / den ∧ (num : ℚ) / den < 2 ^ (floorLog2 num den + 1) := by
  have hd' : (0 : ℚ) < den := by exact_mod_cast hd
  have n1 : (2 : ℚ) ^ num.log2 ≤ num := by exact_mod_cast Nat.log2_self_le hn.ne'
  have n2 : (num : ℚ) < 2 ^ (num.log2 + 1) := by exact_mod_cast Nat.lt_log2_self
  have d1 : (2 : ℚ) ^ den.log2 ≤ den := by exact_mod_cast Nat.log2_self_le hd.ne'
  have d2 : (den : ℚ) < 2 ^ (den.log2 + 1) := by exact_mod_cast Nat.lt_log2_self
  have low : (2 : ℚ) ^ ((num.log2 : Int) - den.log2 - 1) ≤ (num : ℚ) / den := by
    rw [le_div_iff₀ hd']
    have : (2 : ℚ) ^ ((num.log2 : Int) - den.log2 - 1) * 2 ^ (den.log2 + 1) = 2 ^ num.log2 := by
      rw [← zpow_natCast (2 : ℚ) (den.log2 + 1), ← zpow_natCast (2 : ℚ) num.log2, ← zpow_add₀ two_ne_zero]
      congr 1
      push_cast
      ring
    calc (2 : ℚ) ^ ((num.log2 : Int) - den.log2 - 1) * den
        ≤ (2 : ℚ) ^ ((num.log2 : Int) - den.log2 - 1) * 2 ^ (den.log2 + 1) := by gcongr
      _ = 2 ^ num.log2 := this
      _ ≤ num := n1
  have high : (num : ℚ) / den < 2 ^ ((num.log2 : Int) - den.log2 + 1) := by
    rw [div_lt_iff₀ hd']
    have : (2 : ℚ) ^ ((num.log2 : Int) - den.log2 + 1) * 2 ^ den.log2 = 2 ^ (num.log2 + 1) := by
      rw [← zpow_natCast (2 : ℚ) den.log2, ← zpow_natCast (2 : ℚ) (num.log2 + 1), ← zpow_add₀ two_ne_zero]
      congr 1
      push_cast
      ring
    calc (num : ℚ) < 2 ^ (num.log2 + 1) := n2
      _ = (2 : ℚ) ^ ((num.log2 : Int) - den.log2 + 1) * 2 ^ den.log2 := this.symm
      _ ≤ (2 : ℚ) ^ ((num.log2 : Int) - den.log2 + 1) * den := by gcongr
  unfold floorLog2
  simp only
  split
  next h => exact ⟨(shift_le_iff num den _ hd).1 h, high⟩
  next h =>
    refine ⟨low, ?_⟩
    rw [sub_add_cancel]
    exact lt_of_not_ge fun h' => h ((shift_le_iff num den _ hd).2 h')

/-! ### divNearestEven -/

/-- The rounded quotient is at most half a unit away, and even where it is exactly half a unit away. -/
theorem divNearestEven_spec (num : Nat) {den : Nat} (hd : 0 < den) :
    2 * num ≤ 2 * (divNearestEven num den * den) + den ∧ 2 * (divNearestEven num den * den) ≤ 2 * num + den ∧
      (2 * num = 2 * (divNearestEven num den * den) + den ∨ 2 * (divNearestEven num den * den) = 2 * num + den →
        divNearestEven num den % 2 = 0) := by
  have hdiv := Nat.div_add_mod num den
  have hmod := Nat.mod_lt num hd
  rw [mul_comm den] at hdiv
  unfold divNearestEven
  simp only
  generalize num / den = q at *
  generalize num % den = r at *
  split
  next h =>
    rw [Nat.add_mul, Nat.one_mul]
    generalize q * den = p at *
    omega
  next h =>
    generalize q * den = p at *
    omega

/-! ### isqrt -/

/-- The bit-by-bit root: if the root so far is right to within `2^i`, the rest of the bits make it the floor. -/
theorem isqrtBits_spec (n i root : Nat) (hlo : root * root ≤ n) (hhi : n < (root + 2 ^ i) * (root + 2 ^ i)) :
    isqrtBits n i root * isqrtBits n i root ≤ n ∧ n < (isqrtBits n i root + 1) * (isqrtBits n i root + 1) := by
  induction i generalizing root with
  | zero => exact ⟨hlo, hhi⟩
  | succ i ih =>
    unfold isqrtBits
    split
    next h => exact ih _ h (by rwa [Nat.add_assoc, ← Nat.two_mul, ← Nat.pow_succ'])
    next h => exact ih _ hlo (Nat.lt_of_not_le h)

/-- `isqrt` is the floor of the square root. -/
theorem isqrt_spec (n : Nat) : isqrt n * isqrt n ≤ n ∧ n < (isqrt n + 1) * (isqrt n + 1) := by
  refine isqrtBits_spec n _ 0 (by omega) ?_
  rw [Nat.zero_add, ← Nat.pow_add]
  calc n < 2 ^ (n.log2 + 1) := Nat.lt_log2_self
    _ ≤ _ := Nat.pow_le_pow_right (by omega) (by omega)

/-! ### Zeros -/

@[simp] theorem roundTo_zero (f : FloatFormat) (neg : Bool) (den : Nat) (exp : Int) :
    roundTo f neg 0 den exp = .finite neg 0 f.minExp := rfl

end Sys2Proof.Machine
end

