-- ==== Sys2Proof/Laws/PerInstr.lean ====
section
/-! SUPPORT. Statements made per constructor of `Instr`: the encoder writes a legal opcode and leaves every ignored port
bit 0 (spec/30_encoding.md R61, R64). -/

namespace Sys2Proof.Laws.EncodesCanonically

/-- The encoding of `i` is its own canonical form, with an opcode of the map (R61). -/
def Statement (i : Instr) : Prop :=
  (encode i).canonical = encode i ∧ 1 ≤ (encode i).cmd ∧ (encode i).cmd ≤ 0x0D

/-- A zero-extended 32-bit value has no bits above 31. -/
theorem and_low32 (y : BitVec 32) : y.setWidth 64 &&& 0xffffffff = y.setWidth 64 := by
  apply BitVec.eq_of_toNat_eq
  rw [BitVec.toNat_and]
  exact (Nat.and_two_pow_sub_one_eq_mod _ 32).trans (Nat.mod_eq_of_lt (by
    rw [BitVec.toNat_setWidth_of_le (by omega)]; exact y.isLt))

/-- Masking with all ones changes nothing. -/
theorem and_all (a : U64) : a &&& BitVec.allOnes 64 = a := BitVec.and_allOnes

/-- A port whose bits are all ignored is written 0. -/
theorem and_none (a : U64) : a &&& 0 = 0 := BitVec.and_zero

theorem seed (value : U64) : Statement (.seed value) :=
  ⟨congrArg₂ (Command.mk 0x01) (and_all value) (and_none 0), by simp [encode], by simp [encode]⟩

theorem nextU64 : Statement .nextU64 := by unfold Statement; decide

theorem below (range : U64) : Statement (.below range) :=
  ⟨congrArg₂ (Command.mk 0x03) (and_all range) (and_none 0), by simp [encode], by simp [encode]⟩

theorem intInRange (lower upper : Int) : Statement (.intInRange lower upper) :=
  ⟨congrArg₂ (Command.mk 0x04) (and_low32 _) (and_low32 _), by simp [encode], by simp [encode]⟩

theorem float01 : Statement .float01 := by unfold Statement; decide

theorem double01 : Statement .double01 := by unfold Statement; decide

theorem floatInRange (lower upper : F32) : Statement (.floatInRange lower upper) :=
  ⟨congrArg₂ (Command.mk 0x07) (and_low32 _) (and_low32 _), by simp [encode], by simp [encode]⟩

theorem doubleInRange (lower upper : F64) : Statement (.doubleInRange lower upper) :=
  ⟨congrArg₂ (Command.mk 0x08) (and_all _) (and_all _), by simp [encode], by simp [encode]⟩

theorem floatGaussian (mu sigma : F32) : Statement (.floatGaussian mu sigma) :=
  ⟨congrArg₂ (Command.mk 0x09) (and_low32 _) (and_low32 _), by simp [encode], by simp [encode]⟩

theorem doubleGaussian (mu sigma : F64) : Statement (.doubleGaussian mu sigma) :=
  ⟨congrArg₂ (Command.mk 0x0A) (and_all _) (and_all _), by simp [encode], by simp [encode]⟩

theorem readState (index : U64) : Statement (.readState index) :=
  ⟨congrArg₂ (Command.mk 0x0B) (and_all index) (and_none 0), by simp [encode], by simp [encode]⟩

theorem writeState (index value : U64) : Statement (.writeState index value) :=
  ⟨congrArg₂ (Command.mk 0x0C) (and_all _) (and_all _), by simp [encode], by simp [encode]⟩

theorem readStatus : Statement .readStatus := by unfold Statement; decide

end Sys2Proof.Laws.EncodesCanonically
end

