-- ==== Sys2Proof/Tests/Slice0.lean ====
section
/-! SUPPORT. Tests. Expected values come from spec/95_test_vectors.md (V..., P...) or from the examples of the rule
named. -/

namespace Sys2Proof.Tests

open Sys2Proof Sys2Proof.Machine

/-! ### Small states -/

/-- A block whose four words hold `w`, for an instance of the given variant. -/
def loaded (v : Variant) (w : Words) : State :=
  { State.reset.setWords w with params := { Config.params with variant := v } }

/-- A block right after reset, of the given variant. -/
def fresh (v : Variant) : State := { State.reset with params := { Config.params with variant := v } }

/-- The words after `SEED 0` (V2.1.5). -/
def seed0 : Words := ⟨0xe220a8397b1dcdaf, 0xa706dd2f4d197e6f, 0x238275bc38fcbe91, 0x2130748aaac80268⟩

/-- The words after `SEED 42` (V2.1.7). -/
def seed42 : Words := ⟨0xbdd732262feb6e95, 0x57e1faba65107204, 0x6310bf04d8207f46, 0xc16129ecd0dc5b93⟩

/-- The hand-built state of P3. -/
def handBuilt : Words := ⟨0, 0, 0, 0xffffffffffffffff⟩

/-- The response of an outcome. -/
def responseOf : Host.Outcome State Fault Refusal → Option Response
  | .next s => s.response
  | .fault _ => none
  | .refused _ => none

/-- The loaded words of an outcome. -/
def wordsOf : Host.Outcome State Fault Refusal → Option Words
  | .next s => s.words?
  | .fault _ => none
  | .refused _ => none

/-- The accepted value's binary32 encoding of an iteration. -/
def acceptedF32 : Iteration FloatValue → Option F32
  | .accept v _ => some (f32Bits 0 v)
  | .reject _ => none

/-- The accepted value's binary64 encoding of an iteration. -/
def acceptedF64 : Iteration FloatValue → Option F64
  | .accept v _ => some (f64Bits 0 v)
  | .reject _ => none

/-! ### Well-formedness refuses an operand that is no I32 -/

theorem test_wellFormed_refuses_wide_lower : (Instr.intInRange (-2147483649) 0).wellFormed = false := by decide

theorem test_wellFormed_refuses_wide_upper : (Instr.intInRange 0 2147483648).wellFormed = false := by decide

theorem test_wellFormed_accepts_extreme_bounds : (Instr.intInRange (-2147483648) 2147483647).wellFormed = true := by
  decide

/-! ### Decoding: each row's word from R61 and the programs of section 3 -/

theorem test_decode_seed : decode ⟨0x01, 0x000000000000002a, 0⟩ = .ok (.seed 42) := by decide

theorem test_decode_nextU64 : decode ⟨0x02, 0, 0⟩ = .ok .nextU64 := by decide

theorem test_decode_below : decode ⟨0x03, 0x0000000000000006, 0⟩ = .ok (.below 6) := by decide

theorem test_decode_intInRange :
    decode ⟨0x04, 0x00000000fffffffd, 0x0000000000000003⟩ = .ok (.intInRange (-3) 3) := by decide

theorem test_decode_float01 : decode ⟨0x05, 0, 0⟩ = .ok .float01 := by decide

theorem test_decode_double01 : decode ⟨0x06, 0, 0⟩ = .ok .double01 := by decide

theorem test_decode_floatInRange :
    decode ⟨0x07, 0x3f800000, 0xffffffff3f800001⟩ = .ok (.floatInRange 0x3f800000 0x3f800001) := by decide

theorem test_decode_doubleInRange : decode ⟨0x08, 0x3ff0000000000000, 0x3ff0000000000001⟩ =
    .ok (.doubleInRange 0x3ff0000000000000 0x3ff0000000000001) := by decide

theorem test_decode_floatGaussian :
    decode ⟨0x09, 0x0000000000000000, 0x000000003f800000⟩ = .ok (.floatGaussian 0 0x3f800000) := by decide

theorem test_decode_doubleGaussian : decode ⟨0x0A, 0x0000000000000000, 0x3ff0000000000000⟩ =
    .ok (.doubleGaussian 0 0x3ff0000000000000) := by decide

theorem test_decode_readState : decode ⟨0x0B, 3, 0⟩ = .ok (.readState 3) := by decide

theorem test_decode_writeState :
    decode ⟨0x0C, 3, 0xffffffffffffffff⟩ = .ok (.writeState 3 0xffffffffffffffff) := by decide

theorem test_decode_readStatus : decode ⟨0x0D, 0, 0⟩ = .ok .readStatus := by decide

/-- V2.6.5: 0x00, 0x0E and 0xFF are illegal. -/
theorem test_decode_illegal : decode ⟨0x00, 0, 0⟩ = .error (.illegalCommand 0x00) ∧
    decode ⟨0x0E, 0, 0⟩ = .error (.illegalCommand 0x0E) ∧ decode ⟨0xFF, 0, 0⟩ = .error (.illegalCommand 0xFF) := by
  decide

/-- opcode_table.json: CMD is bits 7:0; with the 8 bits of the row alone the ports are 0. -/
theorem test_table_word : decodeTableWord 8 0x0B = some (.readState 0) ∧
    decodeTableWord 136 (0x0C + 3 * 2 ^ 8 + 7 * 2 ^ 72) = some (.writeState 3 7) ∧ decodeTableWord 8 0x0E = none := by
  decide

/-! ### Pure functions -/

/-- V2.1.1 to V2.1.4. -/
theorem test_splitmix : splitmix 0 = 0xe220a8397b1dcdaf ∧ splitmix 1 = 0x910a2dec89025cc1 ∧
    splitmix 0xffffffffffffffff = 0xe4d971771b652c20 ∧ splitmix 0x61c8864680b583eb = 0 := by decide

/-- V2.2.8 and V2.2.9. -/
theorem test_core_step : advance ⟨1, 2, 3, 4⟩ = ⟨7, 0, 0x40002, 0x0000c00000000000⟩ ∧
    scramble .plus ⟨1, 2, 3, 4⟩ = 5 ∧ scramble .plusPlus ⟨1, 2, 3, 4⟩ = 0x0000000002800001 ∧
    scramble .plusPlus ⟨0xffffffffffffffff, 0xffffffffffffffff, 0xffffffffffffffff, 0xffffffffffffffff⟩ =
      0xffffffffff7ffffe := by decide

/-- R109, V2.2.11: a state on which the variants agree. -/
theorem test_variants_can_agree : scramble .plus ⟨0, 5, 7, 0⟩ = 0 ∧ scramble .plusPlus ⟨0, 5, 7, 0⟩ = 0 := by decide

/-- V2.3.4 to V2.3.6: the acceptance test at the edges of three ranges. -/
theorem test_accepts : accepts 3 0xffffffffffffffff = false ∧ accepts 3 0xfffffffffffffffe = true ∧
    accepts 10 0xfffffffffffffffa = false ∧ accepts 10 0xfffffffffffffff9 = true ∧
    accepts 0x8000000000000001 0x8000000000000000 = true ∧ accepts 0x8000000000000001 0x8000000000000001 = false := by
  decide

/-- V2.4.3 to V2.4.5. -/
theorem test_uniform_corners : f32Bits 0 (u24 0xffffffffffffffff) = 0x3f7fffff ∧
    f64Bits 0 (u53 0xffffffffffffffff) = 0x3fefffffffffffff ∧ f32Bits 0 (u24 0xffffffffff) = 0 ∧
    f32Bits 0 (u24 0x10000000000) = 0x33800000 ∧ f64Bits 0 (u53 0x800) = 0x3ca0000000000000 := by decide +kernel

/-! ### Commands -/

/-- V2.1.5. -/
theorem test_seed : wordsOf (exec (.seed 0) (fresh .plus)) = some seed0 := by decide

/-- V2.1.10, the alternative SEED_CHAIN. -/
theorem test_seed_counter :
    wordsOf (exec (.seed 0) { fresh .plus with params := { Config.params with seedChain := .counter } }) =
      some ⟨0xe220a8397b1dcdaf, 0x6e789e6aa1b965f4, 0x06c45d188009454f, 0xf88bb8a8724c81ec⟩ := by decide

/-- V2.2.1, V2.2.2, V2.2.3: the first draw of each variant and the words after it. -/
theorem test_nextU64 : responseOf (exec .nextU64 (loaded .plus seed0)) = some (.ok 0x03511cc425e5d017) ∧
    responseOf (exec .nextU64 (loaded .plusPlus seed0)) = some (.ok 0x44339b21869f763d) ∧
    wordsOf (exec .nextU64 (loaded .plusPlus seed0)) =
      some ⟨0x6416019c9cccb1a8, 0x66a400aa0ef80d51, 0x7bfc47b7bf3f733e, 0x2f80f0c6d534bcfa⟩ := by decide

/-- V2.3.7: a rejected draw, then an accepted one. -/
theorem test_below : responseOf (exec (.below 3) (loaded .plus handBuilt)) = some (.ok 2) ∧
    responseOf (exec (.below 3) (loaded .plusPlus handBuilt)) = some (.ok 0) ∧
    wordsOf (exec (.below 3) (loaded .plusPlus handBuilt)) =
      some ⟨0, 0xffffffffffffffff, 0xffffffffffffffff, 0xffffffffffffffff⟩ := by
  refine ⟨?_, ?_, ?_⟩ <;> rfl

/-- V2.3.8: RANGE_ZERO comes before UNSEEDED. -/
theorem test_below_zero : responseOf (exec (.below 0) (fresh .plus)) = some (.fault 2) := by decide

/-- V2.3.11: the extreme range does not overflow; the result is sign-extended. -/
theorem test_intInRange_extreme : responseOf (exec (.intInRange (-2147483648) 2147483647) (loaded .plusPlus seed0)) =
    some (.ok 0x00000000069f763d) := by decide

/-- V2.3.10 (variant A, `SEED 42`): 2 is drawn first, then -2 (V2.3.15: RES is sign-extended). -/
theorem test_intInRange_negative : responseOf (exec (.intInRange (-3) 3) (loaded .plus seed42)) = some (.ok 2) ∧
    responseOf (exec (.intInRange (-3) 3) (loaded .plus (advance seed42))) = some (.ok 0xfffffffffffffffe) := by
  refine ⟨?_, ?_⟩ <;> rfl

/-- V2.4.1. -/
theorem test_float01 : responseOf (exec .float01 (loaded .plus seed0)) = some (.ok 0x3c544700) ∧
    responseOf (exec .float01 (loaded .plusPlus seed0)) = some (.ok 0x3e886736) := by
  refine ⟨?_, ?_⟩ <;> rfl

/-- V2.4.2. -/
theorem test_double01 : responseOf (exec .double01 (loaded .plus seed0)) = some (.ok 0x3f8a88e6212f2e80) ∧
    responseOf (exec .double01 (loaded .plusPlus seed0)) = some (.ok 0x3fd10ce6c861a7dc) := by
  refine ⟨?_, ?_⟩ <;> rfl

/-- V2.4.6: FLOAT_IN_RANGE 5.0, 10.0. -/
theorem test_floatInRange :
    responseOf (exec (.floatInRange 0x40a00000 0x41200000) (loaded .plusPlus seed0)) = some (.ok 0x40caa041) := by rfl

/-- V2.4.9 (R168): the product may round so that the result equals `upper`. -/
theorem test_floatInRange_upper : f32Bits 0 (scaleToRange binary32 (f32Value 0x3f800000) (f32Value 0x3f800001)
    (u24 0xffffffffffffffff)) = 0x3f800001 := by decide +kernel

/-- V2.4.7: DOUBLE_IN_RANGE -1.0, 1.0. -/
theorem test_doubleInRange :
    responseOf (exec (.doubleInRange 0xbff0000000000000 0x3ff0000000000000) (loaded .plusPlus seed0)) =
      some (.ok 0xbfdde6326f3cb048) := by rfl

/-- V2.4.10: `inf * 0` is NaN and does not fault. -/
theorem test_floatInRange_nan : scaleToRange binary32 (f32Value 0xff7fffff) (f32Value 0x7f7fffff) (u24 0) = .nan := by
  decide +kernel

/-- V2.5.2: with `ln(s) = 0xbfb2d84f` the deviate is 0xbfc9056e. -/
theorem test_floatGaussian : acceptedF32 (polarIteration binary32 u24 (fun _ => f32Value 0xbfb2d84f) .plusPlus .polar2
    (f32Value 0) (f32Value 0x3f800000) seed0) = some 0xbfc9056e := by decide +kernel

/-- V2.5.12: `u = v = -1`, so `s = 2` under POLAR2 and `s = 1` under LITERAL1, both rejected. -/
theorem test_zero_draw_is_rejected (f : FloatFormat) (uni : U64 → FloatValue)
    (h : (f = binary32 ∧ uni = u24) ∨ (f = binary64 ∧ uni = u53)) :
    rejectsRadius f (fmul f (coordinate f (uni 0)) (coordinate f (uni 0))) = true ∧
      rejectsRadius f (fadd f (fmul f (coordinate f (uni 0)) (coordinate f (uni 0)))
        (fmul f (coordinate f (uni 0)) (coordinate f (uni 0)))) = true := by
  rcases h with ⟨rfl, rfl⟩ | ⟨rfl, rfl⟩ <;> decide +kernel

/-- V2.5.12 (R198): on the all-zero state every iteration rejects, whatever the logarithm, in both forms. -/
theorem test_gaussian_rejects_zero_state (ln : FloatValue → FloatValue) (v : Variant) (form : GaussForm)
    (mu sigma : FloatValue) (f : FloatFormat) (uni : U64 → FloatValue)
    (h : (f = binary32 ∧ uni = u24) ∨ (f = binary64 ∧ uni = u53)) :
    polarIteration f uni ln v form mu sigma Words.zero = .reject Words.zero := by
  have hd : draw v Words.zero = (0, Words.zero) := by cases v <;> decide
  obtain ⟨h1, h2⟩ := test_zero_draw_is_rejected f uni h
  cases form <;> simp only [polarIteration, hd, h1, h2, if_true]

/-- V2.5.7: after `SEED 2` the first pair is rejected (`s = 1.43...`). -/
theorem test_doubleGaussian_rejects_first_pair : acceptedF64 (polarIteration binary64 u53 id .plusPlus .polar2
    (f64Value 0) (f64Value 0x3ff0000000000000) (seedChained 2)) = none := by decide +kernel

/-- V2.6.1, V2.6.2, V2.6.3. -/
theorem test_readState : responseOf (exec (.readState 3) (loaded .plus seed0)) = some (.ok 0x2130748aaac80268) ∧
    responseOf (exec (.readState 4) (loaded .plus seed0)) = some (.fault 5) ∧
    responseOf (exec (.readState 0) (fresh .plus)) = some (.fault 4) := by decide

/-- V2.6.2: the index is compared over 64 bits; R221: a legal write sets the word and its validity. -/
theorem test_writeState : responseOf (exec (.writeState 0x100000000 1) (fresh .plus)) = some (.fault 5) ∧
    responseOf (exec (.writeState 2 9) (fresh .plus)) = some (.ok 0) := by decide

/-- V2.6.6: READ_STATUS right after reset, in each variant. -/
theorem test_readStatus_reset : responseOf (exec .readStatus (fresh .plus)) = some (.ok 0) ∧
    responseOf (exec .readStatus (fresh .plusPlus)) = some (.ok 0x10000) := by decide

/-- V2.6.7: after `SEED 0` and the fault of `BELOW 0` under variant B. -/
theorem test_readStatus_faulted :
    responseOf (exec .readStatus ((loaded .plusPlus seed0).raise .rangeZero)) = some (.ok 0x10f12) := by decide

/-! ### Steps -/

/-- P4: NEXT_U64 as the first command after reset faults UNSEEDED, and a SEED after it is ignored. -/
theorem test_fault_is_sticky : responseOf (run 2 { fresh .plusPlus with
    host := [.command ⟨0x02, 0, 0⟩, .command ⟨0x01, 0, 0⟩] }) = some (.fault 4) := by decide

/-- R270: a reset ends a command in progress. -/
theorem test_reset_ends_a_command : responseOf (step { loaded .plus Words.zero with
    inProgress := some ⟨.floatGaussian 0 0x3f800000, Words.zero⟩, host := [.reset] }) = none ∧
    wordsOf (step { loaded .plus Words.zero with
      inProgress := some ⟨.floatGaussian 0 0x3f800000, Words.zero⟩, host := [.reset] }) = none := by decide

/-- The command placed by withFetchWord is the first one to run after reset. -/
theorem test_fetch_word : step (State.reset.withFetchWord 8 0x01) = exec (.seed 0) State.reset := by rfl

/-! ### Witnesses: concrete states and operands that meet the hypotheses of the statements named -/

/-- A loaded state with the host's one command. -/
def presenting (v : Variant) (w : Words) (c : Command) : State := { loaded v w with host := [.command c] }

/-- A Gaussian command in progress on the all-zero state. -/
def hanging : State :=
  { loaded .plus Words.zero with inProgress := some ⟨.floatGaussian 0 0x3f800000, Words.zero⟩ }

/-- The words after `SEED 2`, whose first pair the double-precision sampler rejects (V2.5.7). -/
def seed2 : Words := seedChained 2

/-- For DecodeOfEncodeIsTheInstruction, at the bounds of the I32 range. -/
theorem witness_wellFormed : (Instr.intInRange (-2147483648) 2147483647).wellFormed = true := by decide

/-- For EncodeOfDecodeIsTheCanonicalWord, with ignored bits set. -/
theorem witness_decoded :
    decode ⟨0x04, 0xffffffff00000005, 0x0000000100000005⟩ = .ok (.intInRange 5 5) := by decide

/-- For the last clause of IgnoredPortBitsHaveNoEffect (V2.3.14). -/
theorem witness_ignored_bits : (0xffffffff00000005 : U64).setWidth 32 = (5 : U64).setWidth 32 ∧
    (0x0000000100000005 : U64).setWidth 32 = (5 : U64).setWidth 32 := by decide

/-- For SeedLoadsTheChainedWords and SeedLoadsTheCounterWords. -/
theorem witness_seed_chains : (fresh .plus).fault = false ∧ (fresh .plus).params.seedChain = .outputChained ∧
    { fresh .plus with params := { Config.params with seedChain := .counter } }.params.seedChain = .counter := by
  decide

/-- For SeedIsHistoryFreeAndIdempotent: a fresh and a loaded block. -/
theorem witness_seed_history : (fresh .plus).fault = false ∧ (loaded .plus handBuilt).fault = false ∧
    (fresh .plus).params = (loaded .plus handBuilt).params ∧ (∃ t, exec (.seed 7) (fresh .plus) = .next t) ∧
    ∃ t, exec (.seed 7) (loaded .plus handBuilt) = .next t :=
  ⟨rfl, rfl, rfl, exec_next _ _, exec_next _ _⟩

/-- For NextReturnsOneDraw, Float01ReturnsTheTopBitsScaled, Double01ReturnsTheTopBitsScaled,
FloatInRangeReturnsTheScaledDraw and DoubleInRangeReturnsTheScaledDraw. -/
theorem witness_loaded : (loaded .plusPlus seed0).fault = false ∧ (loaded .plusPlus seed0).words? = some seed0 := by
  decide

/-- For NonZeroStateStaysNonZero. -/
theorem witness_nonZero : (presenting .plus handBuilt ⟨0x02, 0, 0⟩).nonZero ∧
    (∃ t, step (presenting .plus handBuilt ⟨0x02, 0, 0⟩) = .next t) ∧
    (presenting .plus handBuilt ⟨0x02, 0, 0⟩).host.head? ≠ some .reset ∧
    ∀ c index value, (presenting .plus handBuilt ⟨0x02, 0, 0⟩).host.head? = some (.command c) →
      decode c ≠ .ok (.writeState index value) := by
  refine ⟨⟨⟨handBuilt, rfl, by decide⟩, fun p h => by cases h⟩, ⟨_, rfl⟩, by decide, fun c index value h => ?_⟩
  cases h
  exact fun h => by cases h

/-- For EveryResultHasEquallyManyDraws: a range and the largest result in it. -/
theorem witness_range : (3 : U64) ≠ 0 ∧ (2 : U64) < 3 := by decide

/-- For BelowPowerOfTwoTakesOneDraw: both ends of `k < 64`. -/
theorem witness_power_of_two : (loaded .plusPlus seed0).fault = false ∧
    (loaded .plusPlus seed0).words? = some seed0 ∧ 0 < 64 ∧ 63 < 64 := by decide

/-- For BelowReturnsTheFirstAcceptedRemainder and BoundedCommandsRespondOnceADrawIsAccepted (P3: the first draw is
rejected, the second accepted). -/
theorem witness_below : (presenting .plus handBuilt ⟨0x03, 3, 0⟩).presents ⟨0x03, 3, 0⟩ ∧
    (presenting .plus handBuilt ⟨0x03, 3, 0⟩).words? = some handBuilt ∧ (3 : U64) ≠ 0 ∧ 1 < Config.loopFuel ∧
    (∀ j < 1, -(3 : U64) < drawAt .plus handBuilt j - drawAt .plus handBuilt j % 3) ∧
    drawAt .plus handBuilt 1 - drawAt .plus handBuilt 1 % 3 ≤ -3 ∧
    (∀ j < 1, accepts 3 (drawAt .plus handBuilt j) = false) ∧ accepts 3 (drawAt .plus handBuilt 1) = true ∧
    decode ⟨0x03, 3, 0⟩ = .ok (.below 3) :=
  ⟨⟨rfl, rfl, rfl⟩, rfl, by decide, by decide, by decide, by decide, by decide, by decide, by decide⟩

/-- For IntInRangeReturnsTheFirstAcceptedValue: the extreme bounds, whose range is 2^32 (R138). -/
theorem witness_intInRange : (loaded .plusPlus seed0).fault = false ∧ (loaded .plusPlus seed0).words? = some seed0 ∧
    (0x80000000 : BitVec 32).toInt ≤ (0x7fffffff : BitVec 32).toInt ∧
    ((0x100000000 : U64).toNat : Int) = (0x7fffffff : BitVec 32).toInt - (0x80000000 : BitVec 32).toInt + 1 ∧
    0 < Config.loopFuel ∧
    drawAt .plusPlus seed0 0 - drawAt .plusPlus seed0 0 % 0x100000000 ≤ -0x100000000 := by decide

/-- For the second clause of BoundedCommandsRespondOnceADrawIsAccepted. -/
theorem witness_intInRange_presented : decode ⟨0x04, 0xfffffffd, 3⟩ = .ok (.intInRange (-3) 3) ∧ (-3 : Int) ≤ 3 ∧
    ((7 : U64).toNat : Int) = 3 - (-3) + 1 ∧ accepts 7 (drawAt .plusPlus seed0 0) = true := by decide

/-- For BoundedResultsLieInTheRange: a BELOW result in the first step and an INT_IN_RANGE result in a later one. -/
theorem witness_bounded_results :
    (∃ t res, exec (.below 3) (loaded .plus seed0) = .next t ∧ t.response = some (.ok res)) ∧
    ∃ t res, resume ⟨.intInRange 7 7, seed0⟩ (loaded .plus seed0) = t ∧ t.response = some (.ok res) ∧
      isI32 7 = true :=
  ⟨⟨_, _, rfl, rfl⟩, _, _, rfl, rfl, rfl⟩

/-- For RoundingIsToNearestTiesToEven: a finite result and an infinity. -/
theorem witness_rounding : roundTo binary32 false 1 3 0 = .finite false 11184811 (-25) ∧
    roundTo binary32 true 1 1 128 = .inf true := by decide +kernel

/-- For OperatorsRoundTheExactResult: 1.0 and 2.0. -/
theorem witness_operands : (f32Value 0x3f800000).toRat? = some 1 ∧ (f32Value 0x40000000).toRat? = some 2 := by
  have h1 : f32Value 0x3f800000 = .finite false 8388608 (-23) := by decide +kernel
  have h2 : f32Value 0x40000000 = .finite false 8388608 (-22) := by decide +kernel
  rw [h1, h2]
  constructor <;> norm_num [FloatValue.toRat?, signed]

/-- For SquareRootIsCorrectlyRounded: 2.0, the least subnormals, and the root of 2.0. -/
theorem witness_square_root : f32Value 0x40000000 = .finite false 8388608 (-22) ∧ binary32.holds 8388608 (-22) ∧
    binary32.holds 1 (-149) ∧ binary64.holds 1 (-1074) ∧
    fsqrt binary32 (.finite false 8388608 (-22)) = .finite false 11863283 (-23) :=
  ⟨by decide +kernel, by unfold FloatFormat.holds; decide, by unfold FloatFormat.holds; decide,
    by unfold FloatFormat.holds; decide, by decide +kernel⟩

/-- For FloatEncodingsRoundTrip, NanResultsAreDrawnFromAllNans and FloatInRangeOfEqualBoundsReturnsTheBound (V2.4.8). -/
theorem witness_encodings : f32Value 0x40000000 ≠ .nan ∧ f64Value 0x4000000000000000 ≠ .nan ∧
    f32Value 0x7fc00000 = .nan ∧ f64Value 0x7ff8000000000000 = .nan ∧ (0x40000000 : F32) ≠ 0x80000000 ∧
    (f32Value 0x40000000).toRat? = some 2 :=
  ⟨by decide +kernel, by decide +kernel, by decide +kernel, by decide +kernel, by decide, witness_operands.2⟩

/-- For UniformGridPointsAreEquallyLikely: the ends of the grids. -/
theorem witness_grid : 0 < 2 ^ 24 ∧ 2 ^ 24 - 1 < 2 ^ 24 ∧ 2 ^ 53 - 1 < 2 ^ 53 := by decide

/-- For PolarCoordinatesAreExact: the draws whose coordinate is zero. -/
theorem witness_zero_coordinate : (0x8000000000000000 : U64) >>> 40 = 0x800000 ∧
    (0x8000000000000000 : U64) >>> 11 = 0x10000000000000 := by decide

/-- For FloatGaussianReturnsTheFirstAcceptedDeviate and the first clause of GaussianRespondsOnceAPairIsAccepted, with
`n = 0` (V2.5.2). -/
theorem witness_floatGaussian : (presenting .plusPlus seed0 ⟨0x09, 0, 0x3f800000⟩).presents ⟨0x09, 0, 0x3f800000⟩ ∧
    (presenting .plusPlus seed0 ⟨0x09, 0, 0x3f800000⟩).words? = some seed0 ∧
    (presenting .plusPlus seed0 ⟨0x09, 0, 0x3f800000⟩).params.gaussForm = .polar2 ∧ 0 < Config.loopFuel ∧
    decode ⟨0x09, 0, 0x3f800000⟩ = .ok (.floatGaussian 0 0x3f800000) ∧
    rejectsRadius binary32 (fadd binary32
      (fmul binary32 (coordinate binary32 (u24 (drawAt .plusPlus seed0 0)))
        (coordinate binary32 (u24 (drawAt .plusPlus seed0 0))))
      (fmul binary32 (coordinate binary32 (u24 (drawAt .plusPlus seed0 1)))
        (coordinate binary32 (u24 (drawAt .plusPlus seed0 1))))) = false :=
  ⟨⟨rfl, rfl, rfl⟩, rfl, rfl, by decide, by decide, by decide +kernel⟩

/-- For DoubleGaussianReturnsTheFirstAcceptedDeviate and the second clause of GaussianRespondsOnceAPairIsAccepted, with
`n = 1` (V2.5.7). -/
theorem witness_doubleGaussian : (loaded .plusPlus seed2).fault = false ∧ (loaded .plusPlus seed2).words? = some seed2 ∧
    1 < Config.loopFuel ∧ decode ⟨0x0A, 0, 0x3ff0000000000000⟩ = .ok (.doubleGaussian 0 0x3ff0000000000000) ∧
    rejectsRadius binary64 (fadd binary64
      (fmul binary64 (coordinate binary64 (u53 (drawAt .plusPlus seed2 0)))
        (coordinate binary64 (u53 (drawAt .plusPlus seed2 0))))
      (fmul binary64 (coordinate binary64 (u53 (drawAt .plusPlus seed2 1)))
        (coordinate binary64 (u53 (drawAt .plusPlus seed2 1))))) = true ∧
    rejectsRadius binary64 (fadd binary64
      (fmul binary64 (coordinate binary64 (u53 (drawAt .plusPlus seed2 2)))
        (coordinate binary64 (u53 (drawAt .plusPlus seed2 2))))
      (fmul binary64 (coordinate binary64 (u53 (drawAt .plusPlus seed2 3)))
        (coordinate binary64 (u53 (drawAt .plusPlus seed2 3))))) = false :=
  ⟨rfl, rfl, by decide, by decide, by decide +kernel, by decide +kernel⟩

/-- For LiteralFormTakesOneDrawAnIteration and the LITERAL1 form of GaussianRespondsOnceAPairIsAccepted, both precisions,
with `n = 0`. -/
theorem witness_literal_form :
    { presenting .plusPlus seed0 ⟨0x09, 0, 0x3f800000⟩ with
      params := { Config.params with gaussForm := .literal1 } }.presents ⟨0x09, 0, 0x3f800000⟩ ∧
    { loaded .plusPlus seed0 with params := { Config.params with gaussForm := .literal1 } }.params.gaussForm =
      .literal1 ∧ 0 < Config.loopFuel ∧
    rejectsRadius binary32 (fmul binary32 (coordinate binary32 (u24 (scramble .plusPlus seed0)))
      (coordinate binary32 (u24 (scramble .plusPlus seed0)))) = false ∧
    rejectsRadius binary64 (fmul binary64 (coordinate binary64 (u53 (scramble .plusPlus seed0)))
      (coordinate binary64 (u53 (scramble .plusPlus seed0)))) = false :=
  ⟨⟨rfl, rfl, rfl⟩, rfl, by decide, by decide +kernel, by decide +kernel⟩

/-- For MuAndSigmaDoNotAffectTheDraws: each form. -/
theorem witness_two_gaussians : (∃ t, exec (.floatGaussian 0 0x3f800000) (loaded .plus seed0) = .next t) ∧
    (∃ t, exec (.floatGaussian 0x7fc00000 0xff800000) (loaded .plus seed0) = .next t) ∧
    ∃ t, exec (.doubleGaussian 0 0) (loaded .plus seed0) = .next t :=
  ⟨exec_next _ _, exec_next _ _, exec_next _ _⟩

/-- For GaussianHangsOnTheZeroState (P5). -/
theorem witness_hang : (presenting .plus Words.zero ⟨0x09, 0, 0x3f800000⟩).presents ⟨0x09, 0, 0x3f800000⟩ ∧
    (presenting .plus Words.zero ⟨0x09, 0, 0x3f800000⟩).words? = some Words.zero ∧
    decode ⟨0x09, 0, 0x3f800000⟩ = .ok (.floatGaussian 0 0x3f800000) :=
  ⟨⟨rfl, rfl, rfl⟩, rfl, by decide⟩

/-- For ReadStateReturnsTheWord and WriteStateWritesTheWord: each word, and the least index above them. -/
theorem witness_words : (loaded .plus handBuilt).fault = false ∧ (loaded .plus handBuilt).s0 = some 0 ∧
    (loaded .plus handBuilt).s1 = some 0 ∧ (loaded .plus handBuilt).s2 = some 0 ∧
    (loaded .plus handBuilt).s3 = some 0xffffffffffffffff ∧ (fresh .plus).s3 = none ∧ (3 : U64) < 4 := by decide

/-- For SaveAndRestoreRoundTrips: the words of one loaded block restored into another, after a float command there. -/
theorem witness_restore : ∃ s', exec .float01 (loaded .plus seed42) = .next s' ∧
    s'.freeIndex ≠ (loaded .plus seed0).freeIndex ∧ (loaded .plus seed0).words? = some seed0 ∧
    (loaded .plus seed0).statusLegal = true ∧ s'.statusLegal = true ∧ (loaded .plus seed0).fault = false ∧
    s'.fault = false ∧ (loaded .plus seed0).params = s'.params ∧
    ∃ t1 t2 t3 t4, exec (.writeState 0 seed0.s0) s' = .next t1 ∧ exec (.writeState 1 seed0.s1) t1 = .next t2 ∧
      exec (.writeState 2 seed0.s2) t2 = .next t3 ∧ exec (.writeState 3 seed0.s3) t3 = .next t4 :=
  ⟨_, rfl, by decide, rfl, rfl, rfl, rfl, rfl, rfl, _, _, _, _, rfl, rfl, rfl, rfl⟩

/-- For EachFaultConditionIsRecorded: each clause, at the boundary indexes 3 and 4. -/
theorem witness_faults : (fresh .plus).fault = false ∧ (fresh .plus).words? = none ∧ (2 : Int) < 3 ∧
    ((0 : BitVec 8) = 0 ∨ (0x0E : BitVec 8) ≤ 0) ∧ (0x0E : BitVec 8) ≤ 0x0E ∧ (3 : U64) ≤ 3 ∧
    (fresh .plus).word (3 : U64).toNat = none ∧ (3 : U64) < 4 ∧ (1 : U64) ≠ 0 := by decide

/-- For FaultLastsUntilReset and FaultingCommandsChangeNoWord. -/
theorem witness_faulted :
    ∃ s t : State, s.fault = true ∧ s.inProgress = none ∧ s.host = [.command ⟨0x01, 5, 0⟩] ∧
      (0x01 : BitVec 8) ≠ 0x0D ∧ HostMove.reset ∉ s.host ∧ run 1 s = .next t ∧ step s = .next t ∧
      t.response = some (.fault 2) :=
  ⟨{ (loaded .plus seed0).raise .rangeZero with host := [.command ⟨0x01, 5, 0⟩] }, _, rfl, rfl, rfl, by decide,
    by decide, rfl, rfl, rfl⟩

/-- For ResetTakesEffectInAnyState: with a command in progress. -/
theorem witness_reset : { hanging with host := [.reset] }.host = .reset :: [] ∧ hanging.inProgress.isSome := by decide

/-- The Gaussian in progress on the all-zero state goes on without a response. -/
theorem witness_hanging_goes_on : resume ⟨.floatGaussian 0 0x3f800000, Words.zero⟩ hanging =
    hanging.stayBusy (.floatGaussian 0 0x3f800000) Words.zero := by
  have hrej : ∀ j < Config.loopFuel, polarIteration binary32 u24
      (ln32 (nanFrom32 (Config.nanDraw32 hanging.freeIndex))) hanging.params.variant hanging.params.gaussForm
      (f32Value 0) (f32Value 0x3f800000) (id^[j] Words.zero) = .reject (id^[j + 1] Words.zero) := fun j _ => by
    rw [Function.iterate_id, Function.iterate_id]
    exact test_gaussian_rejects_zero_state _ _ _ _ _ binary32 u24 (.inl ⟨rfl, rfl⟩)
  have h := iterate_rejects Config.loopFuel Words.zero hrej
  rw [Function.iterate_id] at h
  simp only [resume, runFloatGaussian, State.runLoop, h, id]

/-- For EveryStepKeepsTheHangingGaussian: each Gaussian, the host waiting or with its next command. -/
theorem witness_hanging_gaussian : hanging.hangs ∧ hanging.host.head? ≠ some .reset ∧
    (∃ t, step hanging = .next t) ∧
    { hanging with inProgress := some ⟨.doubleGaussian 0 0, Words.zero⟩, host := [.command ⟨0x02, 0, 0⟩] }.hangs :=
  ⟨⟨rfl, rfl, _, rfl, rfl, rfl⟩, by decide, ⟨_, rfl⟩, rfl, rfl, _, rfl, rfl, rfl⟩

/-- For OneCommandAtATime: a waiting block, and a command in progress with the host's next one waiting. -/
theorem witness_one_at_a_time : (fresh .plus).inProgress = none ∧ (fresh .plus).host = [] ∧
    { hanging with host := [.command ⟨0x02, 0, 0⟩] }.inProgress.isSome ∧
    ∃ t, step { hanging with host := [.command ⟨0x02, 0, 0⟩] } = .next t :=
  ⟨rfl, rfl, rfl, _, rfl⟩

/-- For StepRunsTheDecodedCommand. -/
theorem witness_step : (presenting .plus seed0 ⟨0x02, 0, 0⟩).inProgress = none ∧
    (presenting .plus seed0 ⟨0x02, 0, 0⟩).host = .command ⟨0x02, 0, 0⟩ :: [] ∧
    decode ⟨0x02, 0, 0⟩ = .ok .nextU64 := by decide

/-- For EveryStepKeepsTheInvariant, NoStepChangesTheParameters and EveryStepKeepsTheDrawnWords, its second clause too: a
command in progress that stays in progress. -/
theorem witness_busy : hanging.inv = true ∧ hanging.busyWordsDrawn ∧ ∃ t, step hanging = .next t ∧ t.inProgress.isSome :=
  ⟨by decide, fun p h => by cases h; exact ⟨Words.zero, 1, rfl, by decide, by decide⟩,
    _, congrArg Host.Outcome.next witness_hanging_goes_on, rfl⟩

/-- For ReadCommandsFrame, WriteCommandsFrame and GenerationCommandsFrame: a step of each kind, its clause's response. -/
theorem witness_frames :
    (∃ t, exec (.readState 0) (loaded .plus seed0) = .next t ∧ t.response = some (.ok seed0.s0)) ∧
    (∃ t, exec .readStatus (fresh .plus) = .next t) ∧
    (∃ t, exec (.seed 1) (fresh .plus) = .next t ∧ t.response = some (.ok 0)) ∧
    (∃ t, exec (.writeState 3 1) (fresh .plus) = .next t ∧ t.response = some (.ok 0)) ∧
    (∃ t, exec .nextU64 (loaded .plus seed0) = .next t ∧ (∀ code, t.response ≠ some (.fault code))) ∧
    ∃ t, exec .float01 (fresh .plus) = .next t ∧ ∀ res, t.response ≠ some (.ok res) :=
  ⟨⟨_, rfl, rfl⟩, ⟨_, rfl⟩, ⟨_, rfl, rfl⟩, ⟨_, rfl, rfl⟩, ⟨_, rfl, fun _ h => by cases h⟩,
    ⟨_, rfl, fun _ h => by cases h⟩⟩

/-- For FaultLastsUntilReset's last clause: a faulted block whose host resets it. -/
theorem witness_faulted_reset : ∃ s t : State, s.fault = true ∧ s.host = .reset :: [] ∧ step s = .next t :=
  ⟨{ fresh .plus with fault := true, cause := 2, host := [.reset] }, _, rfl, rfl, rfl⟩

end Sys2Proof.Tests
end

section
/-! PROOFS. The instance's parameters through a step (spec/10_state.md R28) and the block right after reset (R32). -/

namespace Sys2Proof.Machine

/-! ### The parameters stay -/

@[simp] theorem State.completed_params (s : State) (w : Words) (res : U64) : (s.completed w res).params = s.params := rfl

@[simp] theorem State.completedFloat_params (s : State) (w : Words) (res : U64) :
    (s.completedFloat w res).params = s.params := rfl

@[simp] theorem State.faulted_params (s : State) (code : BitVec 4) : (s.faulted code).params = s.params := rfl

@[simp] theorem State.ignored_params (s : State) : s.ignored.params = s.params := rfl

@[simp] theorem State.respondOk_params (s : State) (res : U64) : (s.respondOk res).params = s.params := rfl

@[simp] theorem State.setWord_params (s : State) (i : Nat) (v : U64) : (s.setWord i v).params = s.params := by
  obtain ⟨-, -, hparams, -, -⟩ := s.setWord_frame i v
  exact hparams

theorem State.LoopLeaves.params_eq {s t : State} (h : s.LoopLeaves t) : t.params = s.params := by
  obtain ⟨w, res, rfl⟩ | ⟨w, res, rfl⟩ | ⟨c, w, rfl⟩ := h
  · exact s.completed_params w res
  · exact s.completedFloat_params w res
  · exact s.stayBusy_params c w

theorem State.BodyLeaves.params_eq {s t : State} (h : s.BodyLeaves t) : t.params = s.params := by
  obtain ⟨c, rfl⟩ | ⟨res, rfl⟩ | ⟨i, v, rfl⟩ | hloop := h
  · exact s.faulted_params c.code
  · exact s.respondOk_params res
  · rw [State.respondOk_params, State.setWord_params]
  · exact hloop.params_eq

theorem exec_params_eq {i : Instr} {s t : State} (h : exec i s = .next t) : t.params = s.params := by
  obtain ⟨-, -, rfl⟩ | ⟨-, rfl⟩ | ⟨-, hbody⟩ := exec_cases h
  · exact s.ignored_params
  · exact s.respondOk_params (statusWord s)
  · exact hbody.params_eq

theorem runCommand_params_eq {c : Command} {s t : State} (h : runCommand c s = .next t) : t.params = s.params := by
  obtain ⟨i, -, hexec⟩ | ⟨-, ⟨-, rfl⟩ | ⟨-, rfl⟩⟩ := runCommand_cases h
  · exact exec_params_eq hexec
  · exact s.ignored_params
  · exact s.faulted_params Cause.illegalCommand.code

theorem step_params_eq {s t : State} (h : step s = .next t) : t.params = s.params := by
  obtain ⟨rest, -, -, rfl⟩ | ⟨rest, -, rfl⟩ | ⟨c, rest, -, -, hrun⟩ | ⟨p, rest, -, -, -, rfl⟩ := step_cases h
  · exact idle_params { s with host := rest }
  · exact resetBlock_params { s with host := rest }
  · exact runCommand_params_eq (s := { s with host := rest }) hrun
  · exact (resume_leaves p { s with host := rest }).params_eq

/-! ### STATUS with no word valid and no fault -/

/-- Every field of STATUS but VARIANT is 0 (R26). -/
theorem statusWord_of_cleared {s : State} (hvalid : s.validBits = 0) (hfault : s.fault = false) (hcause : s.cause = 0) :
    statusWord s = (BitVec.ofBool (s.params.variant == .plusPlus)).setWidth 64 <<< 16 := by
  rw [statusWord, hvalid, hfault, hcause]
  cases s.params.variant with
  | plus => decide
  | plusPlus => decide

end Sys2Proof.Machine

namespace Sys2Proof.Proofs

open Sys2Proof.Machine

/-- Settles O54, by the inversions of `step` and `exec`: nothing a step can leave touches the parameters. -/
theorem noStepChangesTheParameters : Obligations.NoStepChangesTheParameters :=
  fun _ _ h => step_params_eq h

/-- Settles O47: no word is there after reset, so VALID is 0 and STATUS is the open VARIANT alone. -/
theorem resetStateHoldsTheResetValues : Obligations.ResetStateHoldsTheResetValues := by
  have hvalid : State.reset.validBits = 0 := by decide
  exact ⟨State.reset_s0, State.reset_s1, State.reset_s2, State.reset_s3, hvalid, State.reset_cause, State.reset_fault,
    State.reset_inProgress, State.reset_response, statusWord_of_cleared hvalid State.reset_fault State.reset_cause⟩

end Sys2Proof.Proofs
end

section
/-! PROOFS. The bits of the ports a command does not use (spec/30_encoding.md R61, R62, R64). -/

namespace Sys2Proof

open Sys2Proof.Machine

/-! ### The rows of the opcode map that leave port bits unused -/

section
variable (a b : U64)

theorem decode_seed : decode ⟨0x01, a, b⟩ = .ok (.seed a) := rfl

theorem decode_nextU64 : decode ⟨0x02, a, b⟩ = .ok .nextU64 := rfl

theorem decode_below : decode ⟨0x03, a, b⟩ = .ok (.below a) := rfl

theorem decode_intInRange : decode ⟨0x04, a, b⟩ = .ok (.intInRange (a.setWidth 32).toInt (b.setWidth 32).toInt) := rfl

theorem decode_float01 : decode ⟨0x05, a, b⟩ = .ok .float01 := rfl

theorem decode_double01 : decode ⟨0x06, a, b⟩ = .ok .double01 := rfl

theorem decode_floatInRange : decode ⟨0x07, a, b⟩ = .ok (.floatInRange (a.setWidth 32) (b.setWidth 32)) := rfl

theorem decode_floatGaussian : decode ⟨0x09, a, b⟩ = .ok (.floatGaussian (a.setWidth 32) (b.setWidth 32)) := rfl

theorem decode_readState : decode ⟨0x0B, a, b⟩ = .ok (.readState a) := rfl

theorem decode_readStatus : decode ⟨0x0D, a, b⟩ = .ok .readStatus := rfl

end

/-! ### What decoding does not read -/

variable {cmd : BitVec 8} {a a' b b' : U64}

theorem decode_ignores_portB (hcmd : cmd = 0x01 ∨ cmd = 0x03 ∨ cmd = 0x0B) :
    decode ⟨cmd, a, b⟩ = decode ⟨cmd, a, b'⟩ := by
  obtain rfl | rfl | rfl := hcmd
  · rw [decode_seed, decode_seed]
  · rw [decode_below, decode_below]
  · rw [decode_readState, decode_readState]

theorem decode_ignores_ports (hcmd : cmd = 0x02 ∨ cmd = 0x05 ∨ cmd = 0x06 ∨ cmd = 0x0D) :
    decode ⟨cmd, a, b⟩ = decode ⟨cmd, a', b'⟩ := by
  obtain rfl | rfl | rfl | rfl := hcmd
  · rw [decode_nextU64, decode_nextU64]
  · rw [decode_float01, decode_float01]
  · rw [decode_double01, decode_double01]
  · rw [decode_readStatus, decode_readStatus]

theorem decode_ignores_high_bits (hcmd : cmd = 0x04 ∨ cmd = 0x07 ∨ cmd = 0x09)
    (ha : a.setWidth 32 = a'.setWidth 32) (hb : b.setWidth 32 = b'.setWidth 32) :
    decode ⟨cmd, a, b⟩ = decode ⟨cmd, a', b'⟩ := by
  obtain rfl | rfl | rfl := hcmd
  · rw [decode_intInRange, decode_intInRange, ha, hb]
  · rw [decode_floatInRange, decode_floatInRange, ha, hb]
  · rw [decode_floatGaussian, decode_floatGaussian, ha, hb]

/-- The ports reach the block through the decoder alone. -/
theorem Machine.runCommand_congr {c c' : Command} (h : decode c = decode c') (s : State) :
    runCommand c s = runCommand c' s := by
  rw [runCommand, runCommand, h]

end Sys2Proof

namespace Sys2Proof.Proofs

open Sys2Proof.Machine

/-- Settles O4: the block sees a command only as `decode` reads it, and `decode` does not read the bits in question. -/
theorem ignoredPortBitsHaveNoEffect : Obligations.IgnoredPortBitsHaveNoEffect :=
  fun s _ _ _ _ _ =>
    ⟨fun hcmd => runCommand_congr (decode_ignores_portB hcmd) s,
      fun hcmd => runCommand_congr (decode_ignores_ports hcmd) s,
      fun hcmd ha hb => runCommand_congr (decode_ignores_high_bits hcmd ha hb) s⟩

end Sys2Proof.Proofs
end

section
/-! PROOFS. The seed expander is a permutation of the 64-bit words, and what SEED loads (spec/40_seed.md). -/

namespace Sys2Proof.Machine

/-! ### SPLITMIX as a composition of injective rounds -/

/-- The xor-shift round of SPLITMIX (R80). -/
def xorShiftRight (k : Nat) (z : U64) : U64 := z ^^^ (z >>> k)

theorem splitmix_eq (x : U64) :
    splitmix x = xorShiftRight 31 (xorShiftRight 27 (xorShiftRight 30 (x + splitmixGamma) * 0xbf58476d1ce4e5b9) *
      0x94d049bb133111eb) := rfl

/-- A nonzero number gets smaller when it is shifted right. -/
theorem eq_zero_of_ushiftRight_eq_self {k : Nat} (hk : 0 < k) {d : U64} (h : d >>> k = d) : d = 0 := by
  have hdiv : d.toNat / 2 ^ k = d.toNat := by
    rw [← Nat.shiftRight_eq_div_pow, ← BitVec.toNat_ushiftRight, h]
  obtain hzero | hone := Nat.div_eq_self.mp hdiv
  · exact BitVec.eq_of_toNat_eq hzero
  · exact absurd hone (Nat.one_lt_two_pow hk.ne').ne'

/-- The difference of two preimages is its own right shift. -/
theorem xorShiftRight_injective {k : Nat} (hk : 0 < k) : Function.Injective (xorShiftRight k) := by
  intro x y h
  have hxor : (x ^^^ y) ^^^ (x ^^^ y) >>> k = 0 := by
    calc (x ^^^ y) ^^^ (x ^^^ y) >>> k
        = xorShiftRight k x ^^^ xorShiftRight k y := by
          rw [BitVec.ushiftRight_xor_distrib, xorShiftRight, xorShiftRight]; ac_rfl
      _ = 0 := BitVec.xor_eq_zero_iff.mpr h
  exact BitVec.xor_eq_zero_iff.mp (eq_zero_of_ushiftRight_eq_self hk (BitVec.xor_eq_zero_iff.mp hxor).symm)

/-- Both multipliers are odd, so each has an inverse modulo 2^64, named here (R81). -/
theorem isUnit_splitmix_multipliers : IsUnit (0xbf58476d1ce4e5b9 : U64) ∧ IsUnit (0x94d049bb133111eb : U64) :=
  ⟨.of_mul_eq_one 0x96de1b173f119089 (by decide), .of_mul_eq_one 0x319642b2d24d8ec3 (by decide)⟩

theorem splitmix_injective : Function.Injective splitmix := by
  intro x y h
  rw [splitmix_eq, splitmix_eq] at h
  obtain ⟨hfirst, hsecond⟩ := isUnit_splitmix_multipliers
  have hround2 := hsecond.mul_left_injective (xorShiftRight_injective (by decide) h)
  have hround1 := hfirst.mul_left_injective (xorShiftRight_injective (by decide) hround2)
  exact add_left_injective splitmixGamma (xorShiftRight_injective (by decide) hround1)

/-- Zero goes through every round but the addition. -/
theorem splitmix_neg_gamma : splitmix (-splitmixGamma) = 0 := by decide

theorem splitmix_eq_zero_iff {x : U64} : splitmix x = 0 ↔ x = -splitmixGamma :=
  splitmix_injective.eq_iff' splitmix_neg_gamma

/-! ### The words SEED loads -/

/-- SPLITMIX does not fix 0, so the second word of a chain that starts with 0 is not 0 (R84). -/
theorem seedChained_ne_zero (value : U64) : seedChained value ≠ Words.zero := by
  intro h
  have h0 : splitmix value = 0 := congrArg Words.s0 h
  have h1 : splitmix (splitmix value) = 0 := congrArg Words.s1 h
  rw [h0] at h1
  exact absurd (splitmix_eq_zero_iff.mp h1) (by decide)

/-- SPLITMIX is injective, so it does not map two consecutive counter values to 0 (R84). -/
theorem seedCounter_ne_zero (value : U64) : seedCounter value ≠ Words.zero := by
  intro h
  have h0 : splitmix value = 0 := congrArg Words.s0 h
  have h1 : splitmix (value + splitmixGamma) = 0 := congrArg Words.s1 h
  have hgamma : value + splitmixGamma = value := splitmix_injective (h1.trans h0.symm)
  exact absurd (add_eq_left.mp hgamma) (by decide)

/-- The closed form of R83, its first two multiples of the constant written out too. -/
theorem seedCounter_eq (value : U64) :
    seedCounter value =
      ⟨splitmix (value + 0 * splitmixGamma), splitmix (value + 1 * splitmixGamma),
        splitmix (value + 2 * splitmixGamma), splitmix (value + 3 * splitmixGamma)⟩ := by
  rw [zero_mul, add_zero, one_mul, seedCounter]

/-! ### SEED as a command -/

theorem exec_seed (value : U64) (s : State) :
    exec (.seed value) s = .next (s.unlessFaulted (s.completed (seedWords s.params.seedChain value) 0)) := rfl

theorem exec_seed_of_unfaulted {s : State} (h : s.fault = false) (value : U64) :
    exec (.seed value) s = .next (s.completed (seedWords s.params.seedChain value) 0) := by
  rw [exec_seed, State.unlessFaulted_of_unfaulted h]

theorem exec_seed_of_faulted {s : State} (h : s.fault = true) (value : U64) :
    exec (.seed value) s = .next s.ignored := by
  rw [exec_seed, State.unlessFaulted_of_faulted h]

end Sys2Proof.Machine

namespace Sys2Proof.Proofs

open Sys2Proof.Machine

/-- Settles O7: SPLITMIX composes injective rounds on a finite type, and its one zero is where the addition gives 0. -/
theorem splitmixIsABijection : Obligations.SplitmixIsABijection :=
  ⟨Finite.injective_iff_bijective.mp splitmix_injective, fun _ => splitmix_eq_zero_iff⟩

/-- Settles O8: under either chain the first two words SEED loads are not both 0. -/
theorem seedNeverLoadsTheZeroState : Obligations.SeedNeverLoadsTheZeroState := by
  intro chain value
  cases chain with
  | outputChained => exact seedChained_ne_zero value
  | counter => exact seedCounter_ne_zero value

/-- Settles O9: SEED reads FAULT, the seed and SEED_CHAIN, and no state word. -/
theorem seedLoadsTheChainedWords : Obligations.SeedLoadsTheChainedWords := by
  intro s value hchain
  refine ⟨fun hf => ?_, fun hf => exec_seed_of_faulted hf value⟩
  rw [exec_seed_of_unfaulted hf, hchain, seedWords, seedChained]

/-- Settles O10: as for O9, with the words of the other chain in the form R83 gives them. -/
theorem seedLoadsTheCounterWords : Obligations.SeedLoadsTheCounterWords := by
  intro s value hf hchain
  rw [exec_seed_of_unfaulted hf, hchain, seedWords, seedCounter_eq, splitmixGamma]

end Sys2Proof.Proofs
end

section
/-! PROOFS. The core step is a bijection, its closed forms, and what NEXT_U64 returns (spec/41_core_step.md). -/

namespace Sys2Proof.Machine

/-! ### Rotations -/

theorem rotl_eq_rotateLeft (a : U64) {k : Nat} (hk : k < 64) : rotl a k = a.rotateLeft k := by
  rw [BitVec.rotateLeft_def, Nat.mod_eq_of_lt hk, rotl]

/-- Bit `n` from the top of the result is bit `(m + k + n) mod 64` of the operand. -/
theorem rotateLeft_rotateLeft_cancel (a : U64) {m k : Nat} (h : m + k = 64) :
    (a.rotateLeft m).rotateLeft k = a := by
  refine BitVec.eq_of_getMsbD_eq fun n hn => ?_
  have hpos : (m + (k + n) % 64) % 64 = n := by omega
  simp [BitVec.getMsbD_rotateLeft, hn, hpos, Nat.mod_lt]

/-- Rotations by `m` and by `64 - m` undo each other. -/
theorem rotl_rotl_cancel (a : U64) {m k : Nat} (hm : m < 64) (hk : k < 64) (h : m + k = 64) :
    rotl (rotl a m) k = a := by
  rw [rotl_eq_rotateLeft a hm, rotl_eq_rotateLeft _ hk, rotateLeft_rotateLeft_cancel a h]

/-! ### Exclusive or of words -/

theorem xor_left_comm (a b c : U64) : a ^^^ (b ^^^ c) = b ^^^ (a ^^^ c) := by
  rw [← BitVec.xor_assoc, BitVec.xor_comm a b, BitVec.xor_assoc]

/-! ### The xor-shift that ADVANCE applies to `s1` -/

/-- The new `s1` and `s2` of ADVANCE differ by this function of the old `s1` (R107). -/
def xorShiftLeft17 (x : U64) : U64 := x ^^^ (x <<< 17)

/-- The function of `y` in ADVANCE_INV (R107). -/
def xorShiftLeft17Inv (y : U64) : U64 := y ^^^ (y <<< 17) ^^^ (y <<< 34) ^^^ (y <<< 51)

/-- The sum telescopes: what is left beside `x` is a shift by 68, out of the word. -/
theorem xorShiftLeft17Inv_xorShiftLeft17 (x : U64) : xorShiftLeft17Inv (xorShiftLeft17 x) = x := by
  have hout : x <<< 68 = 0#64 := BitVec.shiftLeft_eq_zero (by decide)
  simp [xorShiftLeft17Inv, xorShiftLeft17, BitVec.shiftLeft_xor_distrib, ← BitVec.shiftLeft_add, BitVec.xor_assoc, hout]

/-- A left inverse on a finite type is a right inverse. -/
theorem xorShiftLeft17_xorShiftLeft17Inv (y : U64) : xorShiftLeft17 (xorShiftLeft17Inv y) = y :=
  have hleft : Function.LeftInverse xorShiftLeft17Inv xorShiftLeft17 := xorShiftLeft17Inv_xorShiftLeft17
  hleft.rightInverse_of_surjective (Finite.surjective_of_injective hleft.injective) y

/-! ### ADVANCE and its inverse -/

/-- R100 by substitution: the new words as functions of the old ones. -/
theorem advance_eq (w : Words) :
    advance w =
      ⟨w.s0 ^^^ w.s1 ^^^ w.s3, w.s0 ^^^ w.s1 ^^^ w.s2, w.s0 ^^^ w.s2 ^^^ (w.s1 <<< 17), rotl (w.s1 ^^^ w.s3) 45⟩ := by
  simp only [advance, BitVec.xor_assoc, BitVec.xor_comm w.s3, BitVec.xor_comm w.s2, xor_left_comm w.s1]

/-- R107 by substitution. -/
theorem advanceInv_eq (w : Words) :
    advanceInv w =
      ⟨w.s0 ^^^ rotl w.s3 19, xorShiftLeft17Inv (w.s1 ^^^ w.s2),
        w.s1 ^^^ (w.s0 ^^^ rotl w.s3 19) ^^^ xorShiftLeft17Inv (w.s1 ^^^ w.s2),
        rotl w.s3 19 ^^^ xorShiftLeft17Inv (w.s1 ^^^ w.s2)⟩ := rfl

theorem rotl_advance_s3 (w : Words) : rotl (advance w).s3 19 = w.s1 ^^^ w.s3 := by
  rw [advance_eq]
  exact rotl_rotl_cancel _ (by decide) (by decide) (by decide)

/-- `s0 ^ s2` is in both words and cancels. -/
theorem advance_s1_xor_s2 (w : Words) : (advance w).s1 ^^^ (advance w).s2 = xorShiftLeft17 w.s1 := by
  simp [advance_eq, xorShiftLeft17, BitVec.xor_assoc, BitVec.xor_comm, xor_left_comm]

theorem advance_s0_xor (w : Words) : (advance w).s0 ^^^ (w.s1 ^^^ w.s3) = w.s0 := by
  rw [advance_eq, BitVec.xor_assoc w.s0, xor_cancel_right]

theorem advance_s1_xor (w : Words) : (advance w).s1 ^^^ w.s0 ^^^ w.s1 = w.s2 := by
  rw [advance_eq, BitVec.xor_assoc _ w.s0, xor_xor_cancel_comm]

/-- The order of R107: `s1 ^ s3` and `s1` come from the new words alone, and the other words from these. -/
theorem advanceInv_advance (w : Words) : advanceInv (advance w) = w := by
  rw [advanceInv_eq, rotl_advance_s3, advance_s1_xor_s2, xorShiftLeft17Inv_xorShiftLeft17, advance_s0_xor,
    advance_s1_xor, xor_xor_cancel_comm]

/-- With `a3` as in R107 and `x` for its `s1`: each new word is an old one beside terms that cancel. -/
theorem advance_advanceInv (w : Words) : advance (advanceInv w) = w := by
  obtain ⟨s0, s1, s2, s3⟩ := w
  have hs3 : rotl (rotl s3 19) 45 = s3 := rotl_rotl_cancel s3 (by decide) (by decide) (by decide)
  have hs2 := xorShiftLeft17_xorShiftLeft17Inv (s1 ^^^ s2)
  rw [advance_eq, advanceInv_eq]
  generalize xorShiftLeft17Inv (s1 ^^^ s2) = x at *
  generalize rotl s3 19 = a3 at *
  rw [xorShiftLeft17] at hs2
  simp only [Words.mk.injEq]
  refine ⟨?_, ?_, ?_, ?_⟩
  · rw [BitVec.xor_assoc (s0 ^^^ a3), BitVec.xor_comm x, xor_cancel_right, xor_cancel_right]
  · rw [BitVec.xor_assoc s1, xor_xor_cancel_comm_assoc]
  · rw [BitVec.xor_comm s1, BitVec.xor_assoc _ s1, xor_cancel_left, BitVec.xor_assoc, hs2, xor_cancel_left]
  · rw [xor_xor_cancel_comm_assoc, hs3]

/-! ### NEXT_U64 as a command -/

theorem exec_nextU64_of_unfaulted {s : State} (h : s.fault = false) :
    exec .nextU64 s = .next (s.withDraw State.respondOk) :=
  congrArg Host.Outcome.next (State.unlessFaulted_of_unfaulted h _)

end Sys2Proof.Machine

namespace Sys2Proof.Proofs

open Sys2Proof.Machine

/-- Settles O6, by the two compositions of ADVANCE with its inverse. -/
theorem advanceIsABijection : Obligations.AdvanceIsABijection :=
  ⟨Function.bijective_iff_has_inverse.mpr ⟨advanceInv, advanceInv_advance, advance_advanceInv⟩, advanceInv_advance,
    advance_advanceInv⟩

/-- Settles O5: substitution gives the words, and the model's `rotl` is a rotation at both amounts. -/
theorem coreStepHasItsClosedForms : Obligations.CoreStepHasItsClosedForms := by
  intro w
  refine ⟨?_, ?_, ?_, ?_, rfl, ?_, fun v => rfl⟩
  · rw [advance_eq]
  · rw [advance_eq]
  · rw [advance_eq]
  · rw [advance_eq, rotl_eq_rotateLeft _ (by decide)]
  · rw [scramble, scramblePlusPlus, rotl_eq_rotateLeft _ (by decide)]

/-- Settles O12: with no fault set, NEXT_U64 is its one draw, and `withDraw` says what that leaves. -/
theorem nextReturnsOneDraw : Obligations.NextReturnsOneDraw := by
  intro s hf
  refine ⟨fun w hw => ?_, fun hnone => ?_⟩
  · rw [exec_nextU64_of_unfaulted hf, State.withDraw_of_some hw, State.respondOk_setWords]
  · rw [exec_nextU64_of_unfaulted hf, State.withDraw_of_none hnone, State.raise_eq_faulted hf, Cause.code]

end Sys2Proof.Proofs
end

section
/-! PROOFS. The debiased reducer: which draws it rejects, how many give each result, and BELOW with a power-of-two range
(spec/42_bounded_range.md). -/

namespace Sys2Proof.Machine

/-! ### Which draws REDUCE accepts -/

/-- `x - r` of R130 is the largest multiple of the range up to `x`: its subtraction does not wrap. -/
theorem toNat_sub_umod (x range : U64) : (x - x % range).toNat = x.toNat / range.toNat * range.toNat := by
  have hle : x % range ≤ x := by
    rw [BitVec.le_def, BitVec.toNat_umod]
    exact Nat.mod_le _ _
  rw [BitVec.toNat_sub_of_le hle, BitVec.toNat_umod, Nat.div_mul_self_eq_mod_sub_self]

/-- The wrapping test of R130: a draw is accepted when it is below the largest multiple of the range that is at most
`2^64` (R136). -/
theorem accepts_iff {range : U64} (hrange : range ≠ 0) (x : U64) :
    accepts range x = true ↔ x.toNat < 2 ^ 64 / range.toNat * range.toNat := by
  have hpos : 0 < range.toNat := BitVec.toNat_pos_of_ne_zero hrange
  calc accepts range x = true
      ↔ x.toNat / range.toNat * range.toNat ≤ 2 ^ 64 - range.toNat := by
        rw [accepts, decide_eq_true_iff, BitVec.le_def, toNat_sub_umod,
          BitVec.toNat_neg_of_pos ((BitVec.toNat_pos range).mp hpos)]
    _ ↔ (x.toNat / range.toNat + 1) * range.toNat ≤ 2 ^ 64 := by
        rw [Nat.succ_mul, Nat.le_sub_iff_add_le range.isLt.le]
    _ ↔ x.toNat < 2 ^ 64 / range.toNat * range.toNat := by
        rw [← Nat.le_div_iff_mul_le hpos, Nat.succ_le_iff, Nat.div_lt_iff_lt_mul hpos]

theorem accepts_eq_false_iff {range : U64} (hrange : range ≠ 0) (x : U64) :
    accepts range x = false ↔ 2 ^ 64 - 2 ^ 64 % range.toNat ≤ x.toNat := by
  rw [← Bool.not_eq_true, accepts_iff hrange, not_lt, Nat.div_mul_self_eq_mod_sub_self]

/-- A range that divides `2^64` accepts every draw (R135). -/
theorem accepts_of_dvd {range : U64} (hrange : range ≠ 0) (hdvd : range.toNat ∣ 2 ^ 64) (x : U64) :
    accepts range x = true := by
  rw [accepts_iff hrange, Nat.div_mul_cancel hdvd]
  exact x.isLt

/-! ### How many draws -/

/-- The draws with values in `A` are as many as `A` has elements. -/
theorem ncard_draws {A : Finset Nat} (hA : A ⊆ Finset.range (2 ^ 64)) : Set.ncard {x : U64 | x.toNat ∈ A} = A.card := by
  have hrange : (A : Set Nat) ⊆ Set.range (BitVec.toNat : U64 → Nat) := fun n hn =>
    ⟨BitVec.ofNatLT n (Finset.mem_range.mp (hA hn)), BitVec.toNat_ofNatLT n _⟩
  rw [← Set.ncard_coe_finset A]
  exact Set.ncard_preimage_of_injective_subset_range (fun _ _ => BitVec.eq_of_toNat_eq) hrange

theorem ncard_rejected {range : U64} (hrange : range ≠ 0) :
    Set.ncard {x : U64 | accepts range x = false} = 2 ^ 64 % range.toNat := by
  have hset : {x : U64 | accepts range x = false} =
      {x : U64 | x.toNat ∈ Finset.Ico (2 ^ 64 - 2 ^ 64 % range.toNat) (2 ^ 64)} := by
    ext x
    simp only [Set.mem_ofPred_eq, Finset.mem_Ico, accepts_eq_false_iff hrange, x.isLt, and_true]
  have hsub : Finset.Ico (2 ^ 64 - 2 ^ 64 % range.toNat) (2 ^ 64) ⊆ Finset.range (2 ^ 64) := fun n hn =>
    Finset.mem_range.mpr (Finset.mem_Ico.mp hn).2
  rw [hset, ncard_draws hsub, Nat.card_Ico, Nat.sub_sub_self (Nat.mod_le _ _)]

/-- Among the numbers below a multiple `q * n` of `n`, each remainder occurs `q` times. -/
theorem card_filter_mod_eq {n r : Nat} (q : Nat) (hr : r < n) :
    ((Finset.range (q * n)).filter (· % n = r)).card = q := by
  have hpos : 0 < n := Nat.zero_lt_of_lt hr
  have hcount := Nat.count_modEq_card (q * n) hpos r
  rw [Nat.count_eq_card_filter_range, Nat.mul_div_cancel _ hpos, Nat.mul_mod_left, if_neg (Nat.not_lt_zero _),
    add_zero] at hcount
  simpa only [Nat.ModEq, Nat.mod_eq_of_lt hr] using hcount

theorem ncard_accepted_with_result {range r : U64} (hrange : range ≠ 0) (hr : r < range) :
    Set.ncard {x : U64 | accepts range x = true ∧ x % range = r} = 2 ^ 64 / range.toNat := by
  have hset : {x : U64 | accepts range x = true ∧ x % range = r} =
      {x : U64 | x.toNat ∈
        (Finset.range (2 ^ 64 / range.toNat * range.toNat)).filter (· % range.toNat = r.toNat)} := by
    ext x
    simp only [Set.mem_ofPred_eq, Finset.mem_filter, Finset.mem_range, accepts_iff hrange, ← BitVec.toNat_inj,
      BitVec.toNat_umod]
  have hsub : (Finset.range (2 ^ 64 / range.toNat * range.toNat)).filter (· % range.toNat = r.toNat) ⊆
      Finset.range (2 ^ 64) :=
    (Finset.filter_subset _ _).trans (Finset.range_subset_range.mpr (Nat.div_mul_le_self _ _))
  rw [hset, ncard_draws hsub, card_filter_mod_eq _ hr]

/-! ### Powers of two -/

/-- The word `2^k` of R135, as BelowPowerOfTwoTakesOneDraw writes it. -/
theorem toNat_one_shiftLeft {k : Nat} (hk : k < 64) : ((1 <<< k : Nat) : U64).toNat = 2 ^ k := by
  have hlt : 1 <<< k < 2 ^ 64 := by
    rw [Nat.one_shiftLeft]
    exact Nat.pow_lt_pow_right (by decide) hk
  calc ((1 <<< k : Nat) : U64).toNat
      = 1 <<< k := Nat.mod_eq_of_lt hlt
    _ = 2 ^ k := Nat.one_shiftLeft k

section
variable {range : U64} {k : Nat} (hpow : range.toNat = 2 ^ k)
include hpow

theorem ne_zero_of_toNat_eq_two_pow : range ≠ 0 := by
  rintro rfl
  exact (Nat.two_pow_pos k).ne hpow

/-- The remainder by `2^k` is the low `k` bits. -/
theorem umod_of_toNat_eq_two_pow (x : U64) : x % range = x &&& (range - 1) := by
  have hone : 1 ≤ range := by
    rw [BitVec.le_def, hpow]
    exact Nat.one_le_two_pow
  refine BitVec.eq_of_toNat_eq ?_
  calc (x % range).toNat
      = x.toNat % 2 ^ k := by rw [BitVec.toNat_umod, hpow]
    _ = x.toNat &&& (2 ^ k - 1) := (Nat.and_two_pow_sub_one_eq_mod _ k).symm
    _ = (x &&& (range - 1)).toNat := by rw [BitVec.toNat_and, BitVec.toNat_sub_of_le hone, hpow]; rfl

/-- Every power of two that fits a word divides `2^64` (R135). -/
theorem accepts_of_toNat_eq_two_pow (x : U64) : accepts range x = true := by
  refine accepts_of_dvd (ne_zero_of_toNat_eq_two_pow hpow) ?_ x
  have hlt : k < 64 := (Nat.pow_lt_pow_iff_right (by decide)).mp (hpow ▸ range.isLt)
  rw [hpow]
  exact pow_dvd_pow 2 hlt.le

end

/-! ### REDUCE and BELOW as commands -/

theorem reduceIteration_of_accepts {v : Variant} {range : U64} {w : Words} (h : accepts range (scramble v w) = true) :
    reduceIteration v range w = .accept (scramble v w % range) (advance w) :=
  if_pos h

theorem exec_below_of_loaded {s : State} {w : Words} {range : U64} (hf : s.fault = false) (hw : s.words? = some w)
    (hrange : range ≠ 0) : exec (.below range) s = .next (runBelow range w s) := by
  have hexec : exec (.below range) s = execBelow range s := rfl
  rw [hexec, execBelow, State.unlessFaulted_of_unfaulted hf, if_neg hrange, State.withWords_of_some hw]

/-- The loop of BELOW ends with its first draw when that is accepted (R130). -/
theorem runBelow_of_first_draw_accepted {s : State} {w : Words} {range : U64}
    (h : accepts range (scramble s.params.variant w) = true) :
    runBelow range w s = s.completed (advance w) (scramble s.params.variant w % range) := by
  have hloop : iterate (reduceIteration s.params.variant range) Config.loopFuel w =
      .accept (scramble s.params.variant w % range) (advance w) :=
    iterate_accepts (next := advance) 0 Config.loopFuel w (by decide) (fun j hj => absurd hj (Nat.not_lt_zero j))
      (reduceIteration_of_accepts h)
  simp only [runBelow, State.runLoop, hloop, State.respondOk_setWords]

end Sys2Proof.Machine

namespace Sys2Proof.Proofs

open Sys2Proof.Machine

/-- Settles O15: the accepted draws are those below the largest multiple of the range up to 2^64, where each remainder
occurs equally often. -/
theorem everyResultHasEquallyManyDraws : Obligations.EveryResultHasEquallyManyDraws :=
  fun _ hrange => ⟨accepts_eq_false_iff hrange, ncard_rejected hrange, fun _ hr => ncard_accepted_with_result hrange hr⟩

/-- Settles O16: a power of two accepts every draw, so the loop ends with its first, and the remainder is a mask. -/
theorem belowPowerOfTwoTakesOneDraw : Obligations.BelowPowerOfTwoTakesOneDraw := by
  intro s w k hf hw hk
  have hpow := toNat_one_shiftLeft hk
  rw [exec_below_of_loaded hf hw (ne_zero_of_toNat_eq_two_pow hpow),
    runBelow_of_first_draw_accepted (accepts_of_toNat_eq_two_pow hpow _), umod_of_toNat_eq_two_pow hpow]

end Sys2Proof.Proofs
end

section
/-! PROOFS. Exact rounding and the encodings of floats (spec/00_scope.md R9, spec/43_float_conversion.md R160). -/

namespace Sys2Proof.Machine

/-! ### Values of a format -/

/-- `v` is the value `(-1)^neg * q`, in the canonical form the format holds it in. -/
def FloatFormat.isValue (f : FloatFormat) (neg : Bool) (q : ℚ) (v : FloatValue) : Prop :=
  ∃ (m : Nat) (e : Int), f.holds m e ∧ (m : ℚ) * 2 ^ e = q ∧ v = .finite neg m e

theorem FloatFormat.isValue.toRat? {f : FloatFormat} {q : ℚ} {v : FloatValue} (h : f.isValue false q v) :
    v.toRat? = some q := by
  obtain ⟨m, e, -, hval, rfl⟩ := h
  simp [FloatValue.toRat?, signed, hval]

/-- Doubling the significand until it fills the format, or the exponent is the least, makes it canonical. -/
theorem FloatFormat.exists_holds {f : FloatFormat} (hp : 0 < f.precision) (n k : Nat) (hk : k < 2 ^ f.precision)
    (hmax : f.minExp + n ≤ f.maxExp) :
    ∃ (m : Nat) (e : Int), f.holds m e ∧ (m : ℚ) * 2 ^ e = k * 2 ^ (f.minExp + n) := by
  induction n generalizing k with
  | zero => exact ⟨k, f.minExp, ⟨hk, le_rfl, by simpa using hmax, .inr rfl⟩, by simp⟩
  | succ n ih =>
    by_cases hfull : 2 ^ (f.precision - 1) ≤ k
    · exact ⟨k, f.minExp + (n + 1 : Nat), ⟨hk, by omega, hmax, .inl hfull⟩, rfl⟩
    · have hdouble : 2 ^ f.precision = 2 * 2 ^ (f.precision - 1) := (mul_pow_sub_one hp.ne' 2).symm
      obtain ⟨m, e, hholds, hval⟩ := ih (2 * k) (by omega) (by omega)
      refine ⟨m, e, hholds, hval.trans ?_⟩
      rw [Nat.cast_succ, ← add_assoc, zpow_add_one₀ two_ne_zero]
      push_cast
      ring

/-! ### Rounding a value of the format -/

theorem divNearestEven_mul_self (m : Nat) {den : Nat} (hden : 0 < den) : divNearestEven (m * den) den = m := by
  simp [divNearestEven, Nat.mul_div_cancel m hden, hden.ne]

theorem normalize_of_holds {f : FloatFormat} {m : Nat} {e : Int} (neg : Bool) (hholds : f.holds m e) :
    normalize f neg m e = .finite neg m e := by
  obtain ⟨hm, -, hmax, -⟩ := hholds
  simp [normalize, hm.ne, hmax.not_gt]

/-- In units of `2^e` the magnitude is the integer `m`. -/
theorem shiftLeft_eq_mul_shiftLeft {num den m : Nat} {exp e : Int} (hden : 0 < den)
    (hval : (num : ℚ) / den * 2 ^ exp = m * 2 ^ e) :
    num <<< (exp - e).toNat = m * den <<< (-(exp - e)).toNat := by
  have hden' : (den : ℚ) ≠ 0 := by exact_mod_cast hden.ne'
  have hpow : (2 : ℚ) ^ (exp - e).toNat * 2 ^ e = 2 ^ exp * 2 ^ (-(exp - e)).toNat := by
    rw [← zpow_natCast, ← zpow_natCast, ← zpow_add₀ two_ne_zero, ← zpow_add₀ two_ne_zero]
    congr 1
    omega
  have hmul : (num : ℚ) * 2 ^ exp = m * 2 ^ e * den := by
    rw [← hval]
    field_simp
  refine Nat.cast_injective (R := ℚ) (mul_right_cancel₀ (zpow_ne_zero e two_ne_zero) ?_)
  rw [Nat.shiftLeft_eq, Nat.shiftLeft_eq]
  push_cast
  linear_combination num * hpow + (2 : ℚ) ^ (-(exp - e)).toNat * hmul

section
variable {f : FloatFormat} {num den m : Nat} {exp e : Int} (hden : 0 < den) (hholds : f.holds m e)
  (hval : (num : ℚ) / den * 2 ^ exp = m * 2 ^ e)
include hden hholds hval

/-- The magnitude lies in the binade of `e`, or below it when `e` is the least exponent. -/
theorem unitExp_of_holds (hnum : 0 < num) : unitExp f num den exp = e := by
  obtain ⟨hm, hmin, -, hcanon⟩ := hholds
  obtain ⟨hlow, hhigh⟩ := floorLog2_spec hnum hden
  have hupper : floorLog2 num den + exp < f.precision + e := by
    refine (zpow_lt_zpow_iff_right₀ (one_lt_two (α := ℚ))).mp ?_
    calc (2 : ℚ) ^ (floorLog2 num den + exp)
        = 2 ^ floorLog2 num den * 2 ^ exp := zpow_add₀ two_ne_zero _ _
      _ ≤ num / den * 2 ^ exp := by gcongr
      _ = m * 2 ^ e := hval
      _ < 2 ^ f.precision * 2 ^ e := by gcongr; exact_mod_cast hm
      _ = 2 ^ (f.precision + e) := by rw [zpow_add₀ two_ne_zero, zpow_natCast]
  have hlower (hfull : 2 ^ (f.precision - 1) ≤ m) :
      ((f.precision - 1 : Nat) : Int) + e < floorLog2 num den + 1 + exp := by
    refine (zpow_lt_zpow_iff_right₀ (one_lt_two (α := ℚ))).mp ?_
    calc (2 : ℚ) ^ (((f.precision - 1 : Nat) : Int) + e)
        = 2 ^ (f.precision - 1) * 2 ^ e := by rw [zpow_add₀ two_ne_zero, zpow_natCast]
      _ ≤ m * 2 ^ e := by gcongr; exact_mod_cast hfull
      _ = num / den * 2 ^ exp := hval.symm
      _ < 2 ^ (floorLog2 num den + 1) * 2 ^ exp := by gcongr
      _ = 2 ^ (floorLog2 num den + 1 + exp) := (zpow_add₀ two_ne_zero _ _).symm
  rw [unitExp]
  obtain hfull | rfl := hcanon
  · have := hlower hfull
    omega
  · omega

/-- Rounding keeps a value of the format (R9). -/
theorem roundTo_of_holds (neg : Bool) (hnum : 0 < num) : roundTo f neg num den exp = .finite neg m e := by
  have hunit := unitExp_of_holds hden hholds hval hnum
  have hpos : 0 < den <<< (-(exp - e)).toNat := by rw [Nat.shiftLeft_eq]; positivity
  calc roundTo f neg num den exp
      = normalize f neg (divNearestEven (num <<< (exp - unitExp f num den exp).toNat)
          (den <<< (-(exp - unitExp f num den exp)).toNat)) (unitExp f num den exp) := if_neg hnum.ne'
    _ = normalize f neg m e := by
        rw [hunit, shiftLeft_eq_mul_shiftLeft hden hval, divNearestEven_mul_self m hpos]
    _ = .finite neg m e := normalize_of_holds neg hholds

end

/-! ### Operations whose exact result is a value of the format

Both formats of R9 satisfy `precision + 1 < bias`: the range of exponents holds 1, `2^-precision` and the grid of R161
and R162 well inside. -/

theorem FloatFormat.isValue_roundTo {f : FloatFormat} {num den k : Nat} {exp e : Int} (hp : 0 < f.precision)
    (hden : 0 < den) (hk : k < 2 ^ f.precision) (hmin : f.minExp ≤ e) (hmax : e ≤ f.maxExp)
    (hval : (num : ℚ) / den * 2 ^ exp = k * 2 ^ e) (neg : Bool) :
    f.isValue neg (k * 2 ^ e) (roundTo f neg num den exp) := by
  obtain rfl | hnum := num.eq_zero_or_pos
  · have hzero : (k : ℚ) * 2 ^ e = 0 := by rw [← hval]; simp
    rw [roundTo_zero, hzero]
    exact ⟨0, f.minExp, ⟨by positivity, le_rfl, hmin.trans hmax, .inr rfl⟩, by simp, rfl⟩
  · obtain ⟨n, rfl⟩ := Int.le.dest hmin
    obtain ⟨m, e, hholds, hm⟩ := f.exists_holds hp n k hk hmax
    exact ⟨m, e, hholds, hm, roundTo_of_holds hden hholds (hval.trans hm.symm) neg hnum⟩

/-- A product that is a value of the format is exact. -/
theorem FloatFormat.isValue_fmul {f : FloatFormat} {a b : FloatValue} {na nb : Bool} {x y : ℚ} {k : Nat} {e : Int}
    (hp : 0 < f.precision) (ha : f.isValue na x a) (hb : f.isValue nb y b) (hk : k < 2 ^ f.precision)
    (hmin : f.minExp ≤ e) (hmax : e ≤ f.maxExp) (hval : x * y = k * 2 ^ e) :
    f.isValue (na != nb) (x * y) (fmul f a b) := by
  obtain ⟨m, i, -, rfl, rfl⟩ := ha
  obtain ⟨m', i', -, rfl, rfl⟩ := hb
  rw [hval]
  refine f.isValue_roundTo hp one_pos hk hmin hmax ?_ _
  rw [← hval, zpow_add₀ two_ne_zero]
  push_cast
  ring

theorem isValue_powerOfTwo {f : FloatFormat} {e : Int} (hp : 0 < f.precision) (hmin : f.minExp ≤ e)
    (hmax : e ≤ f.maxExp) : f.isValue false (2 ^ e) (powerOfTwo f e) := by
  simpa [powerOfTwo] using f.isValue_roundTo (k := 1) hp one_pos (Nat.one_lt_two_pow hp.ne') hmin hmax (by simp) false

section
variable {f : FloatFormat} (hp : 0 < f.precision) (hbias : f.precision + 1 < f.bias)
include hp hbias

theorem isValue_intToFloat {k : Nat} (hk : k < 2 ^ f.precision) : f.isValue false k (intToFloat f k) := by
  have hmin : f.minExp ≤ 0 := by rw [FloatFormat.minExp]; omega
  have hmax : 0 ≤ f.maxExp := by rw [FloatFormat.maxExp]; omega
  simpa [intToFloat] using f.isValue_roundTo hp one_pos hk hmin hmax (by simp) false

/-- The conversion of R161 and R162 is exact: the integer, the power of two and their product are all values of the
format. -/
theorem isValue_scaledInt {k : Nat} (hk : k < 2 ^ f.precision) :
    f.isValue false (k / 2 ^ f.precision) (fmul f (intToFloat f k) (powerOfTwo f (-f.precision))) := by
  have hmin : f.minExp ≤ -f.precision := by rw [FloatFormat.minExp]; omega
  have hmax : -f.precision ≤ f.maxExp := by rw [FloatFormat.maxExp]; omega
  have hval : (k : ℚ) / 2 ^ f.precision = k * 2 ^ (-f.precision : Int) := by
    rw [zpow_neg, zpow_natCast, div_eq_mul_inv]
  rw [hval]
  exact f.isValue_fmul hp (isValue_intToFloat hp hbias hk) (isValue_powerOfTwo hp hmin hmax) hk hmin hmax rfl

end

/-! ### Encodings -/

/-- The exponent field follows the exponent; the top bit of a normal significand adds 1 to it. -/
theorem pack_finite_false (f : FloatFormat) (nan m : Nat) (e : Int) :
    pack f nan (.finite false m e) = (e - f.minExp).toNat * 2 ^ (f.precision - 1) + m := by
  simp [pack]

theorem FloatFormat.holds.topBit_le {f : FloatFormat} {m : Nat} {e : Int} (hholds : f.holds m e)
    (hexp : f.minExp < e) : 2 ^ (f.precision - 1) ≤ m := by
  obtain ⟨-, -, -, hcanon⟩ := hholds
  exact hcanon.resolve_right hexp.ne'

/-- A value with a greater exponent is greater: its significand has its top bit. -/
theorem value_lt_of_exp_lt {f : FloatFormat} {m m' : Nat} {e e' : Int} (hp : 0 < f.precision) (hholds : f.holds m e)
    (hholds' : f.holds m' e') (hexp : e < e') : (m : ℚ) * 2 ^ e < m' * 2 ^ e' := by
  obtain ⟨hm, hmin, -, -⟩ := hholds
  have hfull := hholds'.topBit_le (hmin.trans_lt hexp)
  calc (m : ℚ) * 2 ^ e
      < 2 ^ f.precision * 2 ^ e := by gcongr; exact_mod_cast hm
    _ = 2 ^ (f.precision - 1) * 2 ^ (e + 1) := by
        rw [← mul_pow_sub_one hp.ne' (2 : ℚ), zpow_add_one₀ two_ne_zero]; ring
    _ ≤ m' * 2 ^ e' := by
        gcongr
        · exact_mod_cast hfull
        · exact one_le_two
        · exact hexp

/-- The encodings of non-negative values are ordered as the values are. -/
theorem pack_lt_pack {f : FloatFormat} {q q' : ℚ} {v v' : FloatValue} (hp : 0 < f.precision)
    (hv : f.isValue false q v) (hv' : f.isValue false q' v') (hlt : q < q') (nan nan' : Nat) :
    pack f nan v < pack f nan' v' := by
  obtain ⟨m, e, hholds, rfl, rfl⟩ := hv
  obtain ⟨m', e', hholds', rfl, rfl⟩ := hv'
  rw [pack_finite_false, pack_finite_false]
  obtain hexp | rfl | hexp := lt_trichotomy e e'
  · obtain ⟨hm, hmin, -, -⟩ := hholds
    have hfull := hholds'.topBit_le (hmin.trans_lt hexp)
    have hstep : ((e - f.minExp).toNat + 1) * 2 ^ (f.precision - 1) ≤
        (e' - f.minExp).toNat * 2 ^ (f.precision - 1) := Nat.mul_le_mul_right _ (by omega)
    rw [← mul_pow_sub_one hp.ne' 2] at hm
    rw [Nat.succ_mul] at hstep
    omega
  · have hm : m < m' := by exact_mod_cast lt_of_mul_lt_mul_right hlt (zpow_nonneg zero_le_two e)
    omega
  · exact absurd hlt (value_lt_of_exp_lt hp hholds' hholds hexp).not_gt

/-- A code is below the sign bit when its exponent field is in range. -/
theorem code_lt {f : FloatFormat} {n r : Nat} (hp : 0 < f.precision) (hn : n < 2 ^ f.expBits)
    (hr : r < 2 ^ (f.precision - 1)) : n * 2 ^ (f.precision - 1) + r < 2 ^ (f.expBits + f.precision - 1) := by
  calc n * 2 ^ (f.precision - 1) + r
      < (n + 1) * 2 ^ (f.precision - 1) := by rw [Nat.succ_mul]; omega
    _ ≤ 2 ^ f.expBits * 2 ^ (f.precision - 1) := Nat.mul_le_mul_right _ hn
    _ = 2 ^ (f.expBits + f.precision - 1) := by rw [← pow_add, Nat.add_sub_assoc hp]

/-- The value of the code with exponent field `n` and fraction field `r`, the sign bit 0. -/
theorem unpack_code {f : FloatFormat} {n r : Nat} (hp : 0 < f.precision) (hn : n < 2 ^ f.expBits - 1)
    (hr : r < 2 ^ (f.precision - 1)) :
    unpack f (n * 2 ^ (f.precision - 1) + r) =
      if n = 0 then .finite false r f.minExp
      else .finite false (r + 2 ^ (f.precision - 1)) (f.minExp + n - 1) := by
  have hsign : (n * 2 ^ (f.precision - 1) + r).testBit (f.expBits + f.precision - 1) = false :=
    Nat.testBit_lt_two_pow (code_lt hp (by omega) hr)
  have hfield : (n * 2 ^ (f.precision - 1) + r) / 2 ^ (f.precision - 1) % 2 ^ f.expBits = n := by
    rw [add_comm, Nat.add_mul_div_right _ _ (by positivity), Nat.div_eq_of_lt hr, zero_add, Nat.mod_eq_of_lt (by omega)]
  have hfrac : (n * 2 ^ (f.precision - 1) + r) % 2 ^ (f.precision - 1) = r := by
    rw [add_comm, Nat.add_mul_mod_self_right, Nat.mod_eq_of_lt hr]
  simp only [unpack, hsign, hfield, hfrac, if_neg hn.ne]

section
variable {f : FloatFormat} {q : ℚ} {v : FloatValue} (hp : 0 < f.precision) (hexp : 0 < f.expBits)
  (hv : f.isValue false q v) (nan : Nat)
include hp hexp hv

/-- The fields of the encoding: a significand without its top bit has exponent field 0, any other drops that bit. -/
theorem exists_pack_eq_code : ∃ n r : Nat, n < 2 ^ f.expBits - 1 ∧ r < 2 ^ (f.precision - 1) ∧
    pack f nan v = n * 2 ^ (f.precision - 1) + r ∧
    v = if n = 0 then .finite false r f.minExp
      else .finite false (r + 2 ^ (f.precision - 1)) (f.minExp + n - 1) := by
  obtain ⟨m, e, ⟨hm, hmin, hmax, hcanon⟩, -, rfl⟩ := hv
  have hfields : 2 ^ f.expBits = 2 * (f.bias + 1) := by
    rw [FloatFormat.bias, Nat.sub_add_cancel Nat.one_le_two_pow, mul_pow_sub_one hexp.ne']
  rw [pack_finite_false]
  by_cases hfull : 2 ^ (f.precision - 1) ≤ m
  · obtain ⟨r, rfl⟩ := Nat.exists_eq_add_of_le' hfull
    obtain ⟨n, rfl⟩ := Int.le.dest hmin
    rw [← mul_pow_sub_one hp.ne' 2] at hm
    rw [FloatFormat.minExp, FloatFormat.maxExp] at hmax
    refine ⟨n + 1, r, by omega, by omega, ?_, ?_⟩
    · rw [add_sub_cancel_left, Int.toNat_natCast]
      ring
    · rw [if_neg n.succ_ne_zero, Nat.cast_succ, ← add_assoc, add_sub_cancel_right]
  · obtain rfl := hcanon.resolve_left hfull
    exact ⟨0, m, by omega, by omega, by simp, (if_pos rfl).symm⟩

/-- The sign bit is 0. -/
theorem pack_lt : pack f nan v < 2 ^ (f.expBits + f.precision - 1) := by
  obtain ⟨n, r, hn, hr, hcode, -⟩ := exists_pack_eq_code hp hexp hv nan
  rw [hcode]
  exact code_lt hp (by omega) hr

/-- Reading back the encoding of a non-negative value. -/
theorem unpack_pack : unpack f (pack f nan v) = v := by
  obtain ⟨n, r, hn, hr, hcode, hval⟩ := exists_pack_eq_code hp hexp hv nan
  rw [hcode, unpack_code hp hn hr, ← hval]

end

theorem toNat_f32Bits {q : ℚ} {v : FloatValue} (hv : binary32.isValue false q v) (nan : F32) :
    (f32Bits nan v).toNat = pack binary32 nan.toNat v :=
  Nat.mod_eq_of_lt ((pack_lt (by decide) (by decide) hv _).trans (by decide))

theorem toNat_f64Bits {q : ℚ} {v : FloatValue} (hv : binary64.isValue false q v) (nan : F64) :
    (f64Bits nan v).toNat = pack binary64 nan.toNat v :=
  Nat.mod_eq_of_lt ((pack_lt (by decide) (by decide) hv _).trans (by decide))

theorem f32Value_f32Bits {q : ℚ} {v : FloatValue} (hv : binary32.isValue false q v) (nan : F32) :
    f32Value (f32Bits nan v) = v := by
  rw [f32Value, toNat_f32Bits hv, unpack_pack (by decide) (by decide) hv]

theorem f64Value_f64Bits {q : ℚ} {v : FloatValue} (hv : binary64.isValue false q v) (nan : F64) :
    f64Value (f64Bits nan v) = v := by
  rw [f64Value, toNat_f64Bits hv, unpack_pack (by decide) (by decide) hv]

/-! ### NaN encodings -/

theorem unpack_eq_nan_iff {f : FloatFormat} {bits : Nat} :
    unpack f bits = .nan ↔
      bits / 2 ^ (f.precision - 1) % 2 ^ f.expBits = 2 ^ f.expBits - 1 ∧ bits % 2 ^ (f.precision - 1) ≠ 0 := by
  simp only [unpack]
  split_ifs with hexp hfrac hsub
  · simp [hfrac]
  · simp [hexp, hfrac]
  · simp [hexp]
  · simp [hexp]

/-- Setting more bits keeps the exponent field full and the fraction field nonzero. -/
theorem unpack_or_eq_nan {f : FloatFormat} {mask : Nat} (h : unpack f mask = .nan) (bits : Nat) :
    unpack f (bits ||| mask) = .nan := by
  obtain ⟨hexp, hfrac⟩ := unpack_eq_nan_iff.mp h
  refine unpack_eq_nan_iff.mpr ⟨?_, ?_⟩
  · rw [← Nat.shiftRight_eq_div_pow, Nat.shiftRight_or_distrib, Nat.or_mod_two_pow, Nat.shiftRight_eq_div_pow mask,
      hexp]
    have hlt : (bits >>> (f.precision - 1)) % 2 ^ f.expBits ||| (2 ^ f.expBits - 1) < 2 ^ f.expBits :=
      Nat.or_lt_two_pow (Nat.mod_lt _ (by positivity)) (Nat.sub_one_lt (by positivity))
    exact le_antisymm (Nat.le_sub_one_of_lt hlt) Nat.right_le_or
  · rw [Nat.or_mod_two_pow]
    exact (Nat.pos_of_ne_zero hfrac |>.trans_le Nat.right_le_or).ne'

theorem f32Value_nanFrom32 (draw : F32) : f32Value (nanFrom32 draw) = .nan := by
  unfold nanFrom32
  split
  next h => exact h
  next => rw [f32Value, BitVec.toNat_or]; exact unpack_or_eq_nan (by decide) _

theorem f64Value_nanFrom64 (draw : F64) : f64Value (nanFrom64 draw) = .nan := by
  unfold nanFrom64
  split
  next h => exact h
  next => rw [f64Value, BitVec.toNat_or]; exact unpack_or_eq_nan (by decide) _

end Sys2Proof.Machine
end

section
/-! PROOFS. The float uniform converter: the exact grid of U24 and U53, and the commands that return a float from one draw
(spec/43_float_conversion.md). -/

namespace Sys2Proof.Machine

/-! ### U24 and U53 are exact -/

theorem toNat_ushiftRight_lt (x : U64) {i j : Nat} (h : i + j = 64) : (x >>> i).toNat < 2 ^ j := by
  rw [BitVec.toNat_ushiftRight, Nat.shiftRight_eq_div_pow]
  exact Nat.div_lt_of_lt_mul (by rw [← pow_add, h]; exact x.isLt)

theorem isValue_u24 (x : U64) : binary32.isValue false ((x >>> 40).toNat / 2 ^ 24) (u24 x) :=
  isValue_scaledInt (by decide) (by decide) (toNat_ushiftRight_lt x (j := 24) rfl)

theorem isValue_u53 (x : U64) : binary64.isValue false ((x >>> 11).toNat / 2 ^ 53) (u53 x) :=
  isValue_scaledInt (by decide) (by decide) (toNat_ushiftRight_lt x (j := 53) rfl)

/-- The grid of R165: a natural numerator below `2^24`. -/
theorem u24_mem_grid (x : U64) : ∃ k : Nat, k < 2 ^ 24 ∧ (u24 x).toRat? = some ((k : ℚ) / 2 ^ 24) :=
  ⟨_, toNat_ushiftRight_lt x rfl, (isValue_u24 x).toRat?⟩

theorem u53_mem_grid (x : U64) : ∃ k : Nat, k < 2 ^ 53 ∧ (u53 x).toRat? = some ((k : ℚ) / 2 ^ 53) :=
  ⟨_, toNat_ushiftRight_lt x rfl, (isValue_u53 x).toRat?⟩

/-! ### Where the encodings of the grid lie -/

/-- A significand with its top bit alone is a power of two. -/
theorem isValue_topBit {f : FloatFormat} {e : Int} (hp : 0 < f.precision) (hmin : f.minExp ≤ e) (hmax : e ≤ f.maxExp) :
    f.isValue false (2 ^ (e + (f.precision - 1 : Nat))) (.finite false (2 ^ (f.precision - 1)) e) :=
  ⟨_, _, ⟨Nat.pow_lt_pow_right one_lt_two (Nat.sub_one_lt hp.ne'), hmin, hmax, .inl le_rfl⟩,
    by rw [Nat.cast_pow, Nat.cast_ofNat, zpow_add₀ two_ne_zero, zpow_natCast, mul_comm], rfl⟩

/-- Zero has only the least exponent. -/
theorem pack_of_value_zero {f : FloatFormat} {v : FloatValue} (hv : f.isValue false 0 v) (nan : Nat) :
    pack f nan v = 0 := by
  obtain ⟨m, e, ⟨-, -, -, hcanon⟩, hval, rfl⟩ := hv
  obtain rfl : m = 0 := by simpa [zpow_ne_zero] using hval
  obtain rfl : e = f.minExp := hcanon.resolve_left (by simp)
  simp [pack_finite_false]

section
variable {f : FloatFormat} {q : ℚ} {v : FloatValue} (hp : 0 < f.precision) (hbias : f.precision + 1 < f.bias)
  (hv : f.isValue false q v) (nan : Nat)
include hp hbias hv

/-- In the encoding of 1.0 the exponent field is the bias and the fraction field is 0. -/
theorem pack_lt_of_value_lt_one (hq : q < 1) : pack f nan v < f.bias * 2 ^ (f.precision - 1) := by
  have hone := isValue_topBit (e := 1 - f.precision) hp (by rw [FloatFormat.minExp]; omega)
    (by rw [FloatFormat.maxExp]; omega)
  have hq' : q < 2 ^ (1 - f.precision + (f.precision - 1 : Nat) : Int) := by
    rwa [Nat.cast_pred hp, sub_add_sub_cancel', sub_self, zpow_zero]
  calc pack f nan v
      < pack f nan (.finite false (2 ^ (f.precision - 1)) (1 - f.precision)) := pack_lt_pack hp hv hone hq' nan nan
    _ = (f.bias - 1) * 2 ^ (f.precision - 1) + 2 ^ (f.precision - 1) := by
        rw [pack_finite_false, FloatFormat.minExp]
        congr 2
        omega
    _ = f.bias * 2 ^ (f.precision - 1) := by rw [← Nat.succ_mul, Nat.succ_eq_add_one, Nat.sub_add_cancel (by omega)]

/-- In the encoding of the least normal number the exponent field is 1 and the fraction field is 0. -/
theorem le_pack_of_lt_value (hq : 2 ^ (1 - f.bias : Int) < q) : 2 ^ (f.precision - 1) ≤ pack f nan v := by
  have hnormal := isValue_topBit (e := f.minExp) hp le_rfl (by rw [FloatFormat.minExp, FloatFormat.maxExp]; omega)
  have hq' : 2 ^ (f.minExp + (f.precision - 1 : Nat) : Int) < q := by
    convert hq using 2
    rw [FloatFormat.minExp]
    omega
  calc 2 ^ (f.precision - 1)
      = pack f nan (.finite false (2 ^ (f.precision - 1)) f.minExp) := by simp [pack_finite_false]
    _ ≤ pack f nan v := (pack_lt_pack hp hnormal hv hq' nan nan).le

end

/-- The encoding of a grid point of R161 or R162: +0.0, or a normal number below 1.0. -/
theorem pack_grid_bounds {f : FloatFormat} {k : Nat} {v : FloatValue} (hp : 0 < f.precision)
    (hbias : f.precision + 1 < f.bias) (hk : k < 2 ^ f.precision) (hv : f.isValue false (k / 2 ^ f.precision) v)
    (nan : Nat) :
    (pack f nan v = 0 ∨ 2 ^ (f.precision - 1) ≤ pack f nan v) ∧ pack f nan v < f.bias * 2 ^ (f.precision - 1) := by
  refine ⟨?_, pack_lt_of_value_lt_one hp hbias hv nan ?_⟩
  · obtain rfl | hpos := k.eq_zero_or_pos
    · exact .inl (pack_of_value_zero (by simpa using hv) nan)
    · refine .inr (le_pack_of_lt_value hp hbias hv nan ?_)
      have hk1 : (1 : ℚ) ≤ k := by exact_mod_cast hpos
      calc (2 : ℚ) ^ (1 - f.bias : Int)
          < 2 ^ (-f.precision : Int) := zpow_lt_zpow_right₀ one_lt_two (by omega)
        _ = 1 / 2 ^ f.precision := by rw [zpow_neg, zpow_natCast, one_div]
        _ ≤ k / 2 ^ f.precision := by gcongr
  · rw [div_lt_one (by positivity)]
    exact_mod_cast hk

/-! ### How many draws give one grid point -/

theorem ncard_draws_with_top_bits {i j k : Nat} (h : i + j = 64) (hk : k < 2 ^ j) :
    Set.ncard {x : U64 | (x >>> i).toNat = k} = 2 ^ i := by
  have hset : {x : U64 | (x >>> i).toNat = k} = {x : U64 | x.toNat ∈ Finset.Ico (k * 2 ^ i) ((k + 1) * 2 ^ i)} := by
    ext x
    have hpos : 0 < 2 ^ i := Nat.two_pow_pos i
    rw [Set.mem_ofPred_eq, Set.mem_ofPred_eq, BitVec.toNat_ushiftRight, Nat.shiftRight_eq_div_pow, Finset.mem_Ico,
      Nat.div_eq_iff hpos, Nat.succ_mul]
    omega
  have hsub : Finset.Ico (k * 2 ^ i) ((k + 1) * 2 ^ i) ⊆ Finset.range (2 ^ 64) := fun n hn => by
    rw [← h, Finset.mem_range, pow_add, mul_comm]
    exact (Finset.mem_Ico.mp hn).2.trans_le (Nat.mul_le_mul_right _ hk)
  rw [hset, ncard_draws hsub, Nat.card_Ico, ← Nat.sub_mul, Nat.add_sub_cancel_left, one_mul]

/-- Two grid points are equal exactly when their numerators are. -/
theorem grid_inj {p a b : Nat} : (some ((a : ℚ) / 2 ^ p) = some ((b : ℚ) / 2 ^ p)) ↔ a = b := by
  rw [Option.some_inj, div_left_inj' (by positivity), Nat.cast_inj]

/-! ### The commands -/

theorem exec_float01_of_unfaulted {s : State} (h : s.fault = false) :
    exec .float01 s = .next (s.withDraw fun s x => s.respondF32 (u24 x)) :=
  congrArg Host.Outcome.next (State.unlessFaulted_of_unfaulted h _)

theorem exec_double01_of_unfaulted {s : State} (h : s.fault = false) :
    exec .double01 s = .next (s.withDraw fun s x => s.respondF64 (u53 x)) :=
  congrArg Host.Outcome.next (State.unlessFaulted_of_unfaulted h _)

theorem exec_floatInRange_of_unfaulted {s : State} (h : s.fault = false) (lower upper : F32) :
    exec (.floatInRange lower upper) s = .next (s.withDraw fun s x =>
      s.respondF32 (scaleToRange binary32 (f32Value lower) (f32Value upper) (u24 x))) :=
  congrArg Host.Outcome.next (State.unlessFaulted_of_unfaulted h _)

theorem exec_doubleInRange_of_unfaulted {s : State} (h : s.fault = false) (lower upper : F64) :
    exec (.doubleInRange lower upper) s = .next (s.withDraw fun s x =>
      s.respondF64 (scaleToRange binary64 (f64Value lower) (f64Value upper) (u53 x))) :=
  congrArg Host.Outcome.next (State.unlessFaulted_of_unfaulted h _)

/-- A one-draw command on an unloaded block raises UNSEEDED (R24, R243). -/
theorem State.withDraw_unseeded {s : State} (hf : s.fault = false) (hnone : s.words? = none)
    (finish : State → U64 → State) : s.withDraw finish = s.faulted 4 := by
  rw [State.withDraw_of_none hnone, State.raise_eq_faulted hf, Cause.code]

end Sys2Proof.Machine

namespace Sys2Proof.Proofs

open Sys2Proof.Machine

/-- Settles O25: U24 is exact, reading back its encoding gives it again, and encodings are ordered as the values are. -/
theorem float01ReturnsTheTopBitsScaled : Obligations.Float01ReturnsTheTopBitsScaled := by
  intro s hf
  rw [exec_float01_of_unfaulted hf]
  refine ⟨fun w hw => ?_, fun hnone => congrArg _ (State.withDraw_unseeded hf hnone _)⟩
  have hv := isValue_u24 (scramble s.params.variant w)
  obtain ⟨hnormal, hone⟩ := pack_grid_bounds (by decide) (by decide) (toNat_ushiftRight_lt _ rfl) hv
    (nanFrom32 (Config.nanDraw32 s.freeIndex)).toNat
  rw [← toNat_f32Bits hv] at hnormal hone
  refine ⟨_, ?_, (congrArg _ (f32Value_f32Bits hv _)).trans hv.toRat?, hnormal.imp_left BitVec.eq_of_toNat_eq, hone⟩
  rw [State.withDraw_of_some hw, State.respondF32_setWords, f32Result]

/-- Settles O26, as O25. -/
theorem double01ReturnsTheTopBitsScaled : Obligations.Double01ReturnsTheTopBitsScaled := by
  intro s hf
  rw [exec_double01_of_unfaulted hf]
  refine ⟨fun w hw => ?_, fun hnone => congrArg _ (State.withDraw_unseeded hf hnone _)⟩
  have hv := isValue_u53 (scramble s.params.variant w)
  obtain ⟨hnormal, hone⟩ := pack_grid_bounds (by decide) (by decide) (toNat_ushiftRight_lt _ rfl) hv
    (nanFrom64 (Config.nanDraw64 s.freeIndex)).toNat
  rw [← toNat_f64Bits hv] at hnormal hone
  refine ⟨_, ?_, (congrArg _ (f64Value_f64Bits hv _)).trans hv.toRat?, hnormal.imp_left BitVec.eq_of_toNat_eq, hone⟩
  rw [State.withDraw_of_some hw, State.respondF64_setWords, f64Result]

/-- Settles O27: a draw gives the grid point of its top bits, which leave the other 40 or 11 free. The statement's last
two clauses take the numerator from the rationals; `u24_mem_grid` and `u53_mem_grid` give it as a natural number. -/
theorem uniformGridPointsAreEquallyLikely : Obligations.UniformGridPointsAreEquallyLikely := by
  refine ⟨fun k hk => ?_, fun k hk => ?_, fun x => ?_, fun x => ?_⟩
  · simp only [(isValue_u24 _).toRat?, grid_inj]
    exact ncard_draws_with_top_bits rfl hk
  · simp only [(isValue_u53 _).toRat?, grid_inj]
    exact ncard_draws_with_top_bits rfl hk
  · obtain ⟨k, hk, hval⟩ := u24_mem_grid x
    exact ⟨k, mod_cast hk, hval⟩
  · obtain ⟨k, hk, hval⟩ := u53_mem_grid x
    exact ⟨k, mod_cast hk, hval⟩

/-- Settles O28: the command is its one draw and R166's formula, and the encoding kept for a NaN result is a NaN. -/
theorem floatInRangeReturnsTheScaledDraw : Obligations.FloatInRangeReturnsTheScaledDraw := by
  intro s lower upper hf
  rw [exec_floatInRange_of_unfaulted hf]
  refine ⟨fun w hw => ⟨_, f32Value_nanFrom32 (Config.nanDraw32 s.freeIndex), ?_⟩,
    fun hnone => congrArg _ (State.withDraw_unseeded hf hnone _)⟩
  rw [State.withDraw_of_some hw, State.respondF32_setWords, scaleToRange, f32Result]

/-- Settles O29, as O28. -/
theorem doubleInRangeReturnsTheScaledDraw : Obligations.DoubleInRangeReturnsTheScaledDraw := by
  intro s lower upper hf
  rw [exec_doubleInRange_of_unfaulted hf]
  refine ⟨fun w hw => ⟨_, f64Value_nanFrom64 (Config.nanDraw64 s.freeIndex), ?_⟩,
    fun hnone => congrArg _ (State.withDraw_unseeded hf hnone _)⟩
  rw [State.withDraw_of_some hw, State.respondF64_setWords, scaleToRange, f64Result]

end Sys2Proof.Proofs
end

section
/-! PROOFS. The signs of float values: exact sums, comparisons, and when an encoding is 0 (spec/00_scope.md R9). -/

namespace Sys2Proof.Machine

/-! ### Values with a sign -/

theorem signed_cast (neg : Bool) (m : Nat) : (signed neg m : ℚ) = if neg then -(m : ℚ) else m := by
  cases neg with
  | false => simp [signed]
  | true => simp [signed]

theorem FloatValue.toRat?_eq_some_iff {v : FloatValue} {q : ℚ} :
    v.toRat? = some q ↔ ∃ neg m e, v = .finite neg m e ∧ (signed neg m : ℚ) * 2 ^ e = q := by
  cases v with
  | nan => simp [FloatValue.toRat?]
  | inf neg => simp [FloatValue.toRat?]
  | finite neg m e => simp [FloatValue.toRat?]

/-- A value held as its sign and its magnitude, a zero as +0. -/
theorem FloatFormat.isValue.toRat?_abs {f : FloatFormat} {q : ℚ} {v : FloatValue}
    (h : f.isValue (decide (q < 0)) |q| v) : v.toRat? = some q := by
  obtain ⟨m, e, -, hval, rfl⟩ := h
  refine FloatValue.toRat?_eq_some_iff.mpr ⟨_, m, e, rfl, ?_⟩
  obtain hneg | hnonneg := lt_or_ge q 0
  · rw [signed_cast, if_pos (decide_eq_true hneg), neg_mul, hval, abs_of_neg hneg, neg_neg]
  · rw [signed_cast, if_neg (by simpa using hnonneg), hval, abs_of_nonneg hnonneg]

theorem FloatFormat.isValue.toRat?_negate {f : FloatFormat} {q : ℚ} {v : FloatValue} (h : f.isValue false q v) :
    v.negate.toRat? = some (-q) := by
  obtain ⟨m, e, -, rfl, rfl⟩ := h
  simp [FloatValue.negate, FloatValue.toRat?, signed]

theorem alignedTo_mul_zpow {base exp : Int} (h : base ≤ exp) (neg : Bool) (m : Nat) :
    (alignedTo base neg m exp : ℚ) * 2 ^ base = signed neg m * 2 ^ exp := by
  obtain ⟨n, rfl⟩ := Int.le.dest h
  have hshift : ((m <<< n : Nat) : ℚ) * 2 ^ base = m * 2 ^ (base + n) := by
    rw [Nat.shiftLeft_eq, zpow_add₀ two_ne_zero, zpow_natCast]
    push_cast
    ring
  rw [alignedTo, signed_cast, signed_cast, add_sub_cancel_left, Int.toNat_natCast]
  cases neg with
  | false => exact hshift
  | true => simp only [if_true, neg_mul, hshift]

/-! ### Sums and comparisons -/

/-- A sum is rounded once from its exact value; with a left operand that has no sign bit, a zero sum is +0. -/
theorem fadd_eq_roundTo {f : FloatFormat} {a b : FloatValue} {x y : ℚ} (ha : f.isValue false x a)
    (hb : b.toRat? = some y) :
    ∃ (num : Nat) (exp : Int), fadd f a b = roundTo f (decide (x + y < 0)) num 1 exp ∧
      (num : ℚ) / (1 : Nat) * 2 ^ exp = |x + y| := by
  obtain ⟨m, i, -, rfl, rfl⟩ := ha
  obtain ⟨neg, m', i', rfl, rfl⟩ := FloatValue.toRat?_eq_some_iff.mp hb
  have hpos : (0 : ℚ) < 2 ^ min i i' := by positivity
  have hsum : ((alignedTo (min i i') false m i + alignedTo (min i i') neg m' i' : Int) : ℚ) * 2 ^ min i i' =
      m * 2 ^ i + signed neg m' * 2 ^ i' := by
    rw [Int.cast_add, add_mul, alignedTo_mul_zpow (min_le_left i i'), alignedTo_mul_zpow (min_le_right i i'),
      signed_cast]
    simp
  refine ⟨(alignedTo (min i i') false m i + alignedTo (min i i') neg m' i').natAbs, min i i', ?_, ?_⟩
  · simp only [fadd]
    generalize alignedTo (min i i') false m i + alignedTo (min i i') neg m' i' = sum at *
    have hneg : (m : ℚ) * 2 ^ i + signed neg m' * 2 ^ i' < 0 ↔ sum < 0 := by
      rw [← hsum, lt_iff_lt_of_le_iff_le (mul_nonneg_iff_of_pos_right hpos), Int.cast_lt_zero]
    rw [decide_eq_decide.mpr hneg]
    congr 1
    split
    next hzero => simp [hzero]
    next => rfl
  · rw [← hsum, abs_mul, abs_of_pos hpos, Nat.cast_one, div_one, Nat.cast_natAbs, Int.cast_abs]

/-- A sum that is a value of the format is exact. -/
theorem isValue_fadd {f : FloatFormat} {a b : FloatValue} {x y : ℚ} {k : Nat} {e : Int} (hp : 0 < f.precision)
    (ha : f.isValue false x a) (hb : b.toRat? = some y) (hk : k < 2 ^ f.precision) (hmin : f.minExp ≤ e)
    (hmax : e ≤ f.maxExp) (hval : |x + y| = k * 2 ^ e) :
    f.isValue (decide (x + y < 0)) |x + y| (fadd f a b) := by
  obtain ⟨num, exp, hround, hexact⟩ := fadd_eq_roundTo ha hb
  rw [hround, hval]
  exact f.isValue_roundTo hp one_pos hk hmin hmax (hexact.trans hval) _

/-- Finite floats compare as the rationals they stand for. -/
theorem fcompare_of_toRat? {a b : FloatValue} {x y : ℚ} (ha : a.toRat? = some x) (hb : b.toRat? = some y) :
    fcompare a b = some (compare x y) := by
  obtain ⟨n, m, i, rfl, rfl⟩ := FloatValue.toRat?_eq_some_iff.mp ha
  obtain ⟨n', m', i', rfl, rfl⟩ := FloatValue.toRat?_eq_some_iff.mp hb
  have hmono : StrictMono fun j : Int => (j : ℚ) * 2 ^ min i i' :=
    Int.cast_strictMono.mul_const (by positivity)
  rw [fcompare, ← alignedTo_mul_zpow (min_le_left i i'), ← alignedTo_mul_zpow (min_le_right i i'), ← cmp_eq_compare,
    ← cmp_eq_compare]
  exact congrArg some (hmono.cmp_map_eq _ _).symm

theorem fge_iff {a b : FloatValue} {x y : ℚ} (ha : a.toRat? = some x) (hb : b.toRat? = some y) :
    fge a b = true ↔ y ≤ x := by
  simp [fge, fcompare_of_toRat? ha hb, compare_gt_iff_gt, le_iff_lt_or_eq, eq_comm (a := y)]

theorem feq_iff {a b : FloatValue} {x y : ℚ} (ha : a.toRat? = some x) (hb : b.toRat? = some y) :
    feq a b = true ↔ x = y := by
  simp [feq, fcompare_of_toRat? ha hb]

/-! ### Encodings with a sign -/

/-- The sign bit stands above the encoding of the magnitude. -/
theorem pack_finite (f : FloatFormat) (nan : Nat) (neg : Bool) (m : Nat) (e : Int) :
    pack f nan (.finite neg m e) =
      neg.toNat * 2 ^ (f.expBits + f.precision - 1) + pack f nan (.finite false m e) := by
  simp [pack]

section
variable {f : FloatFormat} {neg : Bool} {q : ℚ} {v : FloatValue} (hv : f.isValue neg q v) (nan : Nat)
include hv

theorem pack_lt_two_pow (hp : 0 < f.precision) (hexp : 0 < f.expBits) :
    pack f nan v < 2 ^ (f.expBits + f.precision) := by
  obtain ⟨m, e, hholds, hval, rfl⟩ := hv
  have hmag := pack_lt hp hexp ⟨m, e, hholds, hval, rfl⟩ nan
  have hsign : neg.toNat * 2 ^ (f.expBits + f.precision - 1) ≤ 1 * 2 ^ (f.expBits + f.precision - 1) :=
    Nat.mul_le_mul_right _ neg.toNat_le
  have hdouble := mul_pow_sub_one (show f.expBits + f.precision ≠ 0 by omega) 2
  rw [pack_finite]
  omega

/-- The only value encoded as 0 is +0: any other has its sign bit set or a nonzero significand. -/
theorem pack_eq_zero_iff : pack f nan v = 0 ↔ neg = false ∧ q = 0 := by
  constructor
  · intro hzero
    obtain ⟨m, e, -, rfl, rfl⟩ := hv
    rw [pack_finite, pack_finite_false, Nat.add_eq_zero_iff, Nat.add_eq_zero_iff, Nat.mul_eq_zero] at hzero
    obtain ⟨hsign, -, rfl⟩ := hzero
    exact ⟨by simpa using hsign, by simp⟩
  · rintro ⟨rfl, rfl⟩
    exact pack_of_value_zero hv nan

end

theorem f32Bits_eq_zero_iff {q : ℚ} {v : FloatValue} (hv : binary32.isValue (decide (q < 0)) |q| v) (nan : F32) :
    f32Bits nan v = 0 ↔ q = 0 := by
  have hbits : (f32Bits nan v).toNat = pack binary32 nan.toNat v :=
    Nat.mod_eq_of_lt (pack_lt_two_pow hv _ (by decide) (by decide))
  rw [← BitVec.toNat_inj, hbits]
  exact (pack_eq_zero_iff hv _).trans ⟨fun h => abs_eq_zero.mp h.2, fun h => by simp [h]⟩

theorem f64Bits_eq_zero_iff {q : ℚ} {v : FloatValue} (hv : binary64.isValue (decide (q < 0)) |q| v) (nan : F64) :
    f64Bits nan v = 0 ↔ q = 0 := by
  have hbits : (f64Bits nan v).toNat = pack binary64 nan.toNat v :=
    Nat.mod_eq_of_lt (pack_lt_two_pow hv _ (by decide) (by decide))
  rw [← BitVec.toNat_inj, hbits]
  exact (pack_eq_zero_iff hv _).trans ⟨fun h => abs_eq_zero.mp h.2, fun h => by simp [h]⟩

end Sys2Proof.Machine
end

section
/-! PROOFS. Rounding keeps the order to the powers of two: what R195 needs of two products and a sum that need not be
exact (spec/00_scope.md R9, spec/44_gaussian.md R195). -/

namespace Sys2Proof.Machine

/-! ### The rounded significand -/

theorem le_divNearestEven {m num den : Nat} (hden : 0 < den) (h : m * den ≤ num) : m ≤ divNearestEven num den := by
  obtain ⟨hnear, -, -⟩ := divNearestEven_spec num hden
  have hlt : m * den < (divNearestEven num den + 1) * den := by rw [Nat.succ_mul]; omega
  exact Nat.le_of_lt_succ (Nat.lt_of_mul_lt_mul_right hlt)

theorem divNearestEven_le {m num den : Nat} (hden : 0 < den) (h : num ≤ m * den) : divNearestEven num den ≤ m := by
  obtain ⟨-, hnear, -⟩ := divNearestEven_spec num hden
  have hlt : divNearestEven num den * den < (m + 1) * den := by rw [Nat.succ_mul]; omega
  exact Nat.le_of_lt_succ (Nat.lt_of_mul_lt_mul_right hlt)

/-- The significand `roundTo` gives the exact magnitude `num / den * 2^exp` in units of `2^e`. -/
def significandAt (num den : Nat) (exp e : Int) : Nat :=
  divNearestEven (num <<< (exp - e).toNat) (den <<< (-(exp - e)).toNat)

theorem roundTo_eq_normalize {num : Nat} (hnum : 0 < num) (f : FloatFormat) (neg : Bool) (den : Nat) (exp : Int) :
    roundTo f neg num den exp =
      normalize f neg (significandAt num den exp (unitExp f num den exp)) (unitExp f num den exp) :=
  if_neg hnum.ne'

section
variable {num den : Nat} {exp : Int} {x : ℚ} (hden : 0 < den) (hx : (num : ℚ) / den * 2 ^ exp = x)
include hden hx

theorem shiftLeft_mul_zpow (e : Int) :
    ((num <<< (exp - e).toNat : Nat) : ℚ) * 2 ^ e = x * (den <<< (-(exp - e)).toNat : Nat) := by
  have hden' : (den : ℚ) ≠ 0 := by exact_mod_cast hden.ne'
  have hpow : (2 : ℚ) ^ (exp - e).toNat * 2 ^ e = 2 ^ exp * 2 ^ (-(exp - e)).toNat := by
    rw [← zpow_natCast, ← zpow_natCast, ← zpow_add₀ two_ne_zero, ← zpow_add₀ two_ne_zero]
    congr 1
    omega
  rw [← hx, Nat.shiftLeft_eq, Nat.shiftLeft_eq]
  push_cast
  field_simp
  linear_combination (num : ℚ) * hpow

theorem le_significandAt {m : Nat} {e : Int} (h : (m : ℚ) * 2 ^ e ≤ x) : m ≤ significandAt num den exp e := by
  refine le_divNearestEven (by rw [Nat.shiftLeft_eq]; positivity) ?_
  have hmul := mul_le_mul_of_nonneg_right h (Nat.cast_nonneg (den <<< (-(exp - e)).toNat))
  rw [← shiftLeft_mul_zpow hden hx, mul_right_comm] at hmul
  exact_mod_cast le_of_mul_le_mul_right hmul (by positivity)

theorem significandAt_le {m : Nat} {e : Int} (h : x ≤ (m : ℚ) * 2 ^ e) : significandAt num den exp e ≤ m := by
  refine divNearestEven_le (by rw [Nat.shiftLeft_eq]; positivity) ?_
  have hmul := mul_le_mul_of_nonneg_right h (Nat.cast_nonneg (den <<< (-(exp - e)).toNat))
  rw [← shiftLeft_mul_zpow hden hx, mul_right_comm] at hmul
  exact_mod_cast le_of_mul_le_mul_right hmul (by positivity)

/-- Above the least exponent, the magnitude has the top bit of the significand. -/
theorem topBit_le_of_minExp_lt_unitExp {f : FloatFormat} (hp : 0 < f.precision) (hnum : 0 < num)
    (hexp : f.minExp < unitExp f num den exp) :
    ((2 ^ (f.precision - 1) : Nat) : ℚ) * 2 ^ unitExp f num den exp ≤ x := by
  obtain ⟨hlow, -⟩ := floorLog2_spec hnum hden
  have hunit : ((f.precision - 1 : Nat) : Int) + unitExp f num den exp = floorLog2 num den + exp := by
    rw [unitExp] at hexp ⊢
    omega
  calc ((2 ^ (f.precision - 1) : Nat) : ℚ) * 2 ^ unitExp f num den exp
      = 2 ^ floorLog2 num den * 2 ^ exp := by
        rw [Nat.cast_pow, Nat.cast_ofNat, ← zpow_natCast, ← zpow_add₀ two_ne_zero, hunit, zpow_add₀ two_ne_zero]
    _ ≤ num / den * 2 ^ exp := by gcongr
    _ = x := hx

theorem lt_two_pow_precision_mul_unit (f : FloatFormat) (hnum : 0 < num) :
    x < ((2 ^ f.precision : Nat) : ℚ) * 2 ^ unitExp f num den exp := by
  obtain ⟨-, hhigh⟩ := floorLog2_spec hnum hden
  calc x = num / den * 2 ^ exp := hx.symm
    _ < 2 ^ (floorLog2 num den + 1) * 2 ^ exp := by gcongr
    _ = 2 ^ (floorLog2 num den + 1 + exp) := (zpow_add₀ two_ne_zero _ _).symm
    _ ≤ 2 ^ (f.precision + unitExp f num den exp) := by
        refine zpow_le_zpow_right₀ one_le_two ?_
        rw [unitExp]
        omega
    _ = ((2 ^ f.precision : Nat) : ℚ) * 2 ^ unitExp f num den exp := by
        rw [zpow_add₀ two_ne_zero, zpow_natCast, Nat.cast_pow, Nat.cast_ofNat]

end

/-- A canonical significand, or one that carries out of the top bit, keeps its value when it stays below a power of two
the format reaches. -/
theorem isValue_normalize {f : FloatFormat} {m : Nat} {e b : Int} (hp : 0 < f.precision) (neg : Bool)
    (hm : m ≤ 2 ^ f.precision) (hmin : f.minExp ≤ e) (htop : f.minExp < e → 2 ^ (f.precision - 1) ≤ m)
    (hb : (m : ℚ) * 2 ^ e ≤ 2 ^ b) (heb : e ≤ b) (hmax : b ≤ f.maxExp) :
    f.isValue neg (m * 2 ^ e) (normalize f neg m e) := by
  obtain hlt | rfl := hm.lt_or_eq
  · have hholds : f.holds m e :=
      ⟨hlt, hmin, heb.trans hmax, hmin.lt_or_eq.imp htop Eq.symm⟩
    exact ⟨m, e, hholds, rfl, normalize_of_holds neg hholds⟩
  · have hexp : e + f.precision ≤ b := by
      refine (zpow_le_zpow_iff_right₀ (one_lt_two (α := ℚ))).mp (le_trans (le_of_eq ?_) hb)
      rw [zpow_add₀ two_ne_zero, zpow_natCast, mul_comm]
      push_cast
      rfl
    refine ⟨2 ^ (f.precision - 1), e + 1, ⟨?_, by omega, by omega, .inl le_rfl⟩, ?_, ?_⟩
    · exact Nat.pow_lt_pow_right one_lt_two (Nat.sub_one_lt hp.ne')
    · rw [← mul_pow_sub_one hp.ne' 2, zpow_add_one₀ two_ne_zero]
      push_cast
      ring
    · simp [normalize, show ¬ f.maxExp < e + 1 by omega]

/-! ### Zero or within two powers of two -/

theorem exists_two_zpow_eq_mul {e a : Int} (h : e ≤ a) : ∃ n : Nat, (2 : ℚ) ^ a = (2 ^ n : Nat) * 2 ^ e := by
  obtain ⟨n, rfl⟩ := Int.le.dest h
  exact ⟨n, by rw [zpow_add₀ two_ne_zero, zpow_natCast, mul_comm, Nat.cast_pow, Nat.cast_ofNat]⟩

/-- `x` is zero or lies in `[2^a, 2^b]`. -/
def IsZeroOrWithin (a b : Int) (x : ℚ) : Prop := x = 0 ∨ 2 ^ a ≤ x ∧ x ≤ 2 ^ b

theorem IsZeroOrWithin.le {a b : Int} {x : ℚ} (h : IsZeroOrWithin a b x) : x ≤ 2 ^ b := by
  obtain rfl | ⟨-, hb⟩ := h
  · positivity
  · exact hb

theorem IsZeroOrWithin.nonneg {a b : Int} {x : ℚ} (h : IsZeroOrWithin a b x) : 0 ≤ x := by
  obtain rfl | ⟨ha, -⟩ := h
  · exact le_rfl
  · exact le_trans (by positivity) ha

theorem IsZeroOrWithin.le_iff_ne_zero {a b : Int} {x : ℚ} (h : IsZeroOrWithin a b x) : 2 ^ a ≤ x ↔ x ≠ 0 := by
  obtain rfl | ⟨ha, -⟩ := h
  · simp [zpow_pos]
  · have hpos : (0 : ℚ) < 2 ^ a := by positivity
    exact iff_of_true ha (hpos.trans_le ha).ne'

theorem IsZeroOrWithin.add {a b : Int} {x y : ℚ} (hx : IsZeroOrWithin a b x) (hy : IsZeroOrWithin a b y) :
    IsZeroOrWithin a (b + 1) (x + y) := by
  have hupper : x + y ≤ 2 ^ (b + 1) := by
    rw [zpow_add_one₀ two_ne_zero, mul_two]
    exact add_le_add hx.le hy.le
  obtain rfl | ⟨ha, -⟩ := id hx
  · obtain rfl | ⟨ha, -⟩ := hy
    · exact .inl (add_zero 0)
    · exact .inr ⟨by rwa [zero_add], hupper⟩
  · exact .inr ⟨ha.trans (le_add_of_nonneg_right hy.nonneg), hupper⟩

section
variable {f : FloatFormat} {num den : Nat} {exp a b : Int} {x : ℚ} (hp : 0 < f.precision) (hden : 0 < den)
  (hx : (num : ℚ) / den * 2 ^ exp = x) (hmin : f.minExp ≤ a)
include hp hden hx hmin

theorem two_zpow_le_rounded (hnum : 0 < num) (ha : 2 ^ a ≤ x) :
    (2 : ℚ) ^ a ≤ significandAt num den exp (unitExp f num den exp) * 2 ^ unitExp f num den exp := by
  obtain hle | hlt := le_or_gt (unitExp f num den exp) a
  · obtain ⟨n, hpow⟩ := exists_two_zpow_eq_mul hle
    have hsig := le_significandAt hden hx (hpow ▸ ha)
    rw [hpow]
    gcongr
  · have hsig := le_significandAt hden hx (topBit_le_of_minExp_lt_unitExp hden hx hp hnum (hmin.trans_lt hlt))
    have hone : (1 : ℚ) ≤ significandAt num den exp (unitExp f num den exp) := by
      exact_mod_cast Nat.one_le_two_pow.trans hsig
    calc (2 : ℚ) ^ a ≤ 2 ^ unitExp f num den exp := zpow_le_zpow_right₀ one_le_two hlt.le
      _ ≤ significandAt num den exp (unitExp f num den exp) * 2 ^ unitExp f num den exp :=
        le_mul_of_one_le_left (by positivity) hone

theorem unitExp_le_of_le_two_zpow (hnum : 0 < num) (hb : x ≤ 2 ^ a) : unitExp f num den exp ≤ a := by
  by_contra! hlt
  have htop := (topBit_le_of_minExp_lt_unitExp hden hx hp hnum (hmin.trans_lt hlt)).trans hb
  have hone : (1 : ℚ) ≤ (2 ^ (f.precision - 1) : Nat) := by exact_mod_cast Nat.one_le_two_pow
  exact absurd ((le_mul_of_one_le_left (by positivity) hone).trans htop)
    (zpow_lt_zpow_right₀ one_lt_two hlt).not_ge

theorem rounded_le_two_zpow (hnum : 0 < num) (hb : x ≤ 2 ^ a) :
    (significandAt num den exp (unitExp f num den exp) : ℚ) * 2 ^ unitExp f num den exp ≤ 2 ^ a := by
  obtain ⟨n, hpow⟩ := exists_two_zpow_eq_mul (unitExp_le_of_le_two_zpow hp hden hx hmin hnum hb)
  have hsig := significandAt_le hden hx (hpow ▸ hb)
  rw [hpow]
  gcongr

/-- Rounding leaves a zero zero and keeps a magnitude within the same two powers of two (R195). -/
theorem exists_isValue_roundTo (hab : a ≤ b) (hmax : b ≤ f.maxExp) (hwithin : IsZeroOrWithin a b x) (neg : Bool) :
    ∃ q, f.isValue neg q (roundTo f neg num den exp) ∧ IsZeroOrWithin a b q ∧ (q = 0 ↔ x = 0) := by
  obtain rfl | hnum := num.eq_zero_or_pos
  · have hzero : x = 0 := by rw [← hx]; simp
    exact ⟨0, ⟨0, f.minExp, ⟨by positivity, le_rfl, by omega, .inr rfl⟩, by simp, roundTo_zero f neg den exp⟩,
      .inl rfl, iff_of_true rfl hzero⟩
  · have hpos : 0 < x := by rw [← hx]; positivity
    obtain ⟨ha, hb⟩ := hwithin.resolve_left hpos.ne'
    have hmin' := hmin.trans hab
    have hlow := two_zpow_le_rounded hp hden hx hmin hnum ha
    have hhigh := rounded_le_two_zpow hp hden hx hmin' hnum hb
    have hvalue := isValue_normalize hp neg
      (significandAt_le hden hx (lt_two_pow_precision_mul_unit hden hx f hnum).le) (le_max_right _ _)
      (fun hexp => le_significandAt hden hx (topBit_le_of_minExp_lt_unitExp hden hx hp hnum hexp)) hhigh
      (unitExp_le_of_le_two_zpow hp hden hx hmin' hnum hb) hmax
    rw [roundTo_eq_normalize hnum]
    have hpow : (0 : ℚ) < 2 ^ a := by positivity
    exact ⟨_, hvalue, .inr ⟨hlow, hhigh⟩, iff_of_false (hpow.trans_le hlow).ne' hpos.ne'⟩

end

end Sys2Proof.Machine
end


section
/-! PROOFS. The polar method of the Gaussians: its exact coordinates, its radius and its rejection test
(spec/44_gaussian.md R191, R194, R195). -/

namespace Sys2Proof.Machine

/-! ### The exact coordinate -/

/-- `2*UNI - 1` for the top `p` bits `k` of a draw (R194). -/
def coordinateOf (p k : Nat) : ℚ := ((k : ℚ) - 2 ^ (p - 1)) / 2 ^ (p - 1)

theorem coordinateOf_eq_zero_iff {p k : Nat} : coordinateOf p k = 0 ↔ k = 2 ^ (p - 1) := by
  have hpow : (2 : ℚ) ^ (p - 1) ≠ 0 := by positivity
  rw [coordinateOf, div_eq_zero_iff, or_iff_left hpow, sub_eq_zero]
  exact_mod_cast Iff.rfl

theorem coordinateOf_eq_neg_one_iff {p k : Nat} : coordinateOf p k = -1 ↔ k = 0 := by
  rw [coordinateOf, div_eq_iff (by positivity), neg_one_mul, sub_eq_neg_self, Nat.cast_eq_zero]

theorem neg_one_le_coordinateOf (p k : Nat) : -1 ≤ coordinateOf p k := by
  rw [coordinateOf, le_div_iff₀ (by positivity), neg_one_mul, neg_le_sub_iff_le_add]
  exact le_add_of_nonneg_left k.cast_nonneg

theorem coordinateOf_lt_one {p k : Nat} (hp : 0 < p) (hk : k < 2 ^ p) : coordinateOf p k < 1 := by
  rw [coordinateOf, div_lt_one (by positivity), sub_lt_iff_lt_add, ← two_mul, mul_pow_sub_one hp.ne']
  exact_mod_cast hk

/-- The distance of `k` from the middle is the significand of the coordinate. -/
theorem abs_coordinateOf (p k : Nat) :
    |coordinateOf p k| = ((k : Int) - 2 ^ (p - 1)).natAbs * (2 : ℚ) ^ (-(p - 1 : Nat) : Int) := by
  have hpow : (0 : ℚ) < 2 ^ (p - 1) := by positivity
  rw [coordinateOf, abs_div, abs_of_pos hpow, Nat.cast_natAbs, zpow_neg, zpow_natCast, div_eq_mul_inv]
  push_cast
  rfl

theorem natAbs_sub_le {p k : Nat} (hp : 0 < p) (hk : k < 2 ^ p) :
    ((k : Int) - 2 ^ (p - 1)).natAbs ≤ 2 ^ (p - 1) := by
  rw [← mul_pow_sub_one hp.ne' 2] at hk
  have hcast : ((2 ^ (p - 1) : Nat) : Int) = 2 ^ (p - 1) := by push_cast; rfl
  omega

theorem coordinateOf_mul_self_within {p k : Nat} (hp : 0 < p) (hk : k < 2 ^ p) :
    IsZeroOrWithin (-(2 * (p - 1) : Nat)) 0 (coordinateOf p k * coordinateOf p k) := by
  obtain hzero | hne := eq_or_ne (coordinateOf p k) 0
  · exact .inl (by rw [hzero, mul_zero])
  · have hpow : (2 : ℚ) ^ (-(2 * (p - 1) : Nat) : Int) =
        2 ^ (-(p - 1 : Nat) : Int) * 2 ^ (-(p - 1 : Nat) : Int) := by
      rw [← zpow_add₀ two_ne_zero]
      congr 1
      omega
    have hpos : (1 : ℚ) ≤ ((k : Int) - 2 ^ (p - 1)).natAbs := by
      have habs := abs_pos.mpr hne
      rw [abs_coordinateOf] at habs
      exact_mod_cast pos_of_mul_pos_left habs (by positivity)
    have hlow : (2 : ℚ) ^ (-(p - 1 : Nat) : Int) ≤ |coordinateOf p k| := by
      rw [abs_coordinateOf]
      exact le_mul_of_one_le_left (by positivity) hpos
    have hhigh : |coordinateOf p k| ≤ 1 :=
      abs_le.mpr ⟨neg_one_le_coordinateOf p k, (coordinateOf_lt_one hp hk).le⟩
    rw [← abs_mul_abs_self, IsZeroOrWithin, hpow, zpow_zero]
    exact .inr ⟨mul_le_mul hlow hlow (by positivity) (abs_nonneg _), mul_le_one₀ hhigh (abs_nonneg _) hhigh⟩

/-! ### A product and a sum that need not be exact -/

theorem fmul_eq_roundTo {f : FloatFormat} {a b : FloatValue} {na nb : Bool} {x y : ℚ} (ha : f.isValue na x a)
    (hb : f.isValue nb y b) :
    ∃ (num : Nat) (exp : Int), fmul f a b = roundTo f (na != nb) num 1 exp ∧
      (num : ℚ) / (1 : Nat) * 2 ^ exp = x * y := by
  obtain ⟨m, i, -, rfl, rfl⟩ := ha
  obtain ⟨m', i', -, rfl, rfl⟩ := hb
  refine ⟨m * m', i + i', rfl, ?_⟩
  rw [zpow_add₀ two_ne_zero]
  push_cast
  ring

/-- `u*u + v*v`, each operation rounded, as an iteration computes it under POLAR2 (R191). -/
def radius (f : FloatFormat) (u v : FloatValue) : FloatValue := fadd f (fmul f u u) (fmul f v v)

section
variable {f : FloatFormat} (hp : 1 < f.precision) (hbias : f.precision + 1 < f.bias)
include hp hbias

theorem isValue_floatOne : f.isValue false 1 (floatOne f) := by
  have hlt : 1 < 2 ^ f.precision := hp.trans Nat.lt_two_pow_self
  exact_mod_cast isValue_intToFloat (Nat.zero_lt_of_lt hp) hbias hlt

theorem isValue_floatTwo : f.isValue false 2 (floatTwo f) := by
  have hlt : 2 < 2 ^ f.precision := lt_self_pow₀ one_lt_two hp
  exact_mod_cast isValue_intToFloat (Nat.zero_lt_of_lt hp) hbias hlt

/-- R194: no rounding occurs in `2*UNI - 1`, and its zero is +0. -/
theorem isValue_coordinate {k : Nat} {uni : FloatValue} (hk : k < 2 ^ f.precision)
    (huni : f.isValue false (k / 2 ^ f.precision) uni) :
    f.isValue (decide (coordinateOf f.precision k < 0)) |coordinateOf f.precision k| (coordinate f uni) := by
  have hp' : 0 < f.precision := Nat.zero_lt_of_lt hp
  have hmin : f.minExp ≤ -(f.precision - 1 : Nat) := by rw [FloatFormat.minExp]; omega
  have hmax : -(f.precision - 1 : Nat) ≤ f.maxExp := by rw [FloatFormat.maxExp]; omega
  have hdouble : (2 : ℚ) * (k / 2 ^ f.precision) = k * 2 ^ (-(f.precision - 1 : Nat) : Int) := by
    rw [← mul_pow_sub_one hp'.ne' (2 : ℚ), zpow_neg, zpow_natCast]
    field_simp
  have hsum : (2 : ℚ) * (k / 2 ^ f.precision) + -1 = coordinateOf f.precision k := by
    rw [coordinateOf, ← mul_pow_sub_one hp'.ne' (2 : ℚ)]
    field_simp
    ring
  have hproduct := f.isValue_fmul hp' (isValue_floatTwo hp hbias) huni hk hmin hmax hdouble
  have hlt := (natAbs_sub_le hp' hk).trans_lt (Nat.pow_lt_pow_right one_lt_two (Nat.sub_one_lt hp'.ne'))
  rw [← hsum]
  exact isValue_fadd hp' hproduct (isValue_floatOne hp hbias).toRat?_negate hlt hmin hmax
    (hsum ▸ abs_coordinateOf f.precision k)

/-- The rejection test on a finite radius (R191). -/
theorem rejectsRadius_eq_false_iff {s : FloatValue} {q : ℚ} (hs : s.toRat? = some q) :
    rejectsRadius f s = false ↔ q < 1 ∧ q ≠ 0 := by
  have hone := (isValue_floatOne hp hbias).toRat?
  have hzero : (FloatValue.finite false 0 f.minExp).toRat? = some 0 := by simp [FloatValue.toRat?, signed]
  rw [rejectsRadius, Bool.or_eq_false_iff, ← Bool.not_eq_true, ← Bool.not_eq_true, fge_iff hs hone, feq_iff hs hzero,
    not_le]

/-- The rounded square of a coordinate: zero only for the zero coordinate, else at least `2^(2 - 2*precision)`. -/
theorem exists_isValue_square {k : Nat} {u : FloatValue} (hk : k < 2 ^ f.precision)
    (hu : f.isValue (decide (coordinateOf f.precision k < 0)) |coordinateOf f.precision k| u) :
    ∃ q, f.isValue false q (fmul f u u) ∧ IsZeroOrWithin (-(2 * (f.precision - 1) : Nat)) 0 q ∧
      (q = 0 ↔ k = 2 ^ (f.precision - 1)) := by
  have hp' : 0 < f.precision := Nat.zero_lt_of_lt hp
  obtain ⟨num, exp, hround, hexact⟩ := fmul_eq_roundTo hu hu
  rw [abs_mul_abs_self] at hexact
  obtain ⟨q, hq, hwithin, hzero⟩ := exists_isValue_roundTo hp' one_pos hexact
    (by rw [FloatFormat.minExp]; omega) (by omega) (by rw [FloatFormat.maxExp]; omega)
    (coordinateOf_mul_self_within hp' hk) false
  rw [hround, bne_self_eq_false]
  exact ⟨q, hq, hwithin, hzero.trans (mul_self_eq_zero.trans coordinateOf_eq_zero_iff)⟩

/-- R195: the rounded radius is zero only for two zero coordinates, and one that is not rejected lies inside the
disk. -/
theorem radius_spec {k k' : Nat} {u v : FloatValue} (hk : k < 2 ^ f.precision) (hk' : k' < 2 ^ f.precision)
    (hu : f.isValue (decide (coordinateOf f.precision k < 0)) |coordinateOf f.precision k| u)
    (hv : f.isValue (decide (coordinateOf f.precision k' < 0)) |coordinateOf f.precision k'| v) :
    ∃ q, (radius f u v).toRat? = some q ∧ (q = 0 ↔ k = 2 ^ (f.precision - 1) ∧ k' = 2 ^ (f.precision - 1)) ∧
      (rejectsRadius f (radius f u v) = false ↔ 1 / 2 ^ (2 * (f.precision - 1)) ≤ q ∧ q < 1) := by
  obtain ⟨x, hx, hxwithin, hxzero⟩ := exists_isValue_square hp hbias hk hu
  obtain ⟨y, hy, hywithin, hyzero⟩ := exists_isValue_square hp hbias hk' hv
  have hsum := hxwithin.add hywithin
  obtain ⟨num, exp, hround, hexact⟩ := fadd_eq_roundTo hx hy.toRat?
  rw [abs_of_nonneg hsum.nonneg] at hexact
  rw [decide_eq_false hsum.nonneg.not_gt] at hround
  obtain ⟨q, hq, hwithin, hzero⟩ := exists_isValue_roundTo (Nat.zero_lt_of_lt hp) one_pos hexact
    (by rw [FloatFormat.minExp]; omega) (by omega) (by rw [FloatFormat.maxExp]; omega) hsum false
  have hrat : (radius f u v).toRat? = some q := by rw [radius, hround, hq.toRat?]
  refine ⟨q, hrat, ?_, ?_⟩
  · rw [hzero, add_eq_zero_iff_of_nonneg hxwithin.nonneg hywithin.nonneg, hxzero, hyzero]
  · rw [rejectsRadius_eq_false_iff hp hbias hrat, ← hwithin.le_iff_ne_zero, zpow_neg, zpow_natCast, one_div, and_comm]

end

theorem isValue_coordinate_u24 (x : U64) :
    binary32.isValue (decide (coordinateOf 24 (x >>> 40).toNat < 0)) |coordinateOf 24 (x >>> 40).toNat|
      (coordinate binary32 (u24 x)) :=
  isValue_coordinate (by decide) (by decide) (toNat_ushiftRight_lt x rfl) (isValue_u24 x)

theorem isValue_coordinate_u53 (x : U64) :
    binary64.isValue (decide (coordinateOf 53 (x >>> 11).toNat < 0)) |coordinateOf 53 (x >>> 11).toNat|
      (coordinate binary64 (u53 x)) :=
  isValue_coordinate (by decide) (by decide) (toNat_ushiftRight_lt x rfl) (isValue_u53 x)

end Sys2Proof.Machine

namespace Sys2Proof.Proofs

open Sys2Proof.Machine

/-- Settles O32: the doubled uniform and the difference are values of the format, and the only value encoded as 0 is
+0. -/
theorem polarCoordinatesAreExact : Obligations.PolarCoordinatesAreExact := by
  refine ⟨fun x => ?_, fun x => ?_⟩
  · have hv := isValue_coordinate_u24 x
    refine ⟨_, hv.toRat?_abs, rfl, neg_one_le_coordinateOf _ _,
      coordinateOf_lt_one (by decide) (toNat_ushiftRight_lt x rfl), ?_, ?_⟩
    · exact coordinateOf_eq_neg_one_iff.trans (BitVec.toNat_inj (y := 0))
    · exact (f32Bits_eq_zero_iff hv 0).trans (coordinateOf_eq_zero_iff.trans (BitVec.toNat_inj (y := 0x800000)))
  · have hv := isValue_coordinate_u53 x
    refine ⟨_, hv.toRat?_abs, rfl, neg_one_le_coordinateOf _ _,
      coordinateOf_lt_one (by decide) (toNat_ushiftRight_lt x rfl), ?_, ?_⟩
    · exact coordinateOf_eq_neg_one_iff.trans (BitVec.toNat_inj (y := 0))
    · exact (f64Bits_eq_zero_iff hv 0).trans
        (coordinateOf_eq_zero_iff.trans (BitVec.toNat_inj (y := 0x10000000000000)))

/-- Settles O33: each rounded square is zero or at least `2^-46` or `2^-104`, and so is their rounded sum. -/
theorem acceptedRadiusLiesInsideTheDisk : Obligations.AcceptedRadiusLiesInsideTheDisk := by
  refine ⟨fun x y => ?_, fun x y => ?_⟩
  · obtain ⟨q, hq, hzero, hrejects⟩ := radius_spec (f := binary32) (by decide) (by decide)
      (toNat_ushiftRight_lt x rfl) (toNat_ushiftRight_lt y rfl) (isValue_coordinate_u24 x) (isValue_coordinate_u24 y)
    exact ⟨q, hq, hzero.trans (and_congr (BitVec.toNat_inj (y := 0x800000)) (BitVec.toNat_inj (y := 0x800000))),
      hrejects⟩
  · obtain ⟨q, hq, hzero, hrejects⟩ := radius_spec (f := binary64) (by decide) (by decide)
      (toNat_ushiftRight_lt x rfl) (toNat_ushiftRight_lt y rfl) (isValue_coordinate_u53 x) (isValue_coordinate_u53 y)
    exact ⟨q, hq, hzero.trans (and_congr (BitVec.toNat_inj (y := 0x10000000000000))
      (BitVec.toNat_inj (y := 0x10000000000000))), hrejects⟩

end Sys2Proof.Proofs
end

section
/-! PROOFS. The Gaussians on the all-zero state: every iteration rejects and the command stays in progress
(spec/44_gaussian.md R198, spec/70_reset_and_hazards.md R278). -/

namespace Sys2Proof.Machine

/-! ### The draws -/

theorem draw_zero (v : Variant) : draw v Words.zero = (0, Words.zero) := by
  cases v with
  | plus => decide
  | plusPlus => decide

/-- The top bits of a zero draw are 0. -/
theorem isValue_coordinate_u24_zero : binary32.isValue true 1 (coordinate binary32 (u24 0)) := by
  have hv := isValue_coordinate_u24 0
  rw [coordinateOf_eq_neg_one_iff.mpr (by decide)] at hv
  simpa using hv

theorem isValue_coordinate_u53_zero : binary64.isValue true 1 (coordinate binary64 (u53 0)) := by
  have hv := isValue_coordinate_u53 0
  rw [coordinateOf_eq_neg_one_iff.mpr (by decide)] at hv
  simpa using hv

/-! ### An iteration -/

section
variable {f : FloatFormat} {u : FloatValue} (hp : 1 < f.precision) (hbias : f.precision + 1 < f.bias)
  (hu : f.isValue true 1 u)
include hp hbias hu

theorem isValue_square_of_neg_one : f.isValue false 1 (fmul f u u) := by
  simpa using f.isValue_fmul (k := 1) (e := 0) (Nat.zero_lt_of_lt hp) hu hu (hp.trans Nat.lt_two_pow_self)
    (by rw [FloatFormat.minExp]; omega) (by rw [FloatFormat.maxExp]; omega) (by norm_num)

/-- Under LITERAL1 the radius is 1 (R199). -/
theorem rejectsRadius_square_of_neg_one : rejectsRadius f (fmul f u u) = true := by
  rw [← Bool.not_eq_false, rejectsRadius_eq_false_iff hp hbias (isValue_square_of_neg_one hp hbias hu).toRat?]
  norm_num

/-- Under POLAR2 the radius is 2 (R198). -/
theorem rejectsRadius_radius_of_neg_one : rejectsRadius f (radius f u u) = true := by
  have hsquare := isValue_square_of_neg_one hp hbias hu
  have hsum : f.isValue (decide ((1 : ℚ) + 1 < 0)) |1 + 1| (radius f u u) :=
    isValue_fadd (k := 1) (e := 1) (Nat.zero_lt_of_lt hp) hsquare hsquare.toRat? (hp.trans Nat.lt_two_pow_self)
      (by rw [FloatFormat.minExp]; omega) (by rw [FloatFormat.maxExp]; omega) (by norm_num)
  rw [← Bool.not_eq_false, rejectsRadius_eq_false_iff hp hbias hsum.toRat?_abs]
  norm_num

end

theorem polarIteration_zero {f : FloatFormat} {uni : U64 → FloatValue} (hp : 1 < f.precision)
    (hbias : f.precision + 1 < f.bias) (hu : f.isValue true 1 (coordinate f (uni 0)))
    (ln : FloatValue → FloatValue) (v : Variant) (form : GaussForm) (mu sigma : FloatValue) :
    polarIteration f uni ln v form mu sigma Words.zero = .reject Words.zero := by
  cases form with
  | polar2 =>
    have hrejects := rejectsRadius_radius_of_neg_one hp hbias hu
    rw [radius] at hrejects
    simp only [polarIteration, draw_zero, hrejects, if_true]
  | literal1 =>
    simp only [polarIteration, draw_zero, rejectsRadius_square_of_neg_one hp hbias hu, if_true]

/-! ### The loop -/

theorem State.runLoop_of_reject_self {α : Type} {body : Words → Iteration α} {w : Words} (h : body w = .reject w)
    (s : State) (c : LoopCommand) (finish : State → α → State) : s.runLoop c body finish w = s.stayBusy c w := by
  have hall : ∀ j < Config.loopFuel, body (id^[j] w) = .reject (id^[j + 1] w) := fun j _ => by
    rw [Function.iterate_id, Function.iterate_id]
    exact h
  rw [State.runLoop, iterate_rejects Config.loopFuel w hall, Function.iterate_id]
  rfl

theorem runFloatGaussian_zero (mu sigma : F32) (s : State) :
    runFloatGaussian mu sigma Words.zero s = s.stayBusy (.floatGaussian mu sigma) Words.zero :=
  State.runLoop_of_reject_self
    (polarIteration_zero (by decide) (by decide) isValue_coordinate_u24_zero _ _ _ _ _) _ _ _

theorem runDoubleGaussian_zero (mu sigma : F64) (s : State) :
    runDoubleGaussian mu sigma Words.zero s = s.stayBusy (.doubleGaussian mu sigma) Words.zero :=
  State.runLoop_of_reject_self
    (polarIteration_zero (by decide) (by decide) isValue_coordinate_u53_zero _ _ _ _ _) _ _ _

theorem resume_gaussian_zero {c : LoopCommand} (h : c.isGaussian = true) (s : State) :
    resume ⟨c, Words.zero⟩ s = s.stayBusy c Words.zero := by
  cases c with
  | below range => exact absurd h Bool.false_ne_true
  | intInRange lower upper => exact absurd h Bool.false_ne_true
  | floatGaussian mu sigma => exact runFloatGaussian_zero mu sigma s
  | doubleGaussian mu sigma => exact runDoubleGaussian_zero mu sigma s

/-! ### The commands -/

theorem exec_floatGaussian_of_loaded {s : State} {w : Words} (hf : s.fault = false) (hw : s.words? = some w)
    (mu sigma : F32) : exec (.floatGaussian mu sigma) s = .next (runFloatGaussian mu sigma w s) :=
  congrArg Host.Outcome.next ((State.unlessFaulted_of_unfaulted hf _).trans (State.withWords_of_some hw _))

theorem exec_doubleGaussian_of_loaded {s : State} {w : Words} (hf : s.fault = false) (hw : s.words? = some w)
    (mu sigma : F64) : exec (.doubleGaussian mu sigma) s = .next (runDoubleGaussian mu sigma w s) :=
  congrArg Host.Outcome.next ((State.unlessFaulted_of_unfaulted hf _).trans (State.withWords_of_some hw _))

/-! ### Steps -/

theorem step_of_presents {s : State} {c : Command} {i : Instr} (h : s.presents c) (hdecode : decode c = .ok i) :
    step s = exec i { s with host := [] } := by
  obtain ⟨hidle, -, hhost⟩ := h
  simp only [step, hidle, stepReady, hhost, runCommand, hdecode]

/-- A step with a command in progress and no move of the host goes on with the command. -/
theorem step_of_busy {s : State} {p : InProgress} (hbusy : s.inProgress = some p) (hhost : s.host = []) :
    step s = .next (resume p s) := by
  simp only [step, hbusy, stepBusy, hhost]

theorem run_of_step_self {s : State} (h : step s = .next s) (k : Nat) : run k s = .next s := by
  induction k with
  | zero => rfl
  | succ k ih => rw [run_succ h, ih]

/-- A Gaussian in progress on all-zero words is a fixed point of `step`: its iterations lead back to these words and
leave no response. -/
theorem step_stayBusy_zero {c : LoopCommand} (h : c.isGaussian = true) {s : State} (hhost : s.host = []) :
    step (s.stayBusy c Words.zero) = .next (s.stayBusy c Words.zero) :=
  (step_of_busy (s.stayBusy_inProgress c Words.zero) hhost).trans
    (congrArg Host.Outcome.next (resume_gaussian_zero h _))

theorem step_presented_gaussian_zero {s : State} {c : Command} (h : s.presents c) (hzero : s.words? = some Words.zero)
    (hdecode : (∃ mu sigma, decode c = .ok (.floatGaussian mu sigma)) ∨
      ∃ mu sigma, decode c = .ok (.doubleGaussian mu sigma)) :
    ∃ cmd : LoopCommand, cmd.isGaussian = true ∧ step s = .next ({ s with host := [] }.stayBusy cmd Words.zero) := by
  obtain ⟨-, hf, -⟩ := id h
  obtain ⟨mu, sigma, hdecode⟩ | ⟨mu, sigma, hdecode⟩ := hdecode
  · exact ⟨.floatGaussian mu sigma, rfl, by
      rw [step_of_presents h hdecode, exec_floatGaussian_of_loaded (s := { s with host := [] }) hf hzero,
        runFloatGaussian_zero]⟩
  · exact ⟨.doubleGaussian mu sigma, rfl, by
      rw [step_of_presents h hdecode, exec_doubleGaussian_of_loaded (s := { s with host := [] }) hf hzero,
        runDoubleGaussian_zero]⟩

end Sys2Proof.Machine

namespace Sys2Proof.Proofs

open Sys2Proof.Machine

/-- Settles O39: the first step leaves the command in progress on all-zero words, and every later one leaves that state
as it is. -/
theorem gaussianHangsOnTheZeroState : Obligations.GaussianHangsOnTheZeroState := by
  intro s c k hpresents hzero hdecode
  obtain ⟨cmd, hgaussian, hstep⟩ := step_presented_gaussian_zero hpresents hzero hdecode
  exact ⟨_, (run_succ hstep).trans (run_of_step_self (step_stayBusy_zero hgaussian rfl) k), rfl, rfl, hzero⟩

end Sys2Proof.Proofs
end

section
/-! PROOFS. State access: which word READ_STATE and WRITE_STATE reach, and the fields of the STATUS word
(spec/45_state_access.md R220 to R222, spec/10_state.md R26). -/

namespace Sys2Proof.Machine

/-! ### READ_STATE and WRITE_STATE as commands -/

/-- READ_STATE on an unfaulted block: BAD_INDEX is checked first, then the validity of the one word (R220). -/
theorem exec_readState_of_unfaulted {s : State} (hf : s.fault = false) (index : U64) :
    exec (.readState index) s =
      .next (if 3 < index then s.faulted 5 else (s.word index.toNat).elim (s.faulted 4) s.respondOk) := by
  rw [exec, execReadState, State.unlessFaulted_of_unfaulted hf, State.raise_eq_faulted hf, State.raise_eq_faulted hf]
  cases s.word index.toNat with
  | none => rfl
  | some w => rfl

/-- WRITE_STATE on an unfaulted block: BAD_INDEX is the one check (R221). -/
theorem exec_writeState_of_unfaulted {s : State} (hf : s.fault = false) (index v : U64) :
    exec (.writeState index v) s =
      .next (if 3 < index then s.faulted 5 else (s.setWord index.toNat v).respondOk 0) := by
  rw [exec, execWriteState, State.unlessFaulted_of_unfaulted hf, State.raise_eq_faulted hf, Cause.code]

/-- `S[index]` for each of the four indexes, and that none of them is above 3 (R220). -/
theorem State.word_of_index {s : State} {index : U64} {word : Option U64}
    (h : index = 0 ∧ word = s.s0 ∨ index = 1 ∧ word = s.s1 ∨ index = 2 ∧ word = s.s2 ∨ index = 3 ∧ word = s.s3) :
    ¬ 3 < index ∧ s.word index.toNat = word := by
  obtain ⟨rfl, rfl⟩ | ⟨rfl, rfl⟩ | ⟨rfl, rfl⟩ | ⟨rfl, rfl⟩ := h
  all_goals exact ⟨by decide, rfl⟩

/-! ### The fields of the STATUS word -/

/-- `VALID[i] = V[i]` (R26). -/
theorem State.getLsbD_validBits (s : State) (i : Nat) : s.validBits.getLsbD i = (s.word i).isSome := by
  simp only [State.validBits, BitVec.getLsbD_append, BitVec.getLsbD_ofBool]
  match i with
  | 0 | 1 | 2 | 3 => simp [State.word]
  | i + 4 => simp [State.word]

theorem getLsbD_variantBit (v : Variant) (i : Nat) :
    (variantBit v).getLsbD i = if i = 0 then v == .plusPlus else false := by
  cases v with
  | plus => simp [variantBit]
  | plusPlus => simp [variantBit]

/-- R26 bit by bit: the bounds are the sums of the widths that `statusWord` joins. -/
theorem getLsbD_statusWord (s : State) (i : Nat) :
    (statusWord s).getLsbD i =
      if i < 4 then s.cause.getLsbD i
      else if i = 4 then s.fault
      else if i < 8 then false
      else if i < 12 then (s.word (i - 8)).isSome
      else if i = 16 then s.params.variant == .plusPlus
      else false := by
  simp only [statusWord, BitVec.getLsbD_append, BitVec.getLsbD_ofBool, State.getLsbD_validBits, getLsbD_variantBit,
    BitVec.ofNat_eq_ofNat, BitVec.getLsbD_zero]
  grind

theorem extractLsb'_statusWord_cause (s : State) : (statusWord s).extractLsb' 0 4 = s.cause := by
  refine BitVec.eq_of_getLsbD_eq fun i hi => ?_
  rw [BitVec.getLsbD_extractLsb', getLsbD_statusWord, Nat.zero_add, if_pos hi, decide_eq_true hi, Bool.true_and]

/-- Reserved bits read 0 (R26). -/
theorem extractLsb'_statusWord_reserved (s : State) {start len : Nat}
    (h : 5 ≤ start ∧ start + len ≤ 8 ∨ 12 ≤ start ∧ start + len ≤ 16 ∨ 17 ≤ start) :
    (statusWord s).extractLsb' start len = 0 := by
  refine BitVec.eq_of_getLsbD_eq fun i hi => ?_
  rw [BitVec.getLsbD_extractLsb', getLsbD_statusWord]
  grind

theorem exec_readStatus (s : State) : exec .readStatus s = .next (s.respondOk (statusWord s)) := rfl

end Sys2Proof.Machine

namespace Sys2Proof.Proofs

open Sys2Proof.Machine

/-- Settles O40: an index up to 3 passes the first check, and the validity of that one word decides the rest. -/
theorem readStateReturnsTheWord : Obligations.ReadStateReturnsTheWord := by
  intro s index word hf
  rw [exec_readState_of_unfaulted hf]
  refine ⟨fun hindex => ?_, fun h => by rw [if_pos h]⟩
  obtain ⟨hle, hword⟩ := State.word_of_index hindex
  rw [if_neg hle, hword]
  constructor
  · rintro v rfl
    rfl
  · rintro rfl
    rfl

/-- Settles O41: an index up to 3 passes the one check, and the write is to the word it names. -/
theorem writeStateWritesTheWord : Obligations.WriteStateWritesTheWord := by
  intro s v hf
  simp only [exec_writeState_of_unfaulted hf]
  exact ⟨rfl, rfl, rfl, rfl, fun index h => by rw [if_pos h]⟩

/-- Settles O42: the response is the STATUS word, each field read off its layout. -/
theorem readStatusReturnsEveryField : Obligations.ReadStatusReturnsEveryField :=
  fun s =>
    have bit := getLsbD_statusWord s
    have reserved {start len : Nat} := extractLsb'_statusWord_reserved s (start := start) (len := len)
    ⟨statusWord s, exec_readStatus s, extractLsb'_statusWord_cause s, bit 4, reserved (by decide), bit 8, bit 9, bit 10,
      bit 11, reserved (by decide), bit 16, reserved (by decide)⟩

end Sys2Proof.Proofs
end

section
/-! PROOFS. Faults: each condition of the table is recorded, and a recorded fault lasts until a reset
(spec/60_exceptions.md R240 to R243). -/

namespace Sys2Proof.Machine

/-! ### Which opcodes are legal -/

/-- No command is decoded from an opcode outside the map (R65). -/
theorem decode_of_illegal {c : Command} (h : c.cmd = 0 ∨ 0x0E ≤ c.cmd) : decode c = .error (.illegalCommand c.cmd) := by
  have hnat : c.cmd.toNat = 0 ∨ 14 ≤ c.cmd.toNat := h.imp (congrArg BitVec.toNat) BitVec.le_def.mp
  unfold decode
  split
  case h_14 => rfl
  all_goals omega

/-- The command is selected by `CMD` alone, and each has one opcode (R61). -/
theorem cmd_encode_of_decode {c : Command} {i : Instr} (h : decode c = .ok i) : (encode i).cmd = c.cmd := by
  unfold decode at h
  split at h <;> cases h
  all_goals
    rename_i hcmd
    exact BitVec.eq_of_toNat_eq hcmd.symm

/-! ### The checks of an unfaulted block, in their order (R243) -/

section
variable {s : State} (hf : s.fault = false)
include hf

theorem runCommand_of_illegal {c : Command} (h : c.cmd = 0 ∨ 0x0E ≤ c.cmd) : runCommand c s = .next (s.faulted 1) := by
  rw [runCommand, decode_of_illegal h]
  simp only [execIllegal, State.unlessFaulted_of_unfaulted hf, State.raise_eq_faulted hf, Cause.code]

theorem State.withWords_unseeded (hnone : s.words? = none) (body : Words → State) : s.withWords body = s.faulted 4 := by
  rw [State.withWords_of_none hnone, State.raise_eq_faulted hf, Cause.code]

theorem exec_below_of_unfaulted (range : U64) :
    exec (.below range) s =
      .next (if range = 0 then s.faulted 2 else s.withWords fun w => runBelow range w s) := by
  rw [exec, execBelow, State.unlessFaulted_of_unfaulted hf, State.raise_eq_faulted hf, Cause.code]

theorem exec_intInRange_of_unfaulted (lower upper : Int) :
    exec (.intInRange lower upper) s =
      .next (if upper < lower then s.faulted 3 else s.withWords fun w => runIntInRange lower upper w s) := by
  rw [exec, execIntInRange, State.unlessFaulted_of_unfaulted hf, State.raise_eq_faulted hf, Cause.code]

theorem exec_floatGaussian_of_unfaulted (mu sigma : F32) :
    exec (.floatGaussian mu sigma) s = .next (s.withWords fun w => runFloatGaussian mu sigma w s) :=
  congrArg Host.Outcome.next (State.unlessFaulted_of_unfaulted hf _)

theorem exec_doubleGaussian_of_unfaulted (mu sigma : F64) :
    exec (.doubleGaussian mu sigma) s = .next (s.withWords fun w => runDoubleGaussian mu sigma w s) :=
  congrArg Host.Outcome.next (State.unlessFaulted_of_unfaulted hf _)

end

/-! ### A faulted block -/

theorem runCommand_next (c : Command) (s : State) : ∃ t, runCommand c s = .next t := by
  rw [runCommand]
  cases decode c with
  | ok i => exact exec_next i s
  | error e => exact ⟨_, rfl⟩

/-- Whatever the host presents, a faulted block does no more than respond. -/
theorem runCommand_cases_of_faulted {s t : State} (hf : s.fault = true) {c : Command} (h : runCommand c s = .next t) :
    t = s.ignored ∨ c.cmd = 0x0D ∧ t = s.respondOk (statusWord s) := by
  obtain ⟨i, hdecode, hexec⟩ | ⟨-, ⟨-, rfl⟩ | ⟨hf', -⟩⟩ := runCommand_cases h
  · obtain ⟨-, -, rfl⟩ | ⟨rfl, rfl⟩ | ⟨hf', -⟩ := exec_cases hexec
    · exact .inl rfl
    · exact .inr ⟨(cmd_encode_of_decode hdecode).symm, rfl⟩
    · exact absurd (hf'.symm.trans hf) Bool.false_ne_true
  · exact .inl rfl
  · exact absurd (hf'.symm.trans hf) Bool.false_ne_true

theorem runCommand_of_faulted {s : State} (hf : s.fault = true) {c : Command} (hcmd : c.cmd ≠ 0x0D) :
    runCommand c s = .next s.ignored := by
  obtain ⟨t, ht⟩ := runCommand_next c s
  obtain rfl | ⟨hcmd', -⟩ := runCommand_cases_of_faulted hf ht
  · exact ht
  · exact absurd hcmd' hcmd

/-- Both responses of a faulted block leave all but the response of an idle one. -/
theorem runCommand_of_faulted_idle {s t : State} (hf : s.fault = true) (hidle : s.inProgress = none) {c : Command}
    (h : runCommand c s = .next t) : ∃ r, t = { s with response := r } := by
  obtain rfl | ⟨-, rfl⟩ := runCommand_cases_of_faulted hf h
  · exact ⟨_, by rw [State.ignored, ← hidle]⟩
  · exact ⟨_, by rw [State.respondOk, State.respond, ← hidle]⟩

/-- `t` is `s` but for the response and the moves the host has made. -/
def State.OnlyResponds (s t : State) : Prop :=
  ∃ rest r, rest <:+ s.host ∧ t = { s with host := rest, response := r }

theorem State.OnlyResponds.refl (s : State) : s.OnlyResponds s := ⟨s.host, s.response, List.suffix_rfl, rfl⟩

theorem State.OnlyResponds.trans {s t u : State} (hst : s.OnlyResponds t) (htu : t.OnlyResponds u) :
    s.OnlyResponds u := by
  obtain ⟨rest, r, hrest, rfl⟩ := hst
  obtain ⟨rest', r', hrest', rfl⟩ := htu
  exact ⟨rest', r', hrest'.trans hrest, rfl⟩

/-- No move of the host but a reset gets a faulted idle block to do more than respond (R242, R271). -/
theorem step_onlyResponds {s t : State} (hf : s.fault = true) (hidle : s.inProgress = none)
    (hreset : HostMove.reset ∉ s.host) (h : step s = .next t) : s.OnlyResponds t := by
  obtain ⟨rest, hhost, -, rfl⟩ | ⟨rest, hhost, -⟩ | ⟨c, rest, -, hhost, hrun⟩ | ⟨p, -, hbusy, -⟩ := step_cases h
  · refine ⟨rest, none, ?_, rfl⟩
    obtain hhost | hhost := hhost
    · exact hhost ▸ List.suffix_rfl
    · exact hhost ▸ List.suffix_cons _ _
  · exact absurd (hhost ▸ List.mem_cons_self) hreset
  · obtain ⟨r, rfl⟩ := runCommand_of_faulted_idle (s := { s with host := rest }) hf hidle hrun
    exact ⟨rest, r, hhost ▸ List.suffix_cons _ _, rfl⟩
  · exact absurd (hbusy.symm.trans hidle) (Option.some_ne_none p)

theorem step_next (s : State) : ∃ t, step s = .next t := by
  cases hp : s.inProgress with
  | none =>
    simp only [step, hp, stepReady]
    split
    case h_4 c rest hhost => exact runCommand_next c _
    all_goals exact ⟨_, rfl⟩
  | some p =>
    simp only [step, hp, stepBusy]
    split
    all_goals exact ⟨_, rfl⟩

theorem run_onlyResponds (k : Nat) {s t : State} (hf : s.fault = true) (hidle : s.inProgress = none)
    (hreset : HostMove.reset ∉ s.host) (h : run k s = .next t) : s.OnlyResponds t := by
  induction k generalizing s with
  | zero =>
    cases h
    exact .refl _
  | succ k ih =>
    obtain ⟨u, hstep⟩ := step_next s
    have hfirst := step_onlyResponds hf hidle hreset hstep
    obtain ⟨rest, r, hrest, rfl⟩ := id hfirst
    rw [run_succ hstep] at h
    exact hfirst.trans (ih hf hidle (fun hmem => hreset (hrest.subset hmem)) h)

/-- A reset is taken with or without a command in progress (R270). -/
theorem step_of_reset {s : State} {rest : List HostMove} (h : s.host = .reset :: rest) :
    step s = .next (resetBlock { s with host := rest }) := by
  cases hp : s.inProgress with
  | none => simp only [step, hp, stepReady, h]
  | some p => simp only [step, hp, stepBusy, h]

end Sys2Proof.Machine

namespace Sys2Proof.Proofs

open Sys2Proof.Machine

/-- Settles O45: a faulted idle block only responds in a step, so in any run without a reset, and a reset clears FAULT
and CAUSE. -/
theorem faultLastsUntilReset : Obligations.FaultLastsUntilReset := by
  intro s hf
  refine ⟨fun c hcmd => runCommand_of_faulted hf hcmd, exec_readStatus s, fun t k hidle hreset hrun => ?_,
    fun rest t hhost hstep => ?_⟩
  · obtain ⟨rest, r, -, rfl⟩ := run_onlyResponds k hf hidle hreset hrun
    exact ⟨hf, rfl, rfl, rfl, rfl, rfl⟩
  · cases (step_of_reset hhost).symm.trans hstep
    exact ⟨rfl, rfl⟩

/-- Settles O44: each command's checks on an unfaulted block, in the order R243 gives them. -/
theorem eachFaultConditionIsRecorded : Obligations.EachFaultConditionIsRecorded := by
  intro s hf
  refine ⟨fun cmd a b hcmd => runCommand_of_illegal hf hcmd, ?_, fun lower upper hempty => ?_, fun hnone => ?_,
    fun index hindex hword => ?_, fun index value hindex => ⟨?_, ?_⟩⟩
  · rw [exec_below_of_unfaulted hf, if_pos rfl]
  · rw [exec_intInRange_of_unfaulted hf, if_pos hempty]
  · have unloaded := State.withWords_unseeded hf hnone
    have undrawn := State.withDraw_unseeded hf hnone
    refine ⟨?_, fun range hrange => ?_, fun lower upper hle => ?_, ?_, ?_, fun lower upper => ?_, fun lower upper => ?_,
      fun mu sigma => ?_, fun mu sigma => ?_⟩
    · rw [exec_nextU64_of_unfaulted hf, undrawn]
    · rw [exec_below_of_unfaulted hf, if_neg hrange, unloaded]
    · rw [exec_intInRange_of_unfaulted hf, if_neg hle.not_gt, unloaded]
    · rw [exec_float01_of_unfaulted hf, undrawn]
    · rw [exec_double01_of_unfaulted hf, undrawn]
    · rw [exec_floatInRange_of_unfaulted hf, undrawn]
    · rw [exec_doubleInRange_of_unfaulted hf, undrawn]
    · rw [exec_floatGaussian_of_unfaulted hf, unloaded]
    · rw [exec_doubleGaussian_of_unfaulted hf, unloaded]
  · rw [exec_readState_of_unfaulted hf, if_neg (BitVec.not_lt.mpr hindex), hword, Option.elim_none]
  · rw [exec_readState_of_unfaulted hf, if_pos hindex]
  · rw [exec_writeState_of_unfaulted hf, if_pos hindex]

end Sys2Proof.Proofs
end

section
/-! PROOFS. Reset in any state (spec/70_reset_and_hazards.md R270). -/

namespace Sys2Proof.Proofs

open Sys2Proof.Machine

/-- Settles O48: with or without a command in progress, `step` takes the reset by `step_of_reset`, and `resetBlock` leaves
exactly the fields the statement writes out. -/
theorem resetTakesEffectInAnyState : Obligations.ResetTakesEffectInAnyState := by
  intro s rest hhost
  rw [step_of_reset hhost, resetBlock]

end Sys2Proof.Proofs
end

section
/-! PROOFS. The decoder and the encoder undo each other (spec/30_encoding.md R61, R62, R64, R65). -/

namespace Sys2Proof

open Sys2Proof.Machine

/-! ### The rows of the opcode map that use every port bit -/

section
variable (a b : U64)

theorem decode_doubleInRange : decode ⟨0x08, a, b⟩ = .ok (.doubleInRange a b) := rfl

theorem decode_doubleGaussian : decode ⟨0x0A, a, b⟩ = .ok (.doubleGaussian a b) := rfl

theorem decode_writeState : decode ⟨0x0C, a, b⟩ = .ok (.writeState a b) := rfl

end

/-! ### I32 operands -/

theorem isI32_iff {x : Int} : isI32 x = true ↔ -2 ^ 31 ≤ x ∧ x < 2 ^ 31 := by
  simp [isI32]

theorem isI32_toInt (x : BitVec 32) : isI32 x.toInt = true :=
  isI32_iff.mpr ⟨x.le_toInt, x.toInt_lt⟩

theorem toInt_ofInt_of_isI32 {x : Int} (h : isI32 x = true) : (BitVec.ofInt 32 x).toInt = x := by
  obtain ⟨hlow, hhigh⟩ := isI32_iff.mp h
  exact BitVec.toInt_ofInt_eq_self (by decide) hlow hhigh

namespace Machine

/-! ### What a port holds -/

theorem f32Operand_f32Port (bits : F32) : f32Operand (f32Port bits) = bits := by
  rw [f32Operand, f32Port, BitVec.setWidth_setWidth_of_le _ (by decide), BitVec.setWidth_eq]

theorem i32Operand_i32Port {x : Int} (h : isI32 x = true) : i32Operand (i32Port x) = x := by
  rw [i32Operand, i32Port, BitVec.setWidth_setWidth_of_le _ (by decide), BitVec.setWidth_eq, toInt_ofInt_of_isI32 h]

theorem isI32_i32Operand (p : U64) : isI32 (i32Operand p) = true := isI32_toInt _

/-- Writing back the operand clears the ignored bits of its port (R62). -/
theorem f32Port_f32Operand (p : U64) : f32Port (f32Operand p) = p &&& 0xffffffff := by
  refine BitVec.eq_of_toNat_eq ?_
  rw [f32Port, f32Operand, BitVec.toNat_setWidth_of_le (by decide), BitVec.toNat_setWidth, BitVec.toNat_and]
  exact (Nat.and_two_pow_sub_one_eq_mod p.toNat 32).symm

theorem i32Port_i32Operand (p : U64) : i32Port (i32Operand p) = p &&& 0xffffffff := by
  rw [i32Port, i32Operand, BitVec.ofInt_toInt]
  exact f32Port_f32Operand p

end Machine

/-! ### Decoding and encoding -/

theorem decode_encode {i : Instr} (h : i.wellFormed = true) : decode (encode i) = .ok i := by
  cases i with
  | intInRange lower upper =>
    obtain ⟨hlower, hupper⟩ := Bool.and_eq_true_iff.mp h
    exact congrArg Except.ok (congrArg₂ Instr.intInRange (i32Operand_i32Port hlower) (i32Operand_i32Port hupper))
  | floatInRange lower upper =>
    exact congrArg Except.ok (congrArg₂ Instr.floatInRange (f32Operand_f32Port lower) (f32Operand_f32Port upper))
  | floatGaussian mu sigma =>
    exact congrArg Except.ok (congrArg₂ Instr.floatGaussian (f32Operand_f32Port mu) (f32Operand_f32Port sigma))
  | seed | nextU64 | below | float01 | double01 | doubleInRange | doubleGaussian | readState | writeState
  | readStatus => rfl

/-- Only INT_IN_RANGE has operands that need a check, and both are read as I32 (R62). -/
theorem wellFormed_of_decode {c : Command} {i : Instr} (h : decode c = .ok i) : i.wellFormed = true := by
  unfold decode at h
  split at h <;> cases h
  case h_4 => exact Bool.and_eq_true_iff.mpr ⟨isI32_i32Operand c.a, isI32_i32Operand c.b⟩
  all_goals rfl

/-- Each row reads of a port all bits, the low 32 or none (R61, R62, R64). -/
theorem encode_of_decode {c : Command} {i : Instr} (h : decode c = .ok i) : encode i = c.canonical := by
  obtain ⟨cmd, a, b⟩ := c
  have all (p : U64) : p = p &&& BitVec.allOnes 64 := BitVec.and_allOnes.symm
  have none (p : U64) : 0 = p &&& 0 := BitVec.and_zero.symm
  have hcmd := cmd_encode_of_decode h
  unfold decode at h
  split at h <;> cases h <;> cases hcmd
  case h_1 | h_3 | h_11 => exact congrArg₂ (Command.mk _) (all a) (none b)
  case h_2 | h_5 | h_6 | h_13 => exact congrArg₂ (Command.mk _) (none a) (none b)
  case h_4 => exact congrArg₂ (Command.mk _) (i32Port_i32Operand a) (i32Port_i32Operand b)
  case h_7 | h_9 => exact congrArg₂ (Command.mk _) (f32Port_f32Operand a) (f32Port_f32Operand b)
  case h_8 | h_10 | h_12 => exact congrArg₂ (Command.mk _) (all a) (all b)

end Sys2Proof

namespace Sys2Proof.Proofs

open Sys2Proof.Machine

/-- Settles O2: an operand read back from its port is the operand, given that an I32 operand is one. -/
theorem decodeOfEncodeIsTheInstruction : Obligations.DecodeOfEncodeIsTheInstruction :=
  fun _ h => decode_encode h

/-- Settles O3, row by row of the opcode map. -/
theorem encodeOfDecodeIsTheCanonicalWord : Obligations.EncodeOfDecodeIsTheCanonicalWord :=
  fun _ _ h => ⟨encode_of_decode h, wellFormed_of_decode h⟩

/-- Settles O1: one equation a row, and no row for any other opcode. -/
theorem opcodeMapDecodesEveryRow : Obligations.OpcodeMapDecodesEveryRow :=
  fun a b => ⟨decode_seed a b, decode_nextU64 a b, decode_below a b, decode_intInRange a b, decode_float01 a b,
    decode_double01 a b, decode_floatInRange a b, decode_doubleInRange a b, decode_floatGaussian a b,
    decode_doubleGaussian a b, decode_readState a b, decode_writeState a b, decode_readStatus a b,
    fun _ hcmd => decode_of_illegal hcmd⟩

end Sys2Proof.Proofs
end

section
/-! PROOFS. Where the words a command leaves come from, and what a command can leave, said once for all thirteen
(spec/41_core_step.md R105, spec/42_bounded_range.md R132, spec/44_gaussian.md R196). -/

namespace Sys2Proof

/-! ### Which commands draw, and how often an iteration does -/

/-- The generation commands with an integer result. -/
def Instr.drawsInteger : Instr → Bool
  | .nextU64 | .below _ | .intInRange _ _ => true
  | _ => false

/-- The generation commands with a float result. -/
def Instr.drawsFloat : Instr → Bool
  | .float01 | .double01 | .floatInRange _ _ | .doubleInRange _ _ | .floatGaussian _ _ | .doubleGaussian _ _ => true
  | _ => false

/-- How many draws an iteration of the polar method takes (R191, R199). -/
def GaussForm.draws : GaussForm → Nat
  | .polar2 => 2
  | .literal1 => 1

theorem GaussForm.one_le_draws (form : GaussForm) : 1 ≤ form.draws := by
  cases form with
  | polar2 => decide
  | literal1 => decide

end Sys2Proof

namespace Sys2Proof.Machine

/-! ### The draws of a loop -/

/-- The words after the draws of an iteration, accepted or not (R132, R196). -/
def Iteration.words {α : Type} : Iteration α → Words
  | .accept _ w => w
  | .reject w => w

theorem reduceIteration_words (v : Variant) (range : U64) (w : Words) :
    (reduceIteration v range w).words = advanceN 1 w := by
  simp only [reduceIteration]
  split <;> rfl

theorem polarIteration_words (f : FloatFormat) (uni : U64 → FloatValue) (ln : FloatValue → FloatValue) (v : Variant)
    (form : GaussForm) (mu sigma : FloatValue) (w : Words) :
    (polarIteration f uni ln v form mu sigma w).words = advanceN form.draws w := by
  cases form with
  | polar2 =>
    simp only [polarIteration]
    split <;> rfl
  | literal1 =>
    simp only [polarIteration]
    split <;> rfl

/-- A loop whose every iteration takes `d` draws leaves words that are at least `d` draws on. -/
theorem iterate_words {α : Type} {body : Words → Iteration α} {d : Nat} (hd : 1 ≤ d)
    (hbody : ∀ w, (body w).words = advanceN d w) (fuel : Nat) (w : Words) :
    ∃ n, 1 ≤ n ∧ (iterate body (fuel + 1) w).words = advanceN n w := by
  induction fuel generalizing w with
  | zero =>
    refine ⟨d, hd, ?_⟩
    rw [← hbody, iterate]
    cases body w with
    | accept r w' => rfl
    | reject w' => rfl
  | succ fuel ih =>
    have hwords := hbody w
    rw [iterate]
    cases hw : body w with
    | accept r w' => exact ⟨d, hd, by rw [← hwords, hw]⟩
    | reject w' =>
      obtain ⟨n, -, hn⟩ := ih w'
      rw [hw] at hwords
      exact ⟨d + n, by omega, hn.trans (by rw [advanceN_add, ← hwords]; rfl)⟩

/-- One model step of a loop command from the words `w`: it completes or stays in progress, at least one draw on. -/
def State.LoopDraws (s : State) (c : LoopCommand) (w : Words) (t : State) : Prop :=
  ∃ n, 1 ≤ n ∧
    (c.isGaussian = false ∧ (∃ res, t = s.completed (advanceN n w) res) ∨
      c.isGaussian = true ∧ (∃ res, t = s.completedFloat (advanceN n w) res) ∨ t = s.stayBusy c (advanceN n w))

theorem State.runLoop_draws {α : Type} {body : Words → Iteration α} {d : Nat} (hd : 1 ≤ d)
    (hbody : ∀ w, (body w).words = advanceN d w) (s : State) (c : LoopCommand) (finish : State → α → State)
    (w : Words) :
    ∃ n, 1 ≤ n ∧ ((∃ r, s.runLoop c body finish w = finish (s.setWords (advanceN n w)) r) ∨
      s.runLoop c body finish w = s.stayBusy c (advanceN n w)) := by
  obtain ⟨n, hn, hwords⟩ := iterate_words hd hbody (Config.loopFuel - 1) w
  refine ⟨n, hn, ?_⟩
  rw [← hwords]
  obtain ⟨r, w', hloop, hrun⟩ | ⟨w', hloop, hrun⟩ := s.runLoop_cases c body finish w
  · exact .inl ⟨r, hrun.trans (congrArg (fun w' => finish (s.setWords w') r) (congrArg Iteration.words hloop).symm)⟩
  · exact .inr (hrun.trans (congrArg (s.stayBusy c) (congrArg Iteration.words hloop).symm))

/-- Going on with a loop command, from its first step on: the commands themselves run their loops as `resume` does. -/
theorem resume_draws (c : LoopCommand) (w : Words) (s : State) : s.LoopDraws c w (resume ⟨c, w⟩ s) := by
  cases c with
  | below range =>
    obtain ⟨n, hn, ⟨r, hrun⟩ | hrun⟩ := s.runLoop_draws le_rfl (reduceIteration_words s.params.variant range)
      (.below range) State.respondOk w
    · exact ⟨n, hn, .inl ⟨rfl, r, hrun⟩⟩
    · exact ⟨n, hn, .inr (.inr hrun)⟩
  | intInRange lower upper =>
    obtain ⟨n, hn, ⟨r, hrun⟩ | hrun⟩ := s.runLoop_draws le_rfl
      (reduceIteration_words s.params.variant (intRange lower upper)) (.intInRange lower upper)
      (fun s r => s.respondOk (i32Result (lower + r.toNat))) w
    · exact ⟨n, hn, .inl ⟨rfl, _, hrun⟩⟩
    · exact ⟨n, hn, .inr (.inr hrun)⟩
  | floatGaussian mu sigma =>
    obtain ⟨n, hn, ⟨r, hrun⟩ | hrun⟩ := s.runLoop_draws s.params.gaussForm.one_le_draws
      (polarIteration_words binary32 u24 (ln32 (nanFrom32 (Config.nanDraw32 s.freeIndex))) s.params.variant
        s.params.gaussForm (f32Value mu) (f32Value sigma)) (.floatGaussian mu sigma) State.respondF32 w
    · exact ⟨n, hn, .inr (.inl ⟨rfl, _, hrun⟩)⟩
    · exact ⟨n, hn, .inr (.inr hrun)⟩
  | doubleGaussian mu sigma =>
    obtain ⟨n, hn, ⟨r, hrun⟩ | hrun⟩ := s.runLoop_draws s.params.gaussForm.one_le_draws
      (polarIteration_words binary64 u53 (ln64 (nanFrom64 (Config.nanDraw64 s.freeIndex))) s.params.variant
        s.params.gaussForm (f64Value mu) (f64Value sigma)) (.doubleGaussian mu sigma) State.respondF64 w
    · exact ⟨n, hn, .inr (.inl ⟨rfl, _, hrun⟩)⟩
    · exact ⟨n, hn, .inr (.inr hrun)⟩

/-! ### What a command leaves -/

/-- What the command `i` can leave of the state `s`, and where its words come from. -/
inductive State.CommandLeaves (s : State) : Instr → State → Prop
  | ignored {i : Instr} (hf : s.fault = true) : s.CommandLeaves i s.ignored
  | raised {i : Instr} (cause : Cause) (hf : s.fault = false) : s.CommandLeaves i (s.faulted cause.code)
  | status : s.CommandLeaves .readStatus (s.respondOk (statusWord s))
  | read (index w : U64) : s.CommandLeaves (.readState index) (s.respondOk w)
  | written (index v : U64) : s.CommandLeaves (.writeState index v) ((s.setWord index.toNat v).respondOk 0)
  | seeded (v : U64) : s.CommandLeaves (.seed v) (s.completed (seedWords s.params.seedChain v) 0)
  | integer {i : Instr} {w : Words} {n : Nat} (res : U64) (hi : i.drawsInteger = true) (hw : s.words? = some w)
      (hn : 1 ≤ n) : s.CommandLeaves i (s.completed (advanceN n w) res)
  | float {i : Instr} {w : Words} {n : Nat} (res : U64) (hi : i.drawsFloat = true) (hw : s.words? = some w)
      (hn : 1 ≤ n) : s.CommandLeaves i (s.completedFloat (advanceN n w) res)
  | busy {i : Instr} {c : LoopCommand} {w : Words} {n : Nat} (hi : i.drawsInteger = true ∨ i.drawsFloat = true)
      (hf : s.fault = false) (hw : s.words? = some w) (hn : 1 ≤ n) (hc : i.wellFormed = true → c.legal = true) :
      s.CommandLeaves i (s.stayBusy c (advanceN n w))

section
variable {s : State} (hf : s.fault = false) {i : Instr}
include hf

theorem State.CommandLeaves.of_withWords {body : Words → State}
    (hbody : ∀ w, s.words? = some w → s.CommandLeaves i (body w)) : s.CommandLeaves i (s.withWords body) := by
  cases hw : s.words? with
  | none =>
    rw [State.withWords_unseeded hf hw]
    exact .raised .unseeded hf
  | some w =>
    rw [State.withWords_of_some hw]
    exact hbody w hw

theorem State.CommandLeaves.of_loop {c : LoopCommand}
    (hi : c.isGaussian = false ∧ i.drawsInteger = true ∨ c.isGaussian = true ∧ i.drawsFloat = true)
    (hc : i.wellFormed = true → c.legal = true) : s.CommandLeaves i (s.withWords fun w => resume ⟨c, w⟩ s) := by
  refine .of_withWords hf fun w hw => ?_
  obtain ⟨n, hn, ⟨hc', res, h⟩ | ⟨hc', res, h⟩ | h⟩ := resume_draws c w s
  · rw [h]
    exact .integer res (by simpa [hc'] using hi) hw hn
  · rw [h]
    exact .float res (by simpa [hc'] using hi) hw hn
  · rw [h]
    exact .busy (hi.imp And.right And.right) hf hw hn hc

end

/-- EXEC'S INVERSION, with the command named: `exec_cases` says what a command leaves, this says whose words it are. -/
theorem exec_leaves {i : Instr} {s t : State} (h : exec i s = .next t) : s.CommandLeaves i t := by
  obtain ⟨hf, -, rfl⟩ | ⟨rfl, rfl⟩ | ⟨hf, -⟩ := exec_cases h
  · exact .ignored hf
  · exact .status
  cases i with
  | seed v =>
    cases (exec_seed_of_unfaulted hf v).symm.trans h
    exact .seeded v
  | nextU64 =>
    cases (exec_nextU64_of_unfaulted hf).symm.trans h
    exact .of_withWords hf fun w hw => .integer (n := 1) _ rfl hw le_rfl
  | below range =>
    cases (exec_below_of_unfaulted hf range).symm.trans h
    split
    next => exact .raised .rangeZero hf
    next hrange => exact .of_loop (c := .below range) hf (.inl ⟨rfl, rfl⟩) fun _ => bne_iff_ne.mpr hrange
  | intInRange lower upper =>
    cases (exec_intInRange_of_unfaulted hf lower upper).symm.trans h
    split
    next => exact .raised .emptyRange hf
    next hle =>
      exact .of_loop (c := .intInRange lower upper) hf (.inl ⟨rfl, rfl⟩) fun hwf =>
        Bool.and_eq_true_iff.mpr ⟨hwf, decide_eq_true (not_lt.mp hle)⟩
  | float01 =>
    cases (exec_float01_of_unfaulted hf).symm.trans h
    exact .of_withWords hf fun w hw => .float (n := 1) _ rfl hw le_rfl
  | double01 =>
    cases (exec_double01_of_unfaulted hf).symm.trans h
    exact .of_withWords hf fun w hw => .float (n := 1) _ rfl hw le_rfl
  | floatInRange lower upper =>
    cases (exec_floatInRange_of_unfaulted hf lower upper).symm.trans h
    exact .of_withWords hf fun w hw => .float (n := 1) _ rfl hw le_rfl
  | doubleInRange lower upper =>
    cases (exec_doubleInRange_of_unfaulted hf lower upper).symm.trans h
    exact .of_withWords hf fun w hw => .float (n := 1) _ rfl hw le_rfl
  | floatGaussian mu sigma =>
    cases (exec_floatGaussian_of_unfaulted hf mu sigma).symm.trans h
    exact .of_loop (c := .floatGaussian mu sigma) hf (.inr ⟨rfl, rfl⟩) fun _ => rfl
  | doubleGaussian mu sigma =>
    cases (exec_doubleGaussian_of_unfaulted hf mu sigma).symm.trans h
    exact .of_loop (c := .doubleGaussian mu sigma) hf (.inr ⟨rfl, rfl⟩) fun _ => rfl
  | readState index =>
    cases (exec_readState_of_unfaulted hf index).symm.trans h
    split
    next => exact .raised .badIndex hf
    next =>
      cases s.word index.toNat with
      | none => exact .raised .unseeded hf
      | some w => exact .read index w
  | writeState index v =>
    cases (exec_writeState_of_unfaulted hf index v).symm.trans h
    split
    next => exact .raised .badIndex hf
    next => exact .written index v
  | readStatus =>
    cases (exec_readStatus s).symm.trans h
    exact .status

end Sys2Proof.Machine
end

section
/-! PROOFS. What every step keeps: the non-zero state, the invariant, the drawn words, the hanging Gaussian
(spec/41_core_step.md R108, spec/10_state.md R26, spec/20_memory.md R45, spec/44_gaussian.md R198). -/

namespace Sys2Proof.Machine

/-! ### The words and the command in progress after each update -/

@[simp] theorem State.words?_completed (s : State) (w : Words) (res : U64) : (s.completed w res).words? = some w := rfl

@[simp] theorem State.completed_inProgress (s : State) (w : Words) (res : U64) :
    (s.completed w res).inProgress = none := rfl

@[simp] theorem State.completedFloat_inProgress (s : State) (w : Words) (res : U64) :
    (s.completedFloat w res).inProgress = none := rfl

@[simp] theorem State.faulted_inProgress (s : State) (code : BitVec 4) : (s.faulted code).inProgress = none := rfl

@[simp] theorem State.ignored_inProgress (s : State) : s.ignored.inProgress = none := rfl

@[simp] theorem State.respondOk_inProgress (s : State) (res : U64) : (s.respondOk res).inProgress = none := rfl

/-! ### The all-zero state -/

theorem advance_zero : advance Words.zero = Words.zero := by decide

/-- ADVANCE is injective and fixes the all-zero state (R108). -/
theorem advance_eq_zero_iff {w : Words} : advance w = Words.zero ↔ w = Words.zero := by
  have hinv : Function.LeftInverse advanceInv advance := advanceInv_advance
  exact hinv.injective.eq_iff' advance_zero

theorem advanceN_eq_zero_iff {n : Nat} {w : Words} : advanceN n w = Words.zero ↔ w = Words.zero := by
  induction n with
  | zero => exact Iff.rfl
  | succ n ih => rw [advanceN_succ, advance_eq_zero_iff, ih]

theorem drawAt_zero (v : Variant) (n : Nat) : drawAt v Words.zero n = 0 := by
  rw [drawAt, advanceN_eq_zero_iff.mpr rfl]
  exact congrArg Prod.fst (draw_zero v)

theorem seedWords_ne_zero (chain : SeedChain) (value : U64) : seedWords chain value ≠ Words.zero := by
  cases chain with
  | outputChained => exact seedChained_ne_zero value
  | counter => exact seedCounter_ne_zero value

/-! ### Non-zero states -/

theorem State.nonZero_of_idle {s : State} {w : Words} (hidle : s.inProgress = none) (hw : s.words? = some w)
    (hne : w ≠ Words.zero) : s.nonZero :=
  ⟨⟨w, hw, hne⟩, fun p hp => absurd (hp.symm.trans hidle) (Option.some_ne_none p)⟩

theorem State.nonZero_stayBusy {s : State} {w w' : Words} (hw : s.words? = some w) (hne : w ≠ Words.zero)
    (hne' : w' ≠ Words.zero) (c : LoopCommand) : (s.stayBusy c w').nonZero :=
  ⟨⟨w, hw, hne⟩, fun p hp => by cases hp; exact hne'⟩

/-- A draw from a non-zero state and SEED leave non-zero words; the other commands but WRITE_STATE leave S. -/
theorem State.CommandLeaves.nonZero {i : Instr} {s t : State} (h : s.CommandLeaves i t) {w : Words}
    (hw : s.words? = some w) (hne : w ≠ Words.zero) (hi : ∀ index v, i ≠ .writeState index v) : t.nonZero := by
  have hdrawn (n : Nat) : advanceN n w ≠ Words.zero := fun hzero => hne (advanceN_eq_zero_iff.mp hzero)
  cases h with
  | ignored => exact State.nonZero_of_idle s.ignored_inProgress hw hne
  | raised cause => exact State.nonZero_of_idle (s.faulted_inProgress _) hw hne
  | status => exact State.nonZero_of_idle (s.respondOk_inProgress _) hw hne
  | read index v => exact State.nonZero_of_idle (s.respondOk_inProgress _) hw hne
  | written index v => exact absurd rfl (hi index v)
  | seeded v => exact State.nonZero_of_idle (s.completed_inProgress _ _) rfl (seedWords_ne_zero _ v)
  | integer res _ hw' =>
    cases hw'.symm.trans hw
    exact State.nonZero_of_idle (s.completed_inProgress _ _) rfl (hdrawn _)
  | float res _ hw' =>
    cases hw'.symm.trans hw
    exact State.nonZero_of_idle (s.completedFloat_inProgress _ _) rfl (hdrawn _)
  | busy _ _ hw' =>
    cases hw'.symm.trans hw
    exact State.nonZero_stayBusy hw hne (hdrawn _) _

theorem State.LoopDraws.nonZero {c : LoopCommand} {s t : State} {w w' : Words} (h : s.LoopDraws c w' t)
    (hw : s.words? = some w) (hne : w ≠ Words.zero) (hne' : w' ≠ Words.zero) : t.nonZero := by
  obtain ⟨n, -, h⟩ := h
  have hdrawn : advanceN n w' ≠ Words.zero := fun hzero => hne' (advanceN_eq_zero_iff.mp hzero)
  obtain ⟨-, res, rfl⟩ | ⟨-, res, rfl⟩ | rfl := h
  · exact State.nonZero_of_idle (s.completed_inProgress _ _) rfl hdrawn
  · exact State.nonZero_of_idle (s.completedFloat_inProgress _ _) rfl hdrawn
  · exact State.nonZero_stayBusy hw hne hdrawn c

/-- A step that neither resets the block nor writes a word from an operand keeps the state non-zero. -/
theorem step_nonZero {s t : State} (hs : s.nonZero) (h : step s = .next t) (hreset : s.host.head? ≠ some .reset)
    (hwrite : ∀ c index v, s.host.head? = some (.command c) → decode c ≠ .ok (.writeState index v)) : t.nonZero := by
  obtain ⟨⟨w, hw, hne⟩, hbusy⟩ := hs
  obtain ⟨rest, -, hidle, rfl⟩ | ⟨rest, hhost, -⟩ | ⟨c, rest, -, hhost, hrun⟩ | ⟨p, rest, hp, -, -, rfl⟩ := step_cases h
  · exact State.nonZero_of_idle hidle hw hne
  · exact absurd (congrArg List.head? hhost) hreset
  · obtain ⟨i, hdecode, hexec⟩ | ⟨-, ⟨-, rfl⟩ | ⟨-, rfl⟩⟩ := runCommand_cases hrun
    · exact (exec_leaves hexec).nonZero hw hne fun index v hi =>
        hwrite c index v (congrArg List.head? hhost) (hi ▸ hdecode)
    · exact State.nonZero_of_idle (State.ignored_inProgress _) hw hne
    · exact State.nonZero_of_idle (State.faulted_inProgress _ _) hw hne
  · exact (resume_draws p.cmd p.words { s with host := rest }).nonZero hw hne (hbusy p hp)

/-! ### The invariant -/

theorem State.inv_iff {s : State} : s.inv = true ↔ s.statusLegal = true ∧ s.busyLegal = true :=
  Bool.and_eq_true_iff

theorem State.inv_of_idle {s : State} (hidle : s.inProgress = none) (hstatus : s.statusLegal = true) :
    s.inv = true := by
  refine State.inv_iff.mpr ⟨hstatus, ?_⟩
  simp only [State.busyLegal, hidle]

theorem State.statusLegal_faulted (s : State) (c : Cause) : (s.faulted c.code).statusLegal = true := by
  obtain ⟨hle, hne⟩ := c.code_legal
  exact Bool.and_eq_true_iff.mpr ⟨decide_eq_true hle, beq_iff_eq.mpr (bne_iff_ne.mpr hne).symm⟩

/-- STATUS is legal or not by its CAUSE and FAULT alone. -/
theorem State.statusLegal_congr {s t : State} (hcause : t.cause = s.cause) (hfault : t.fault = s.fault) :
    t.statusLegal = s.statusLegal := by
  rw [State.statusLegal, State.statusLegal, hcause, hfault]

theorem State.busyLegal_iff_of_busy {s : State} {p : InProgress} (hp : s.inProgress = some p) :
    s.busyLegal = true ↔ s.fault = false ∧ s.words?.isSome = true ∧ p.cmd.legal = true ∧ s.response = none := by
  simp [State.busyLegal, hp, and_assoc]

theorem State.inv_stayBusy {s : State} {c : LoopCommand} (hstatus : s.statusLegal = true)
    (hf : s.fault = false) (hw : s.words?.isSome = true) (hc : c.legal = true) (w' : Words) :
    (s.stayBusy c w').inv = true :=
  State.inv_iff.mpr ⟨hstatus, (State.busyLegal_iff_of_busy (s.stayBusy_inProgress c w')).mpr ⟨hf, hw, hc, rfl⟩⟩

/-- A command records one of the causes or leaves STATUS, and it stays in progress only past its checks. -/
theorem State.CommandLeaves.inv {i : Instr} {s t : State} (h : s.CommandLeaves i t) (hwf : i.wellFormed = true)
    (hstatus : s.statusLegal = true) : t.inv = true := by
  cases h with
  | ignored => exact State.inv_of_idle s.ignored_inProgress hstatus
  | raised cause => exact State.inv_of_idle (s.faulted_inProgress _) (s.statusLegal_faulted cause)
  | status => exact State.inv_of_idle (s.respondOk_inProgress _) hstatus
  | read index v => exact State.inv_of_idle (s.respondOk_inProgress _) hstatus
  | written index v =>
    obtain ⟨hcause, hfault, -⟩ := s.setWord_frame index.toNat v
    exact State.inv_of_idle (State.respondOk_inProgress _ _) ((State.statusLegal_congr hcause hfault).trans hstatus)
  | seeded v => exact State.inv_of_idle (s.completed_inProgress _ _) hstatus
  | integer res => exact State.inv_of_idle (s.completed_inProgress _ _) hstatus
  | float res => exact State.inv_of_idle (s.completedFloat_inProgress _ _) hstatus
  | busy _ hf hw _ hc => exact State.inv_stayBusy hstatus hf (Option.isSome_of_eq_some hw) (hc hwf) _

theorem step_inv {s t : State} (hs : s.inv = true) (h : step s = .next t) : t.inv = true := by
  obtain ⟨hstatus, hbusy⟩ := State.inv_iff.mp hs
  obtain ⟨rest, -, hidle, rfl⟩ | ⟨rest, -, rfl⟩ | ⟨c, rest, -, -, hrun⟩ | ⟨p, rest, hp, -, -, rfl⟩ := step_cases h
  · exact State.inv_of_idle hidle hstatus
  · exact State.inv_of_idle (resetBlock_inProgress _) rfl
  · obtain ⟨i, hdecode, hexec⟩ | ⟨-, ⟨-, rfl⟩ | ⟨-, rfl⟩⟩ := runCommand_cases hrun
    · exact (exec_leaves hexec).inv (wellFormed_of_decode hdecode) hstatus
    · exact State.inv_of_idle (State.ignored_inProgress _) hstatus
    · exact State.inv_of_idle (State.faulted_inProgress _ _) (State.statusLegal_faulted _ _)
  · obtain ⟨hf, hw, hc, -⟩ := (State.busyLegal_iff_of_busy hp).mp hbusy
    obtain ⟨n, -, ⟨-, res, h⟩ | ⟨-, res, h⟩ | h⟩ := resume_draws p.cmd p.words { s with host := rest }
    · exact h ▸ State.inv_of_idle (State.completed_inProgress _ _ _) hstatus
    · exact h ▸ State.inv_of_idle (State.completedFloat_inProgress _ _ _) hstatus
    · exact h ▸ State.inv_stayBusy hstatus hf hw hc _

/-! ### The drawn words -/

/-- The words of a command in progress come from S, and S is as in `s` while one is in progress. -/
def State.DrawnFrom (s t : State) : Prop := t.busyWordsDrawn ∧ (t.inProgress.isSome → t.words? = s.words?)

theorem State.drawnFrom_of_idle (s : State) {t : State} (hidle : t.inProgress = none) : s.DrawnFrom t :=
  ⟨fun p hp => absurd (hp.symm.trans hidle) (Option.some_ne_none p), fun hp => by simp [hidle] at hp⟩

theorem State.drawnFrom_stayBusy {s : State} {w : Words} {n : Nat} (hw : s.words? = some w) (hn : 1 ≤ n)
    (c : LoopCommand) : s.DrawnFrom (s.stayBusy c (advanceN n w)) :=
  ⟨fun p hp => by cases hp; exact ⟨w, n, hw, hn, rfl⟩, fun _ => rfl⟩

theorem State.CommandLeaves.drawnFrom {i : Instr} {s t : State} (h : s.CommandLeaves i t) : s.DrawnFrom t := by
  cases h with
  | busy _ _ hw hn => exact State.drawnFrom_stayBusy hw hn _
  | ignored | raised | status | read | written | seeded | integer | float => exact s.drawnFrom_of_idle rfl

theorem step_drawnFrom {s t : State} (hs : s.busyWordsDrawn) (h : step s = .next t) : s.DrawnFrom t := by
  obtain ⟨rest, -, hidle, rfl⟩ | ⟨rest, -, rfl⟩ | ⟨c, rest, -, -, hrun⟩ | ⟨p, rest, hp, -, -, rfl⟩ := step_cases h
  · exact s.drawnFrom_of_idle hidle
  · exact s.drawnFrom_of_idle (resetBlock_inProgress _)
  · obtain ⟨i, -, hexec⟩ | ⟨-, ⟨-, rfl⟩ | ⟨-, rfl⟩⟩ := runCommand_cases hrun
    · exact (exec_leaves hexec).drawnFrom
    · exact s.drawnFrom_of_idle (State.ignored_inProgress _)
    · exact s.drawnFrom_of_idle (State.faulted_inProgress _ _)
  · obtain ⟨w, n, hw, hn, hwords⟩ := hs p hp
    obtain ⟨cmd, words⟩ := p
    subst hwords
    obtain ⟨k, -, ⟨-, res, h⟩ | ⟨-, res, h⟩ | h⟩ := resume_draws cmd (advanceN n w) { s with host := rest }
    · exact h ▸ s.drawnFrom_of_idle (State.completed_inProgress _ _ _)
    · exact h ▸ s.drawnFrom_of_idle (State.completedFloat_inProgress _ _ _)
    · rw [← advanceN_add] at h
      exact h ▸ State.drawnFrom_stayBusy (s := { s with host := rest }) hw (Nat.le_add_right_of_le hn) _

/-! ### The hanging Gaussian -/

/-- The iterations of a hanging Gaussian lead back to the words they start from. -/
theorem step_hangs {s t : State} (hs : s.hangs) (hreset : s.host.head? ≠ some .reset) (h : step s = .next t) :
    t.hangs ∧ t.inProgress = s.inProgress := by
  obtain ⟨hw, -, ⟨c, w⟩, hp, hc, rfl⟩ := hs
  obtain ⟨rest, -, hidle, -⟩ | ⟨rest, hhost, -⟩ | ⟨-, -, hidle, -⟩ | ⟨p, rest, hp', -, -, rfl⟩ := step_cases h
  · exact absurd (hp.symm.trans hidle) (Option.some_ne_none _)
  · exact absurd (congrArg List.head? hhost) hreset
  · exact absurd (hp.symm.trans hidle) (Option.some_ne_none _)
  · cases hp'.symm.trans hp
    rw [resume_gaussian_zero hc]
    exact ⟨⟨hw, rfl, _, rfl, hc, rfl⟩, hp.symm⟩

end Sys2Proof.Machine

namespace Sys2Proof.Proofs

open Sys2Proof.Machine

/-- Settles O14: draws come from an injective ADVANCE that fixes the all-zero state, and SEED never loads it. -/
theorem nonZeroStateStaysNonZero : Obligations.NonZeroStateStaysNonZero :=
  fun _ _ hs h hreset hwrite => step_nonZero hs h hreset hwrite

/-- Settles O51, by the inversions of `step` and `exec`. -/
theorem everyStepKeepsTheInvariant : Obligations.EveryStepKeepsTheInvariant :=
  fun _ _ hs h => step_inv hs h

/-- Settles O52: no command is in progress after reset, and CAUSE and FAULT are 0. -/
theorem resetHasTheInvariant : Obligations.ResetHasTheInvariant :=
  State.inv_of_idle State.reset_inProgress rfl

/-- Settles O59: a step either goes on with the Gaussian, which changes nothing, or takes a reset. -/
theorem everyStepKeepsTheHangingGaussian : Obligations.EveryStepKeepsTheHangingGaussian :=
  fun _ _ hs hreset h => step_hangs hs hreset h

/-- Settles O53: a command that stays in progress has drawn on from its words and has not touched S. -/
theorem everyStepKeepsTheDrawnWords : Obligations.EveryStepKeepsTheDrawnWords :=
  fun _ _ hs h => step_drawnFrom hs h

/-- Settles O13: ADVANCE is injective and fixes the all-zero state, whose scrambled word is 0. -/
theorem zeroStateIsTheOnlyPreimageOfZero : Obligations.ZeroStateIsTheOnlyPreimageOfZero :=
  ⟨fun _ => advance_eq_zero_iff, drawAt_zero⟩

end Sys2Proof.Proofs
end

section
/-! PROOFS. Frames of the commands, faults that change no word, and what a step reads
(spec/20_memory.md R45 to R48, spec/60_exceptions.md R241, spec/70_reset_and_hazards.md R271, R273). -/

namespace Sys2Proof.Machine

/-! ### Frames -/

@[simp] theorem State.setWord_freeIndex (s : State) (i : Nat) (v : U64) : (s.setWord i v).freeIndex = s.freeIndex := by
  obtain ⟨-, -, -, -, hfree⟩ := s.setWord_frame i v
  exact hfree

/-- No command takes a move of the host beside its own. -/
theorem State.CommandLeaves.host_eq {i : Instr} {s t : State} (h : s.CommandLeaves i t) : t.host = s.host := by
  cases h with
  | written index v =>
    obtain ⟨-, -, -, hhost, -⟩ := s.setWord_frame index.toNat v
    exact hhost
  | ignored | raised | status | read | seeded | integer | float | busy => rfl

/-- Only a raised fault writes CAUSE and FAULT (R241). -/
theorem State.CommandLeaves.status_eq {i : Instr} {s t : State} (h : s.CommandLeaves i t)
    (hresponse : ∀ code, t.response ≠ some (.fault code)) : t.cause = s.cause ∧ t.fault = s.fault := by
  cases h with
  | raised cause => exact absurd rfl (hresponse cause.code)
  | written index v =>
    obtain ⟨hcause, hfault, -⟩ := s.setWord_frame index.toNat v
    exact ⟨hcause, hfault⟩
  | ignored | status | read | seeded | integer | float | busy => exact ⟨rfl, rfl⟩

theorem State.CommandLeaves.status_eq_of_ok {i : Instr} {s t : State} (h : s.CommandLeaves i t)
    (hresponse : ∃ res, t.response = some (.ok res)) : t.cause = s.cause ∧ t.fault = s.fault := by
  obtain ⟨res, hres⟩ := hresponse
  exact h.status_eq fun code hcode => by simp [hres] at hcode

/-- The NaN counter moves with a float result only (R170). -/
theorem State.CommandLeaves.freeIndex_eq {i : Instr} {s t : State} (h : s.CommandLeaves i t)
    (hi : i.drawsFloat = false) : t.freeIndex = s.freeIndex := by
  cases h with
  | written index v => exact s.setWord_freeIndex index.toNat v
  | float res hfloat => exact absurd (hi.symm.trans hfloat) Bool.false_ne_true
  | ignored | raised | status | read | seeded | integer | busy => rfl

/-- The four words and their validity. -/
def State.SameWords (s t : State) : Prop := t.s0 = s.s0 ∧ t.s1 = s.s1 ∧ t.s2 = s.s2 ∧ t.s3 = s.s3

/-- A command that does not respond `OK` leaves S whole, and the NaN counter (R45). -/
theorem State.CommandLeaves.sameWords {i : Instr} {s t : State} (h : s.CommandLeaves i t)
    (hresponse : ∀ res, t.response ≠ some (.ok res)) : t.freeIndex = s.freeIndex ∧ s.SameWords t := by
  cases h with
  | ignored | raised | busy => exact ⟨rfl, rfl, rfl, rfl, rfl⟩
  | status | read | written | seeded | integer | float => exact absurd rfl (hresponse _)

/-- The reading commands change no word, whatever they respond (R46). -/
theorem State.CommandLeaves.sameWords_of_read {i : Instr} {s t : State} (h : s.CommandLeaves i t)
    (hi : i = .readStatus ∨ ∃ index, i = .readState index) : s.SameWords t := by
  obtain rfl | ⟨index, rfl⟩ := hi
  · cases h with
    | ignored | raised | status => exact ⟨rfl, rfl, rfl, rfl⟩
    | integer _ hi | float _ hi => exact absurd hi Bool.false_ne_true
    | busy hi => exact hi.elim (absurd · Bool.false_ne_true) (absurd · Bool.false_ne_true)
  · cases h with
    | ignored | raised | read => exact ⟨rfl, rfl, rfl, rfl⟩
    | integer _ hi | float _ hi => exact absurd hi Bool.false_ne_true
    | busy hi => exact hi.elim (absurd · Bool.false_ne_true) (absurd · Bool.false_ne_true)

/-- WRITE_STATE leaves every word but the one at its index (R221). -/
theorem State.CommandLeaves.word_eq_of_write {index v : U64} {s t : State} (h : s.CommandLeaves (.writeState index v) t)
    {j : Nat} (hj : index.toNat ≠ j) : t.word j = s.word j := by
  cases h with
  | ignored | raised => rfl
  | written => exact s.word_setWord_ne index.toNat j v hj
  | integer _ hi | float _ hi => exact absurd hi Bool.false_ne_true
  | busy hi => exact hi.elim (absurd · Bool.false_ne_true) (absurd · Bool.false_ne_true)

/-! ### Faults -/

/-- A command that answers a fault leaves all but STATUS and the response (R241, R242). -/
theorem State.CommandLeaves.of_fault {i : Instr} {s t : State} {code : BitVec 4} (h : s.CommandLeaves i t)
    (hresponse : t.response = some (.fault code)) : t.inProgress = none ∧ t.fault = true ∧ t.cause = code := by
  cases h with
  | ignored hf =>
    cases hresponse
    exact ⟨rfl, hf, rfl⟩
  | raised =>
    cases hresponse
    exact ⟨rfl, rfl, rfl⟩
  | status | read | written | seeded | integer | float | busy => cases hresponse

/-- An illegal command leaves what a legal one that faults leaves. -/
theorem runCommand_leaves {c : Command} {s t : State} (h : runCommand c s = .next t) :
    (∃ i, decode c = .ok i ∧ s.CommandLeaves i t) ∨ (∃ e, decode c = .error e) ∧ ∀ i, s.CommandLeaves i t := by
  obtain ⟨i, hdecode, hexec⟩ | ⟨herror, ⟨hf, rfl⟩ | ⟨hf, rfl⟩⟩ := runCommand_cases h
  · exact .inl ⟨i, hdecode, exec_leaves hexec⟩
  · exact .inr ⟨herror, fun _ => .ignored hf⟩
  · exact .inr ⟨herror, fun _ => .raised .illegalCommand hf⟩

/-- A loop in progress never answers a fault. -/
theorem State.LoopDraws.response_ne_fault {c : LoopCommand} {s t : State} {w : Words} (h : s.LoopDraws c w t)
    (code : BitVec 4) : t.response ≠ some (.fault code) := by
  obtain ⟨n, -, ⟨-, res, rfl⟩ | ⟨-, res, rfl⟩ | rfl⟩ := h <;> exact fun h => by cases h

theorem State.LoopDraws.host_eq {c : LoopCommand} {s t : State} {w : Words} (h : s.LoopDraws c w t) :
    t.host = s.host := by
  obtain ⟨n, -, ⟨-, res, rfl⟩ | ⟨-, res, rfl⟩ | rfl⟩ := h <;> rfl

/-- A step that answers a fault runs a command, legal or not: some instruction could have left the same. -/
theorem step_of_fault {s t : State} {code : BitVec 4} (h : step s = .next t)
    (hresponse : t.response = some (.fault code)) : ∃ rest i, { s with host := rest }.CommandLeaves i t := by
  obtain ⟨rest, -, -, rfl⟩ | ⟨rest, -, rfl⟩ | ⟨c, rest, -, -, hrun⟩ | ⟨p, rest, -, -, -, rfl⟩ := step_cases h
  · cases hresponse
  · cases hresponse
  · obtain ⟨i, -, hleaves⟩ | ⟨-, hleaves⟩ := runCommand_leaves hrun
    · exact ⟨rest, i, hleaves⟩
    · exact ⟨rest, .readStatus, hleaves _⟩
  · exact absurd hresponse ((resume_draws p.cmd p.words _).response_ne_fault code)

/-! ### A step, move by move -/

section
variable {s : State} {rest : List HostMove}

theorem step_of_no_move (hidle : s.inProgress = none) (hhost : s.host = []) : step s = .next (idle s) := by
  simp only [step, hidle, stepReady, hhost]

theorem step_of_wait (hidle : s.inProgress = none) (hhost : s.host = .wait :: rest) :
    step s = .next (idle { s with host := rest }) := by
  simp only [step, hidle, stepReady, hhost]

theorem step_of_command {c : Command} (hidle : s.inProgress = none) (hhost : s.host = .command c :: rest) :
    step s = runCommand c { s with host := rest } := by
  simp only [step, hidle, stepReady, hhost]

theorem step_of_busy_wait {p : InProgress} (hbusy : s.inProgress = some p) (hhost : s.host = .wait :: rest) :
    step s = .next (resume p { s with host := rest }) := by
  simp only [step, hbusy, stepBusy, hhost]

theorem step_of_busy_command {p : InProgress} {c : Command} (hbusy : s.inProgress = some p)
    (hhost : s.host = .command c :: rest) : step s = .next (resume p s) := by
  simp only [step, hbusy, stepBusy, hhost]

end

/-! ### What a step does not read -/

theorem State.respondOk_setWord_congr (s : State) (r : Option Response) (p : Option InProgress) (i : Nat)
    (v res : U64) :
    ({ s with response := r, inProgress := p }.setWord i v).respondOk res = (s.setWord i v).respondOk res := by
  match i with
  | 0 | 1 | 2 | 3 => rfl
  | i + 4 => rfl

/-- No command reads the response or the command in progress: each ends with a response or stays in progress anew. -/
theorem exec_congr (i : Instr) (s : State) (r : Option Response) (p : Option InProgress) :
    exec i { s with response := r, inProgress := p } = exec i s := by
  cases i with
  | writeState index v =>
    simp only [exec, execWriteState, State.respondOk_setWord_congr]
    rfl
  | seed | nextU64 | below | intInRange | float01 | double01 | floatInRange | doubleInRange | floatGaussian
  | doubleGaussian | readState | readStatus => rfl

theorem runCommand_congr_response (c : Command) (s : State) (r : Option Response) :
    runCommand c { s with response := r } = runCommand c s := by
  rw [runCommand, runCommand]
  cases decode c with
  | ok i => exact exec_congr i s r s.inProgress
  | error e => rfl

theorem resume_congr_response (p : InProgress) (s : State) (r : Option Response) :
    resume p { s with response := r } = resume p s := by
  obtain ⟨c, w⟩ := p
  cases c <;> rfl

/-- Every branch of `step` sets the response anew (R30): here each move of the host, without and with a command in
progress. -/
theorem step_congr_response {s : State} {busy : Option InProgress} {host : List HostMove}
    (hbusy : s.inProgress = busy) (hhost : s.host = host) (r : Option Response) :
    step { s with response := r } = step s := by
  match busy, hbusy, host, hhost with
  | none, hidle, [], hhost =>
    rw [step_of_no_move hidle hhost, step_of_no_move (s := { s with response := r }) hidle hhost, idle, idle]
  | none, hidle, .wait :: rest, hhost =>
    rw [step_of_wait hidle hhost, step_of_wait (s := { s with response := r }) hidle hhost, idle, idle]
  | none, hidle, .command c :: rest, hhost =>
    rw [step_of_command hidle hhost, step_of_command (s := { s with response := r }) hidle hhost]
    exact runCommand_congr_response c { s with host := rest } r
  | some p, hbusy, [], hhost =>
    rw [step_of_busy hbusy hhost, step_of_busy (s := { s with response := r }) hbusy hhost, resume_congr_response]
  | some p, hbusy, .wait :: rest, hhost =>
    rw [step_of_busy_wait hbusy hhost, step_of_busy_wait (s := { s with response := r }) hbusy hhost]
    exact congrArg Host.Outcome.next (resume_congr_response p { s with host := rest } r)
  | some p, hbusy, .command c :: rest, hhost =>
    rw [step_of_busy_command hbusy hhost, step_of_busy_command (s := { s with response := r }) hbusy hhost,
      resume_congr_response]
  | _, _, .reset :: rest, hhost =>
    rw [step_of_reset hhost, step_of_reset (s := { s with response := r }) hhost, resetBlock, resetBlock]

/-! ### Save and restore -/

theorem eq_of_writeState {s t : State} {index v : U64} (h : exec (.writeState index v) s = .next t)
    (hf : s.fault = false) (hindex : ¬ 3 < index) : t = (s.setWord index.toNat v).respondOk 0 := by
  rw [exec_writeState_of_unfaulted hf, if_neg hindex] at h
  exact (Host.Outcome.next.inj h).symm

/-- The four writes of a restore, on an unfaulted block (R221, R223). -/
theorem exec_restore {s t1 t2 t3 t4 : State} (hf : s.fault = false) (w : Words)
    (h1 : exec (.writeState 0 w.s0) s = .next t1) (h2 : exec (.writeState 1 w.s1) t1 = .next t2)
    (h3 : exec (.writeState 2 w.s2) t2 = .next t3) (h4 : exec (.writeState 3 w.s3) t3 = .next t4) :
    t4 = s.completed w 0 := by
  obtain rfl := eq_of_writeState h1 hf (by decide)
  obtain rfl := eq_of_writeState h2 hf (by decide)
  obtain rfl := eq_of_writeState h3 hf (by decide)
  exact eq_of_writeState h4 hf (by decide)

/-- A legal STATUS without FAULT has no CAUSE (R26). -/
theorem State.cause_of_statusLegal {s : State} (hstatus : s.statusLegal = true) (hf : s.fault = false) :
    s.cause = 0 := by
  obtain ⟨-, hcause⟩ := Bool.and_eq_true_iff.mp hstatus
  rw [hf] at hcause
  simpa using hcause

end Sys2Proof.Machine

namespace Sys2Proof.Proofs

open Sys2Proof.Machine

/-- Settles O55: every branch of a step sets the response, and none reads it. -/
theorem noStepReadsAnEarlierResponse : Obligations.NoStepReadsAnEarlierResponse :=
  fun _ r => step_congr_response rfl rfl r

/-- Settles O46: only a command answers a fault, and one that does leaves the words and the NaN counter. -/
theorem faultingCommandsChangeNoWord : Obligations.FaultingCommandsChangeNoWord := by
  intro s t code h hresponse
  obtain ⟨rest, i, hleaves⟩ := step_of_fault h hresponse
  obtain ⟨hfree, h0, h1, h2, h3⟩ := hleaves.sameWords fun res hres => by simp [hres] at hresponse
  exact ⟨h0, h1, h2, h3, step_params_eq h, hfree, hleaves.of_fault hresponse⟩

/-- Settles O49: a block without a command idles when the host makes no move, and a loop in progress leaves the host's
moves. -/
theorem oneCommandAtATime : Obligations.OneCommandAtATime := by
  refine fun s => ⟨fun hidle hhost => step_of_no_move hidle hhost, fun c rest t hbusy hhost h => ?_⟩
  obtain ⟨p, hp⟩ := Option.isSome_iff_exists.mp hbusy
  cases (step_of_busy_command hp hhost).symm.trans h
  exact (resume_draws p.cmd p.words s).host_eq

/-- Settles O50: a waiting block runs the command it is presented, which decodes to a well-formed instruction. -/
theorem stepRunsTheDecodedCommand : Obligations.StepRunsTheDecodedCommand := by
  intro s c rest i hidle hhost hdecode
  refine ⟨wellFormed_of_decode hdecode, ?_⟩
  simp only [step_of_command hidle hhost, runCommand, hdecode]

/-- Settles O56, by what READ_STATE and READ_STATUS can leave. -/
theorem readCommandsFrame : Obligations.ReadCommandsFrame := by
  intro s t i hi h
  have hleaves := exec_leaves h
  obtain ⟨h0, h1, h2, h3⟩ := hleaves.sameWords_of_read hi
  have hfloat : i.drawsFloat = false := by
    obtain rfl | ⟨index, rfl⟩ := hi
    · rfl
    · rfl
  exact ⟨h0, h1, h2, h3, exec_params_eq h, hleaves.host_eq, hleaves.freeIndex_eq hfloat, hleaves.status_eq_of_ok⟩

/-- Settles O57, by what SEED and WRITE_STATE can leave. -/
theorem writeCommandsFrame : Obligations.WriteCommandsFrame := by
  intro s t i hi h
  have hleaves := exec_leaves h
  have hfloat : i.drawsFloat = false := by
    obtain ⟨value, rfl⟩ | ⟨index, value, rfl⟩ := hi
    · rfl
    · rfl
  refine ⟨exec_params_eq h, hleaves.host_eq, hleaves.freeIndex_eq hfloat, hleaves.status_eq_of_ok, ?_⟩
  rintro index value rfl
  have hother {k : U64} (hk : index ≠ k) : t.word k.toNat = s.word k.toNat :=
    hleaves.word_eq_of_write fun htoNat => hk (BitVec.eq_of_toNat_eq htoNat)
  exact ⟨hother, hother, hother, hother⟩

/-- Settles O58, by what a generation command can leave. -/
theorem generationCommandsFrame : Obligations.GenerationCommandsFrame := by
  intro s t i hi h
  have hleaves := exec_leaves h
  refine ⟨exec_params_eq h, hleaves.host_eq, hleaves.status_eq, fun hinteger => hleaves.freeIndex_eq ?_,
    hleaves.sameWords⟩
  obtain rfl | ⟨r, rfl⟩ | ⟨l, u, rfl⟩ := hinteger
  all_goals rfl

/-- Settles O43: the four writes leave the words of `s` over the bookkeeping of `s'`, and no command reads a response or
a command in progress. -/
theorem saveAndRestoreRoundTrips : Obligations.SaveAndRestoreRoundTrips := by
  intro s s' t1 t2 t3 t4 w hw hstatus hstatus' hf hf' hparams h1 h2 h3 h4
  obtain rfl := exec_restore hf' w h1 h2 h3 h4
  refine ⟨rfl, fun i => ?_⟩
  obtain ⟨h0, h1, h2, h3⟩ := State.words?_eq_some_iff.mp hw
  rw [← exec_congr i { s with host := _, freeIndex := _ } (some (.ok 0)) none]
  simp only [h0, h1, h2, h3, hf, ← hf', hparams, State.cause_of_statusLegal hstatus hf,
    ← State.cause_of_statusLegal hstatus' hf']
  rfl

/-- Settles O11: SEED reads FAULT, the seed and SEED_CHAIN alone, and writes none of them. -/
theorem seedIsHistoryFreeAndIdempotent : Obligations.SeedIsHistoryFreeAndIdempotent := by
  intro s s' t t' value hf hf' hparams h h'
  cases (exec_seed_of_unfaulted hf value).symm.trans h
  cases (exec_seed_of_unfaulted hf' value).symm.trans h'
  refine ⟨?_, rfl, ?_⟩
  · rw [State.words?_completed, State.words?_completed, hparams]
  · exact exec_seed_of_unfaulted (s := s.completed _ 0) hf value

end Sys2Proof.Proofs
end

section
/-! PROOFS. BELOW and INT_IN_RANGE: the first accepted draw, its range, and any number of rejections before it
(spec/42_bounded_range.md R130 to R141). -/

namespace Sys2Proof.Machine

/-! ### The loop of REDUCE -/

theorem drawAt_eq (v : Variant) (w : Words) (n : Nat) : drawAt v w n = scramble v (advance^[n] w) := by
  rw [drawAt, advanceN_eq_iterate]

theorem accepts_eq_false_iff_lt {range x : U64} : accepts range x = false ↔ -range < x - x % range := by
  rw [accepts, decide_eq_false_iff_not, BitVec.not_le]

theorem reduceIteration_of_rejects {v : Variant} {range : U64} {w : Words}
    (h : accepts range (scramble v w) = false) : reduceIteration v range w = .reject (advance w) :=
  if_neg (Bool.eq_false_iff.mp h)

section
variable {v : Variant} {range : U64} {w : Words} {n : Nat}

theorem reduceIteration_rejects (hrej : ∀ j < n, accepts range (drawAt v w j) = false) :
    ∀ j < n, reduceIteration v range (advance^[j] w) = .reject (advance^[j + 1] w) := fun j hj => by
  rw [reduceIteration_of_rejects (drawAt_eq v w j ▸ hrej j hj), Function.iterate_succ_apply']

theorem reduceIteration_accepts (hacc : accepts range (drawAt v w n) = true) :
    reduceIteration v range (advance^[n] w) = .accept (drawAt v w n % range) (advanceN (n + 1) w) := by
  rw [reduceIteration_of_accepts (drawAt_eq v w n ▸ hacc), drawAt_eq, advanceN_succ, advanceN_eq_iterate]

theorem iterate_reduceIteration (hn : n < Config.loopFuel) (hrej : ∀ j < n, accepts range (drawAt v w j) = false)
    (hacc : accepts range (drawAt v w n) = true) :
    iterate (reduceIteration v range) Config.loopFuel w = .accept (drawAt v w n % range) (advanceN (n + 1) w) :=
  iterate_accepts n Config.loopFuel w hn (reduceIteration_rejects hrej) (reduceIteration_accepts hacc)

end

/-- An accepted result comes from some iteration of the loop. -/
theorem exists_of_iterate_accept {α : Type} {body : Words → Iteration α} {r : α} {w' : Words} (fuel : Nat) (w : Words)
    (h : iterate body fuel w = .accept r w') : ∃ w0, body w0 = .accept r w' := by
  induction fuel generalizing w with
  | zero => cases h
  | succ fuel ih =>
    rw [iterate] at h
    cases hw : body w with
    | accept r1 w1 =>
      rw [hw] at h
      exact ⟨w, hw.trans h⟩
    | reject w1 =>
      rw [hw] at h
      exact ih w1 h

theorem eq_umod_of_reduceIteration {v : Variant} {range r : U64} {w w' : Words}
    (h : reduceIteration v range w = .accept r w') : r = scramble v w % range := by
  cases hacc : accepts range (scramble v w) with
  | true =>
    cases (reduceIteration_of_accepts hacc).symm.trans h
    rfl
  | false => cases (reduceIteration_of_rejects hacc).symm.trans h

/-! ### The range of INT_IN_RANGE -/

section
variable {range : U64} {lower upper : Int} (hrange : (range.toNat : Int) = upper - lower + 1)
include hrange

theorem intRange_eq : intRange lower upper = range := by
  rw [intRange, ← hrange, BitVec.ofInt_natCast, BitVec.ofNat_toNat, BitVec.setWidth_eq]

/-- A remainder added to the lower bound does not pass the upper one (R141). -/
theorem lower_add_umod_le (hle : lower ≤ upper) (x : U64) : lower + (x % range).toNat ≤ upper := by
  have hlt : x.toNat % range.toNat < range.toNat := Nat.mod_lt _ (by omega)
  rw [BitVec.toNat_umod]
  omega

variable (hlower : isI32 lower = true) (hupper : isI32 upper = true)
include hlower hupper

theorem isI32_lower_add_umod (hle : lower ≤ upper) (x : U64) : isI32 (lower + (x % range).toNat) = true := by
  have hhigh := lower_add_umod_le hrange hle x
  rw [isI32_iff] at hlower hupper ⊢
  omega

end

/-- The width of an I32 range fits a U64 (R138). -/
theorem exists_range {lower upper : Int} (hlower : isI32 lower = true) (hupper : isI32 upper = true)
    (hle : lower ≤ upper) : ∃ range : U64, (range.toNat : Int) = upper - lower + 1 := by
  rw [isI32_iff] at hlower hupper
  refine ⟨BitVec.ofNat 64 (upper - lower + 1).toNat, ?_⟩
  rw [BitVec.toNat_ofNat, Nat.mod_eq_of_lt (by omega)]
  omega

theorem toInt_i32Result {x : Int} (h : isI32 x = true) : (i32Result x).toInt = x := by
  rw [i32Result, BitVec.toInt_signExtend_of_le (by decide), toInt_ofInt_of_isI32 h]

/-- The sign-extended 32-bit encoding of an I32 is its 64-bit encoding (R63). -/
theorem i32Result_eq_ofInt {x : Int} (h : isI32 x = true) : i32Result x = BitVec.ofInt 64 x :=
  BitVec.eq_of_toInt_eq (by
    obtain ⟨hlow, hhigh⟩ := isI32_iff.mp h
    rw [toInt_i32Result h, BitVec.toInt_ofInt_eq_self (by decide) (by omega) (by omega)])

/-! ### The commands -/

theorem exec_intInRange_of_loaded {s : State} {w : Words} {lower upper : Int} (hf : s.fault = false)
    (hw : s.words? = some w) (hle : lower ≤ upper) :
    exec (.intInRange lower upper) s = .next (runIntInRange lower upper w s) := by
  rw [exec_intInRange_of_unfaulted hf, if_neg hle.not_gt, State.withWords_of_some hw]

/-- A loop command that responds `OK` has run its loop from S. -/
theorem exists_resume_of_ok {s t : State} {c : LoopCommand} {res : U64}
    (h : t = s.unlessFaulted (s.withWords fun w => resume ⟨c, w⟩ s)) (hok : t.response = some (.ok res)) :
    ∃ w, t = resume ⟨c, w⟩ s := by
  subst h
  cases hf : s.fault with
  | true =>
    rw [State.unlessFaulted_of_faulted hf] at hok
    cases hok
  | false =>
    rw [State.unlessFaulted_of_unfaulted hf] at hok ⊢
    cases hw : s.words? with
    | none =>
      rw [State.withWords_unseeded hf hw] at hok
      cases hok
    | some w => exact ⟨w, State.withWords_of_some hw _⟩

theorem exists_resume_of_below {s t : State} {range res : U64} (hrange : range ≠ 0)
    (h : exec (.below range) s = .next t) (hok : t.response = some (.ok res)) :
    ∃ w, t = resume ⟨.below range, w⟩ s := by
  rw [exec, execBelow, if_neg hrange] at h
  exact exists_resume_of_ok (Host.Outcome.next.inj h).symm hok

theorem exists_resume_of_intInRange {s t : State} {lower upper : Int} {res : U64} (hle : lower ≤ upper)
    (h : exec (.intInRange lower upper) s = .next t) (hok : t.response = some (.ok res)) :
    ∃ w, t = resume ⟨.intInRange lower upper, w⟩ s := by
  rw [exec, execIntInRange, if_neg hle.not_gt] at h
  exact exists_resume_of_ok (Host.Outcome.next.inj h).symm hok

/-- What the loop of BELOW answers is a remainder. -/
theorem exists_umod_of_runBelow {s : State} {w : Words} {range res : U64}
    (hok : (runBelow range w s).response = some (.ok res)) : ∃ x, res = x % range := by
  obtain ⟨r, w', hloop, hrun⟩ | ⟨w', -, hrun⟩ :=
    s.runLoop_cases (.below range) (reduceIteration s.params.variant range) State.respondOk w
  · obtain ⟨w0, hbody⟩ := exists_of_iterate_accept _ _ hloop
    cases (congrArg State.response hrun).symm.trans hok
    exact ⟨_, eq_umod_of_reduceIteration hbody⟩
  · cases (congrArg State.response hrun).symm.trans hok

/-- What the loop of INT_IN_RANGE answers is a remainder added to the lower bound. -/
theorem exists_umod_of_runIntInRange {s : State} {w : Words} {lower upper : Int} {res : U64}
    (hok : (runIntInRange lower upper w s).response = some (.ok res)) :
    ∃ x, res = i32Result (lower + (x % intRange lower upper).toNat) := by
  obtain ⟨r, w', hloop, hrun⟩ | ⟨w', -, hrun⟩ :=
    s.runLoop_cases (.intInRange lower upper) (reduceIteration s.params.variant (intRange lower upper))
      (fun s r => s.respondOk (i32Result (lower + r.toNat))) w
  · obtain ⟨w0, hbody⟩ := exists_of_iterate_accept _ _ hloop
    cases (congrArg State.response hrun).symm.trans hok
    exact ⟨_, by rw [eq_umod_of_reduceIteration hbody]⟩
  · cases (congrArg State.response hrun).symm.trans hok

/-! ### Runs -/

/-- A command that some run of steps finishes, from the step that takes it on. -/
theorem exists_run_succ {s t u : State} (hstep : step s = .next u) (hrun : ∃ k, run k u = .next t) :
    ∃ k, run (k + 1) s = .next t := by
  obtain ⟨k, hk⟩ := hrun
  exact ⟨k, (run_succ hstep).trans hk⟩

section
variable {s : State} {w : Words} {range : U64} {n : Nat} (hhost : s.host = [])
  (hrej : ∀ j < n, accepts range (drawAt s.params.variant w j) = false)
  (hacc : accepts range (drawAt s.params.variant w n) = true)
include hhost hrej hacc

theorem run_runBelow :
    ∃ k, run k (runBelow range w s) =
      .next (s.completed (advanceN (n + 1) w) (drawAt s.params.variant w n % range)) :=
  runLoop_finishes (c := .below range) (body := fun s => reduceIteration s.params.variant range)
    (fun _ _ => rfl) (fun _ _ => rfl) (fun _ _ _ _ => rfl) n s w hhost (reduceIteration_rejects hrej)
    (reduceIteration_accepts hacc)

theorem run_runIntInRange {lower upper : Int} (hrange : intRange lower upper = range) :
    ∃ k, run k (runIntInRange lower upper w s) =
      .next (s.completed (advanceN (n + 1) w) (i32Result (lower + (drawAt s.params.variant w n % range).toNat))) := by
  subst hrange
  exact runLoop_finishes (c := .intInRange lower upper)
    (body := fun s => reduceIteration s.params.variant (intRange lower upper))
    (fun _ _ => rfl) (fun _ _ => rfl) (fun _ _ _ _ => rfl) n s w hhost (reduceIteration_rejects hrej)
    (reduceIteration_accepts hacc)

end

end Sys2Proof.Machine

namespace Sys2Proof.Proofs

open Sys2Proof.Machine

/-- Settles O17: the loop ends with its first accepted draw. -/
theorem belowReturnsTheFirstAcceptedRemainder : Obligations.BelowReturnsTheFirstAcceptedRemainder := by
  intro s w range n hf hw hrange hn hrej hacc
  have hloop := iterate_reduceIteration hn (fun j hj => accepts_eq_false_iff_lt.mpr (hrej j hj))
    (decide_eq_true hacc)
  rw [exec_below_of_loaded hf hw hrange]
  simp only [runBelow, State.runLoop, hloop, State.respondOk_setWords]

/-- Settles O18: the loop of the exact width, and a sum that stays between the two I32 bounds. -/
theorem intInRangeReturnsTheFirstAcceptedValue : Obligations.IntInRangeReturnsTheFirstAcceptedValue := by
  intro s w lower upper n range hf hw hle hrange hn hrej hacc
  have hloop := iterate_reduceIteration hn (fun j hj => accepts_eq_false_iff_lt.mpr (hrej j hj))
    (decide_eq_true hacc)
  refine ⟨BitVec.ofInt 32 (lower.toInt + (drawAt s.params.variant w n % range).toNat),
    toInt_ofInt_of_isI32 (isI32_lower_add_umod hrange (isI32_toInt lower) (isI32_toInt upper) hle _), ?_⟩
  rw [exec_intInRange_of_loaded hf hw hle]
  simp only [runIntInRange, State.runLoop, intRange_eq hrange, hloop, State.respondOk_setWords, i32Result]

/-- Settles O19: a result is a remainder by the range, or the lower bound and one. -/
theorem boundedResultsLieInTheRange : Obligations.BoundedResultsLieInTheRange := by
  intro s t res hok
  refine ⟨fun range w hrange h => ?_, fun lower upper w hlower hupper hle h => ?_⟩
  · obtain ⟨w, rfl⟩ : ∃ w, t = resume ⟨.below range, w⟩ s :=
      h.elim (fun h => exists_resume_of_below hrange h hok) fun h => ⟨w, h.symm⟩
    obtain ⟨x, rfl⟩ := exists_umod_of_runBelow hok
    exact BitVec.umod_lt x ((BitVec.toNat_pos range).mp (BitVec.toNat_pos_of_ne_zero hrange))
  · obtain ⟨w, rfl⟩ : ∃ w, t = resume ⟨.intInRange lower upper, w⟩ s :=
      h.elim (fun h => exists_resume_of_intInRange hle h hok) fun h => ⟨w, h.symm⟩
    obtain ⟨x, rfl⟩ := exists_umod_of_runIntInRange hok
    obtain ⟨range, hrange⟩ := exists_range hlower hupper hle
    rw [intRange_eq hrange, toInt_i32Result (isI32_lower_add_umod hrange hlower hupper hle x)]
    exact ⟨Int.le_add_of_nonneg_right (Int.natCast_nonneg _), lower_add_umod_le hrange hle x⟩

/-- Settles O20: the step that takes the command and the loop over as many steps as it takes. -/
theorem boundedCommandsRespondOnceADrawIsAccepted : Obligations.BoundedCommandsRespondOnceADrawIsAccepted := by
  intro s c w range n hpresents hw hne hrej hacc
  obtain ⟨-, hf, -⟩ := id hpresents
  refine ⟨fun hdecode => ?_, fun lower upper hdecode hle hrange => ?_⟩
  · exact exists_run_succ
      ((step_of_presents hpresents hdecode).trans (exec_below_of_loaded (s := { s with host := [] }) hf hw hne))
      (run_runBelow (s := { s with host := [] }) rfl hrej hacc)
  · obtain ⟨hlower, hupper⟩ := Bool.and_eq_true_iff.mp (wellFormed_of_decode hdecode)
    rw [← i32Result_eq_ofInt (isI32_lower_add_umod hrange hlower hupper hle _)]
    exact exists_run_succ
      ((step_of_presents hpresents hdecode).trans (exec_intInRange_of_loaded (s := { s with host := [] }) hf hw hle))
      (run_runIntInRange (s := { s with host := [] }) rfl hrej hacc (intRange_eq hrange))

end Sys2Proof.Proofs
end

section
/-! PROOFS. The Gaussians: the deviate of the first accepted iteration, any number of rejections before it, and what mu
and sigma do not reach (spec/44_gaussian.md R191 to R199). -/

namespace Sys2Proof.Machine

/-! ### One iteration -/

/-- The radius of an iteration from its coordinates: `u*u + v*v` under POLAR2, `u*u` under LITERAL1 (R191, R199). -/
def polarRadius (f : FloatFormat) (form : GaussForm) (u v : FloatValue) : FloatValue :=
  match form with
  | .polar2 => radius f u v
  | .literal1 => fmul f u u

/-- The radius of iteration `j` when draw number `k` gives the coordinate `z k`. -/
def iterationRadius (f : FloatFormat) (form : GaussForm) (z : Nat → FloatValue) (j : Nat) : FloatValue :=
  polarRadius f form (z (form.draws * j)) (z (form.draws * j + 1))

theorem iterationRadius_polar2 (f : FloatFormat) (z : Nat → FloatValue) (j : Nat) :
    iterationRadius f .polar2 z j =
      fadd f (fmul f (z (2 * j)) (z (2 * j))) (fmul f (z (2 * j + 1)) (z (2 * j + 1))) := rfl

theorem iterationRadius_literal1 (f : FloatFormat) (z : Nat → FloatValue) (j : Nat) :
    iterationRadius f .literal1 z j = fmul f (z j) (z j) := by
  rw [iterationRadius, polarRadius, GaussForm.draws, Nat.one_mul]

section
variable {f : FloatFormat} {uni : U64 → FloatValue} {ln : FloatValue → FloatValue} {v : Variant} {form : GaussForm}
  {mu sigma : FloatValue} {w : Words}

theorem polarIteration_of_rejects
    (h : rejectsRadius f (polarRadius f form (coordinate f (uni (scramble v w)))
      (coordinate f (uni (scramble v (advance w))))) = true) :
    polarIteration f uni ln v form mu sigma w = .reject (advanceN form.draws w) := by
  cases form with
  | polar2 => exact if_pos h
  | literal1 => exact if_pos h

theorem polarIteration_of_accepts
    (h : rejectsRadius f (polarRadius f form (coordinate f (uni (scramble v w)))
      (coordinate f (uni (scramble v (advance w))))) = false) :
    polarIteration f uni ln v form mu sigma w =
      .accept (deviate f ln mu sigma (coordinate f (uni (scramble v w)))
        (polarRadius f form (coordinate f (uni (scramble v w))) (coordinate f (uni (scramble v (advance w))))))
        (advanceN form.draws w) := by
  cases form with
  | polar2 => exact if_neg (Bool.eq_false_iff.mp h)
  | literal1 => exact if_neg (Bool.eq_false_iff.mp h)

/-! ### The iterations of a loop -/

variable {z : Nat → FloatValue} (hz : ∀ j, z j = coordinate f (uni (drawAt v w j))) {n : Nat}
include hz

/-- Iteration `j` starts `d * j` draws on, with its own coordinates and radius. -/
theorem iterationRadius_eq (j : Nat) :
    iterationRadius f form z j =
      polarRadius f form (coordinate f (uni (scramble v ((advanceN form.draws)^[j] w))))
        (coordinate f (uni (scramble v (advance ((advanceN form.draws)^[j] w))))) := by
  rw [iterationRadius, hz, hz, advanceN_iterate, drawAt, drawAt, advanceN_succ]

theorem polarIteration_rejects (hrej : ∀ j < n, rejectsRadius f (iterationRadius f form z j) = true) :
    ∀ j < n, polarIteration f uni ln v form mu sigma ((advanceN form.draws)^[j] w) =
      .reject ((advanceN form.draws)^[j + 1] w) := fun j hj => by
  rw [Function.iterate_succ_apply']
  exact polarIteration_of_rejects (iterationRadius_eq hz j ▸ hrej j hj)

theorem polarIteration_accepts (hacc : rejectsRadius f (iterationRadius f form z n) = false) :
    polarIteration f uni ln v form mu sigma ((advanceN form.draws)^[n] w) =
      .accept (deviate f ln mu sigma (z (form.draws * n)) (iterationRadius f form z n))
        (advanceN (form.draws * n + form.draws) w) := by
  rw [iterationRadius_eq hz] at hacc ⊢
  rw [polarIteration_of_accepts hacc, hz, advanceN_add, drawAt, advanceN_iterate]

end

/-! ### The loops of the two commands -/

/-- The NaN a binary32 result would be in this state (R170; log 6). -/
def State.nextNan32 (s : State) : F32 := nanFrom32 (Config.nanDraw32 s.freeIndex)

/-- The NaN a binary64 result would be in this state (R170; log 6). -/
def State.nextNan64 (s : State) : F64 := nanFrom64 (Config.nanDraw64 s.freeIndex)

/-- The state after FLOAT_GAUSSIAN has accepted iteration `n`. -/
def State.floatGaussianDone (s : State) (mu sigma : F32) (w : Words) (z : Nat → FloatValue) (n : Nat) : State :=
  s.completedFloat (advanceN (s.params.gaussForm.draws * n + s.params.gaussForm.draws) w)
    ((f32Bits s.nextNan32 (deviate binary32 (fun x => f32Value (Config.ln32 (f32Bits s.nextNan32 x))) (f32Value mu)
      (f32Value sigma) (z (s.params.gaussForm.draws * n))
      (iterationRadius binary32 s.params.gaussForm z n))).setWidth 64)

/-- The state after DOUBLE_GAUSSIAN has accepted iteration `n`. -/
def State.doubleGaussianDone (s : State) (mu sigma : F64) (w : Words) (z : Nat → FloatValue) (n : Nat) : State :=
  s.completedFloat (advanceN (s.params.gaussForm.draws * n + s.params.gaussForm.draws) w)
    (f64Bits s.nextNan64 (deviate binary64 (fun x => f64Value (Config.ln64 (f64Bits s.nextNan64 x))) (f64Value mu)
      (f64Value sigma) (z (s.params.gaussForm.draws * n)) (iterationRadius binary64 s.params.gaussForm z n)))

section
variable {s : State} {w : Words} {z : Nat → FloatValue} {n : Nat}

section
variable (hz : ∀ j, z j = coordinate binary32 (u24 (drawAt s.params.variant w j)))
  (hrej : ∀ j < n, rejectsRadius binary32 (iterationRadius binary32 s.params.gaussForm z j) = true)
  (hacc : rejectsRadius binary32 (iterationRadius binary32 s.params.gaussForm z n) = false)
include hz hrej hacc

theorem runFloatGaussian_eq (mu sigma : F32) (hn : n < Config.loopFuel) :
    runFloatGaussian mu sigma w s = s.floatGaussianDone mu sigma w z n := by
  rw [runFloatGaussian, State.runLoop,
    iterate_accepts n Config.loopFuel w hn (polarIteration_rejects hz hrej) (polarIteration_accepts hz hacc)]
  rfl

theorem run_runFloatGaussian (mu sigma : F32) (hhost : s.host = []) :
    ∃ k, run k (runFloatGaussian mu sigma w s) = .next (s.floatGaussianDone mu sigma w z n) :=
  runLoop_finishes (c := .floatGaussian mu sigma)
    (body := fun s => polarIteration binary32 u24 (ln32 (nanFrom32 (Config.nanDraw32 s.freeIndex))) s.params.variant
      s.params.gaussForm (f32Value mu) (f32Value sigma))
    (fun _ _ => rfl) (fun _ _ => rfl) (fun _ _ _ _ => rfl) n s w hhost (polarIteration_rejects hz hrej)
    (polarIteration_accepts hz hacc)

end

section
variable (hz : ∀ j, z j = coordinate binary64 (u53 (drawAt s.params.variant w j)))
  (hrej : ∀ j < n, rejectsRadius binary64 (iterationRadius binary64 s.params.gaussForm z j) = true)
  (hacc : rejectsRadius binary64 (iterationRadius binary64 s.params.gaussForm z n) = false)
include hz hrej hacc

theorem runDoubleGaussian_eq (mu sigma : F64) (hn : n < Config.loopFuel) :
    runDoubleGaussian mu sigma w s = s.doubleGaussianDone mu sigma w z n := by
  rw [runDoubleGaussian, State.runLoop,
    iterate_accepts n Config.loopFuel w hn (polarIteration_rejects hz hrej) (polarIteration_accepts hz hacc)]
  rfl

theorem run_runDoubleGaussian (mu sigma : F64) (hhost : s.host = []) :
    ∃ k, run k (runDoubleGaussian mu sigma w s) = .next (s.doubleGaussianDone mu sigma w z n) :=
  runLoop_finishes (c := .doubleGaussian mu sigma)
    (body := fun s => polarIteration binary64 u53 (ln64 (nanFrom64 (Config.nanDraw64 s.freeIndex))) s.params.variant
      s.params.gaussForm (f64Value mu) (f64Value sigma))
    (fun _ _ => rfl) (fun _ _ => rfl) (fun _ _ _ _ => rfl) n s w hhost (polarIteration_rejects hz hrej)
    (polarIteration_accepts hz hacc)

end

end

/-! ### What mu and sigma do not reach -/

/-- An iteration without its result: whether it accepts, and its words. -/
def Iteration.forget {α : Type} : Iteration α → Iteration Unit
  | .accept _ w => .accept () w
  | .reject w => .reject w

theorem iterate_forget {α : Type} (body : Words → Iteration α) (fuel : Nat) (w : Words) :
    (iterate body fuel w).forget = iterate (fun w => (body w).forget) fuel w := by
  induction fuel generalizing w with
  | zero => rfl
  | succ fuel ih =>
    rw [iterate, iterate]
    cases body w with
    | accept r w' => rfl
    | reject w' => exact ih w'

theorem polarIteration_forget (f : FloatFormat) (uni : U64 → FloatValue) (ln : FloatValue → FloatValue) (v : Variant)
    (form : GaussForm) (mu sigma mu' sigma' : FloatValue) (w : Words) :
    (polarIteration f uni ln v form mu sigma w).forget = (polarIteration f uni ln v form mu' sigma' w).forget := by
  cases hrejects : rejectsRadius f (polarRadius f form (coordinate f (uni (scramble v w)))
      (coordinate f (uni (scramble v (advance w))))) with
  | true => rw [polarIteration_of_rejects hrejects, polarIteration_of_rejects hrejects]
  | false => rw [polarIteration_of_accepts hrejects, polarIteration_of_accepts hrejects, Iteration.forget,
      Iteration.forget]

/-- Two outcomes of one state that agree in all but a float result and the operands of the command in progress. -/
def State.AlikeFrom (s t t' : State) : Prop :=
  ∃ w, (∃ res res', t = s.completedFloat w res ∧ t' = s.completedFloat w res') ∨
    ∃ c c', t = s.stayBusy c w ∧ t' = s.stayBusy c' w

/-- Two loops whose iterations draw and accept alike, each finishing with a float result. -/
theorem State.runLoop_alike {body body' : Words → Iteration FloatValue}
    (hbody : ∀ w, (body w).forget = (body' w).forget) (s : State) (c c' : LoopCommand)
    {finish : State → FloatValue → State}
    (hfinish : ∀ w r, ∃ res, finish (s.setWords w) r = s.completedFloat w res) (w : Words) :
    s.AlikeFrom (s.runLoop c body finish w) (s.runLoop c' body' finish w) := by
  have hforget : (iterate body Config.loopFuel w).forget = (iterate body' Config.loopFuel w).forget := by
    rw [iterate_forget, iterate_forget, funext hbody]
  obtain ⟨r, w1, hloop, hrun⟩ | ⟨w1, hloop, hrun⟩ := s.runLoop_cases c body finish w
  all_goals
    obtain ⟨r', w1', hloop', hrun'⟩ | ⟨w1', hloop', hrun'⟩ := s.runLoop_cases c' body' finish w
    all_goals
      rw [hloop, hloop'] at hforget
      cases hforget
  · obtain ⟨res, hres⟩ := hfinish w1 r
    obtain ⟨res', hres'⟩ := hfinish w1 r'
    exact ⟨w1, .inl ⟨res, res', hrun.trans hres, hrun'.trans hres'⟩⟩
  · exact ⟨w1, .inr ⟨c, c', hrun, hrun'⟩⟩

theorem runFloatGaussian_alike (mu sigma mu' sigma' : F32) (w : Words) (s : State) :
    s.AlikeFrom (runFloatGaussian mu sigma w s) (runFloatGaussian mu' sigma' w s) :=
  State.runLoop_alike (fun _ => polarIteration_forget _ _ _ _ _ _ _ _ _ _) s _ _
    (fun w r => ⟨_, s.respondF32_setWords w r⟩) w

theorem runDoubleGaussian_alike (mu sigma mu' sigma' : F64) (w : Words) (s : State) :
    s.AlikeFrom (runDoubleGaussian mu sigma w s) (runDoubleGaussian mu' sigma' w s) :=
  State.runLoop_alike (fun _ => polarIteration_forget _ _ _ _ _ _ _ _ _ _) s _ _
    (fun w r => ⟨_, s.respondF64_setWords w r⟩) w

end Sys2Proof.Machine

namespace Sys2Proof.Proofs

open Sys2Proof.Machine

/-- Settles O34: under POLAR2 iteration `j` takes draws `2j` and `2j + 1`. -/
theorem floatGaussianReturnsTheFirstAcceptedDeviate : Obligations.FloatGaussianReturnsTheFirstAcceptedDeviate := by
  intro s w mu sigma n u v r hf hw hform hn hu hv hr hrej hacc
  have hradius : ∀ j, r j = iterationRadius binary32 s.params.gaussForm
      (fun j => coordinate binary32 (u24 (drawAt s.params.variant w j))) j := fun j => by
    rw [hr, hu, hv, hform, iterationRadius_polar2]
  rw [hradius] at hacc
  refine ⟨s.nextNan32, f32Value_nanFrom32 _, ?_⟩
  rw [exec_floatGaussian_of_loaded hf hw, runFloatGaussian_eq (fun _ => rfl) (fun j hj => hradius j ▸ hrej j hj) hacc
    mu sigma hn, State.floatGaussianDone, ← hradius, hform, hu]
  rfl

/-- Settles O35, as O34. -/
theorem doubleGaussianReturnsTheFirstAcceptedDeviate : Obligations.DoubleGaussianReturnsTheFirstAcceptedDeviate := by
  intro s w mu sigma n u v r hf hw hform hn hu hv hr hrej hacc
  have hradius : ∀ j, r j = iterationRadius binary64 s.params.gaussForm
      (fun j => coordinate binary64 (u53 (drawAt s.params.variant w j))) j := fun j => by
    rw [hr, hu, hv, hform, iterationRadius_polar2]
  rw [hradius] at hacc
  refine ⟨s.nextNan64, f64Value_nanFrom64 _, ?_⟩
  rw [exec_doubleGaussian_of_loaded hf hw, runDoubleGaussian_eq (fun _ => rfl) (fun j hj => hradius j ▸ hrej j hj) hacc
    mu sigma hn, State.doubleGaussianDone, ← hradius, hform, hu]
  rfl

/-- Settles O36: under LITERAL1 iteration `j` takes draw `j` alone. -/
theorem literalFormTakesOneDrawAnIteration : Obligations.LiteralFormTakesOneDrawAnIteration := by
  intro s w n hf hw hform hn
  refine ⟨fun mu sigma u r hu hr hrej hacc => ⟨s.nextNan32, f32Value_nanFrom32 _, ?_⟩,
    fun mu sigma u r hu hr hrej hacc => ⟨s.nextNan64, f64Value_nanFrom64 _, ?_⟩⟩
  · have hradius : ∀ j, r j = iterationRadius binary32 s.params.gaussForm u j := fun j => by
      rw [hr, hform, iterationRadius_literal1]
    rw [hradius] at hacc
    rw [exec_floatGaussian_of_loaded hf hw, runFloatGaussian_eq hu (fun j hj => hradius j ▸ hrej j hj) hacc mu sigma hn,
      State.floatGaussianDone, ← hradius, hform, GaussForm.draws, Nat.one_mul]
  · have hradius : ∀ j, r j = iterationRadius binary64 s.params.gaussForm u j := fun j => by
      rw [hr, hform, iterationRadius_literal1]
    rw [hradius] at hacc
    rw [exec_doubleGaussian_of_loaded hf hw, runDoubleGaussian_eq hu (fun j hj => hradius j ▸ hrej j hj) hacc mu sigma
      hn, State.doubleGaussianDone, ← hradius, hform, GaussForm.draws, Nat.one_mul]

/-- Settles O37: an iteration draws and accepts alike whatever mu and sigma are, and no outcome of a loop faults. -/
theorem muAndSigmaDoNotAffectTheDraws : Obligations.MuAndSigmaDoNotAffectTheDraws := by
  intro s t t' w hf hw hexec
  have halike : s.AlikeFrom t t' := by
    obtain ⟨mu, sigma, mu', sigma', h, h'⟩ | ⟨mu, sigma, mu', sigma', h, h'⟩ := hexec
    · cases (exec_floatGaussian_of_loaded hf hw mu sigma).symm.trans h
      cases (exec_floatGaussian_of_loaded hf hw mu' sigma').symm.trans h'
      exact runFloatGaussian_alike mu sigma mu' sigma' w s
    · cases (exec_doubleGaussian_of_loaded hf hw mu sigma).symm.trans h
      cases (exec_doubleGaussian_of_loaded hf hw mu' sigma').symm.trans h'
      exact runDoubleGaussian_alike mu sigma mu' sigma' w s
  obtain ⟨w', ⟨res, res', rfl, rfl⟩ | ⟨c, c', rfl, rfl⟩⟩ := halike
  · exact ⟨rfl, rfl, rfl, rfl, rfl, hf, hf, rfl⟩
  · exact ⟨rfl, Option.isSome_of_eq_some hw, rfl, rfl, rfl, hf, hf, rfl⟩

/-- Settles O38: the step that takes the command and the loop over as many steps as it takes, under either form. -/
theorem gaussianRespondsOnceAPairIsAccepted : Obligations.GaussianRespondsOnceAPairIsAccepted := by
  intro s c w n d f z r hpresents hw hform hrej hacc
  obtain ⟨-, hf, -⟩ := id hpresents
  have hd : d = s.params.gaussForm.draws := by
    obtain ⟨h, rfl, -⟩ | ⟨h, rfl, -⟩ := hform
    · rw [h, GaussForm.draws]
    · rw [h, GaussForm.draws]
  have hradius : r = iterationRadius f s.params.gaussForm z := by
    obtain ⟨h, -, hr⟩ | ⟨h, -, hr⟩ := hform
    · exact funext fun j => by rw [hr, h, iterationRadius_polar2]
    · exact funext fun j => by rw [hr, h, iterationRadius_literal1]
  subst hd hradius
  refine ⟨fun mu sigma hdecode hformat hz => ?_, fun mu sigma hdecode hformat hz => ?_⟩
  · subst hformat
    obtain ⟨k, hk⟩ := exists_run_succ
      ((step_of_presents hpresents hdecode).trans
        (exec_floatGaussian_of_loaded (s := { s with host := [] }) hf hw mu sigma))
      (run_runFloatGaussian (s := { s with host := [] }) hz hrej hacc mu sigma rfl)
    exact ⟨k, s.nextNan32, f32Value_nanFrom32 _, hk⟩
  · subst hformat
    obtain ⟨k, hk⟩ := exists_run_succ
      ((step_of_presents hpresents hdecode).trans
        (exec_doubleGaussian_of_loaded (s := { s with host := [] }) hf hw mu sigma))
      (run_runDoubleGaussian (s := { s with host := [] }) hz hrej hacc mu sigma rfl)
    exact ⟨k, s.nextNan64, f64Value_nanFrom64 _, hk⟩

end Sys2Proof.Proofs
end

section
/-! PROOFS. Float encodings and operators: reading back every encoding, NaN results, and one rounding of the exact
result (spec/00_scope.md R9, spec/43_float_conversion.md R169, R170). -/

namespace Sys2Proof.Machine

/-! ### The fields of an encoding -/

/-- An encoding is its sign, exponent and fraction fields put together. -/
theorem fields_eq {f : FloatFormat} {bits : Nat} (hp : 0 < f.precision) (hbits : bits < 2 ^ (f.expBits + f.precision)) :
    bits = (bits.testBit (f.expBits + f.precision - 1)).toNat * 2 ^ (f.expBits + f.precision - 1) +
      (bits / 2 ^ (f.precision - 1) % 2 ^ f.expBits * 2 ^ (f.precision - 1) + bits % 2 ^ (f.precision - 1)) := by
  have htop : f.expBits + f.precision - 1 = f.precision - 1 + f.expBits := by omega
  have hsign : bits / 2 ^ (f.precision - 1) / 2 ^ f.expBits < 2 := by
    rw [Nat.div_div_eq_div_mul, ← pow_add]
    refine Nat.div_lt_of_lt_mul (hbits.trans_eq ?_)
    rw [← pow_succ]
    congr 1
    omega
  have hexp := Nat.div_add_mod (bits / 2 ^ (f.precision - 1)) (2 ^ f.expBits)
  have hfrac := Nat.div_add_mod bits (2 ^ (f.precision - 1))
  rw [Nat.toNat_testBit, htop, pow_add, ← Nat.div_div_eq_div_mul, Nat.mod_eq_of_lt hsign]
  calc bits
      = 2 ^ (f.precision - 1) * (2 ^ f.expBits * (bits / 2 ^ (f.precision - 1) / 2 ^ f.expBits) +
          bits / 2 ^ (f.precision - 1) % 2 ^ f.expBits) + bits % 2 ^ (f.precision - 1) := by rw [hexp, hfrac]
    _ = _ := by ring

/-- Writing the value of an encoding that is no NaN: each kind of value puts the fields back. -/
theorem pack_unpack {f : FloatFormat} {bits : Nat} (hp : 0 < f.precision) (hbits : bits < 2 ^ (f.expBits + f.precision))
    (hnan : unpack f bits ≠ .nan) (nan : Nat) : pack f nan (unpack f bits) = bits := by
  have hfields := fields_eq hp hbits
  revert hnan
  simp only [unpack]
  generalize bits.testBit (f.expBits + f.precision - 1) = neg at *
  generalize bits / 2 ^ (f.precision - 1) % 2 ^ f.expBits = biased at *
  generalize bits % 2 ^ (f.precision - 1) = frac at *
  intro hnan
  split_ifs at hnan ⊢ with hinf hzero hsub
  · rw [hfields, hinf, hzero, pack, Nat.add_zero]
  · exact absurd rfl hnan
  · rw [hfields, hsub, pack, sub_self, Int.toNat_zero]
  · have hexp : f.minExp + biased - 1 - f.minExp = ((biased - 1 : Nat) : Int) := by omega
    rw [hfields, pack, hexp, Int.toNat_natCast]
    congr 1
    calc (biased - 1) * 2 ^ (f.precision - 1) + (frac + 2 ^ (f.precision - 1))
        = (biased - 1 + 1) * 2 ^ (f.precision - 1) + frac := by ring
      _ = biased * 2 ^ (f.precision - 1) + frac := by rw [Nat.sub_add_cancel (Nat.one_le_iff_ne_zero.mpr hsub)]

theorem f32Bits_f32Value {bits : F32} (h : f32Value bits ≠ .nan) (nan : F32) : f32Bits nan (f32Value bits) = bits := by
  rw [f32Bits, f32Value, pack_unpack (by decide) bits.isLt h, BitVec.ofNat_toNat, BitVec.setWidth_eq]

theorem f64Bits_f64Value {bits : F64} (h : f64Value bits ≠ .nan) (nan : F64) : f64Bits nan (f64Value bits) = bits := by
  rw [f64Bits, f64Value, pack_unpack (by decide) bits.isLt h, BitVec.ofNat_toNat, BitVec.setWidth_eq]

/-- The value of an encoding is canonical in its format. -/
theorem holds_of_unpack {f : FloatFormat} {bits : Nat} {neg : Bool} {m : Nat} {e : Int} (hp : 0 < f.precision)
    (hexp : 1 < f.expBits) (h : unpack f bits = .finite neg m e) : f.holds m e := by
  have hfrac : bits % 2 ^ (f.precision - 1) < 2 ^ (f.precision - 1) := Nat.mod_lt _ (by positivity)
  have hbiased : bits / 2 ^ (f.precision - 1) % 2 ^ f.expBits < 2 ^ f.expBits := Nat.mod_lt _ (by positivity)
  have hdouble : 2 ^ f.precision = 2 * 2 ^ (f.precision - 1) := (mul_pow_sub_one hp.ne' 2).symm
  have hfields : 2 ^ f.expBits = 2 * (f.bias + 1) := by
    rw [FloatFormat.bias, Nat.sub_add_cancel Nat.one_le_two_pow, mul_pow_sub_one (by omega)]
  have hbias : 0 < f.bias := Nat.sub_pos_of_lt (Nat.one_lt_two_pow (by omega))
  simp only [unpack] at h
  generalize bits / 2 ^ (f.precision - 1) % 2 ^ f.expBits = biased at *
  generalize bits % 2 ^ (f.precision - 1) = frac at *
  rw [FloatFormat.holds, FloatFormat.maxExp]
  split_ifs at h with hinf hzero hsub
  · obtain ⟨-, rfl, rfl⟩ := FloatValue.finite.inj h
    refine ⟨by omega, le_rfl, ?_, .inr rfl⟩
    rw [FloatFormat.minExp]
    omega
  · obtain ⟨-, rfl, rfl⟩ := FloatValue.finite.inj h
    refine ⟨by omega, by omega, ?_, .inl (Nat.le_add_left _ _)⟩
    rw [FloatFormat.minExp]
    omega

/-! ### NaN results -/

/-- Every NaN is made from the draw that is that NaN (R170). -/
theorem nanFrom32_of_nan {nan : F32} (h : f32Value nan = .nan) : nanFrom32 nan = nan := if_pos h

theorem nanFrom64_of_nan {nan : F64} (h : f64Value nan = .nan) : nanFrom64 nan = nan := if_pos h

theorem f32Bits_nan (nan : F32) : f32Bits nan .nan = nan := by
  rw [f32Bits, pack, BitVec.ofNat_toNat, BitVec.setWidth_eq]

theorem f64Bits_nan (nan : F64) : f64Bits nan .nan = nan := by
  rw [f64Bits, pack, BitVec.ofNat_toNat, BitVec.setWidth_eq]

theorem State.respondF32_nan_response (s : State) :
    (s.respondF32 .nan).response = some (.ok (s.nextNan32.setWidth 64)) :=
  congrArg (fun bits : F32 => some (Response.ok (bits.setWidth 64))) (f32Bits_nan s.nextNan32)

theorem State.respondF64_nan_response (s : State) : (s.respondF64 .nan).response = some (.ok s.nextNan64) :=
  congrArg (fun bits : F64 => some (Response.ok bits)) (f64Bits_nan s.nextNan64)

/-! ### Rounding depends on the exact value alone -/

theorem divNearestEven_mul_right (num den : Nat) {k : Nat} (hk : 0 < k) :
    divNearestEven (num * k) (den * k) = divNearestEven num den := by
  have hlt : den * k < 2 * (num % den * k) ↔ den < 2 * (num % den) := by
    rw [← Nat.mul_assoc, Nat.mul_lt_mul_right hk]
  have heq : 2 * (num % den * k) = den * k ↔ 2 * (num % den) = den := by
    rw [← Nat.mul_assoc, Nat.mul_right_cancel_iff hk]
  simp only [divNearestEven, Nat.mul_div_mul_right _ _ hk, Nat.mul_mod_mul_right, hlt, heq]

theorem divNearestEven_congr {num den num' den' : Nat} (hden : 0 < den) (hden' : 0 < den')
    (h : num * den' = num' * den) : divNearestEven num den = divNearestEven num' den' := by
  rw [← divNearestEven_mul_right num den hden', h, Nat.mul_comm den, divNearestEven_mul_right num' den' hden]

section
variable {num den num' den' : Nat} {exp exp' : Int} {x : ℚ} (hden : 0 < den) (hden' : 0 < den')
  (hx : (num : ℚ) / den * 2 ^ exp = x) (hx' : (num' : ℚ) / den' * 2 ^ exp' = x)
include hden hden' hx hx'

theorem significandAt_congr (e : Int) : significandAt num den exp e = significandAt num' den' exp' e := by
  refine divNearestEven_congr (by rw [Nat.shiftLeft_eq]; positivity) (by rw [Nat.shiftLeft_eq]; positivity) ?_
  have h := shiftLeft_mul_zpow hden hx e
  have h' := shiftLeft_mul_zpow hden' hx' e
  generalize num <<< (exp - e).toNat = n at *
  generalize den <<< (-(exp - e)).toNat = d at *
  generalize num' <<< (exp' - e).toNat = n' at *
  generalize den' <<< (-(exp' - e)).toNat = d' at *
  refine Nat.cast_injective (R := ℚ) (mul_right_cancel₀ (zpow_ne_zero e two_ne_zero) ?_)
  push_cast
  linear_combination (d' : ℚ) * h - (d : ℚ) * h'

/-- Both magnitudes lie in the one binade of `x`. -/
theorem floorLog2_add_le (hnum : 0 < num) (hnum' : 0 < num') :
    floorLog2 num den + exp ≤ floorLog2 num' den' + exp' := by
  obtain ⟨hlow, -⟩ := floorLog2_spec hnum hden
  obtain ⟨-, hhigh⟩ := floorLog2_spec hnum' hden'
  have hlt : (2 : ℚ) ^ (floorLog2 num den + exp) < 2 ^ (floorLog2 num' den' + 1 + exp') := by
    calc (2 : ℚ) ^ (floorLog2 num den + exp)
        = 2 ^ floorLog2 num den * 2 ^ exp := zpow_add₀ two_ne_zero _ _
      _ ≤ num / den * 2 ^ exp := by gcongr
      _ = num' / den' * 2 ^ exp' := hx.trans hx'.symm
      _ < 2 ^ (floorLog2 num' den' + 1) * 2 ^ exp' := by gcongr
      _ = 2 ^ (floorLog2 num' den' + 1 + exp') := (zpow_add₀ two_ne_zero _ _).symm
  have := (zpow_lt_zpow_iff_right₀ (one_lt_two (α := ℚ))).mp hlt
  omega

theorem roundTo_congr (f : FloatFormat) (neg : Bool) (hnum : 0 < num) (hnum' : 0 < num') :
    roundTo f neg num den exp = roundTo f neg num' den' exp' := by
  have hunit : unitExp f num den exp = unitExp f num' den' exp' := by
    rw [unitExp, unitExp, le_antisymm (floorLog2_add_le hden hden' hx hx' hnum hnum')
      (floorLog2_add_le hden' hden hx' hx hnum' hnum)]
  rw [roundTo_eq_normalize hnum, roundTo_eq_normalize hnum', hunit, significandAt_congr hden hden' hx hx']

end

/-- Any way to write the magnitude of a rational rounds to what `roundRat` gives. -/
theorem roundTo_eq_roundRat {q : ℚ} (hq : q ≠ 0) {num den : Nat} {exp : Int} (hden : 0 < den)
    (hval : (num : ℚ) / den * 2 ^ exp = |q|) (f : FloatFormat) :
    roundTo f (decide (q < 0)) num den exp = roundRat f q := by
  have hnum : 0 < num := Nat.pos_of_ne_zero fun hzero => hq (abs_eq_zero.mp (by rw [← hval, hzero]; simp))
  have hval' : (q.num.natAbs : ℚ) / q.den * 2 ^ (0 : Int) = |q| := by
    rw [zpow_zero, mul_one, Nat.cast_natAbs, Int.cast_abs, ← Nat.abs_cast q.den, ← abs_div, Rat.num_div_den]
  exact roundTo_congr hden q.den_pos hval hval' f _ hnum (Int.natAbs_pos.mpr (Rat.num_ne_zero.mpr hq))

/-! ### The operators on finite values -/

/-- A nonzero rational fixes the sign and the magnitude of its float. -/
theorem FloatValue.exists_of_toRat? {v : FloatValue} {q : ℚ} (h : v.toRat? = some q) (hq : q ≠ 0) :
    ∃ m e, v = .finite (decide (q < 0)) m e ∧ (m : ℚ) * 2 ^ e = |q| := by
  obtain ⟨neg, m, e, rfl, rfl⟩ := FloatValue.toRat?_eq_some_iff.mp h
  have hnonneg : 0 ≤ (m : ℚ) * 2 ^ e := by positivity
  refine ⟨m, e, ?_, ?_⟩
  · cases neg with
    | false => rw [signed_cast, if_neg Bool.false_ne_true, decide_eq_false hnonneg.not_gt]
    | true =>
      rw [signed_cast, if_pos rfl, neg_mul] at hq ⊢
      rw [decide_eq_true (neg_lt_zero.mpr (hnonneg.lt_of_ne' (neg_ne_zero.mp hq)))]
  · cases neg with
    | false => rw [signed_cast, if_neg Bool.false_ne_true, abs_of_nonneg hnonneg]
    | true => rw [signed_cast, if_pos rfl, neg_mul, abs_neg, abs_of_nonneg hnonneg]

theorem FloatValue.toRat?_negate {v : FloatValue} {q : ℚ} (h : v.toRat? = some q) : v.negate.toRat? = some (-q) := by
  obtain ⟨neg, m, e, rfl, rfl⟩ := FloatValue.toRat?_eq_some_iff.mp h
  cases neg <;> simp [FloatValue.negate, FloatValue.toRat?, signed]

/-- The sign of a product or a quotient is the exclusive or of the signs. -/
theorem decide_lt_zero_bne {x y q : ℚ} (h : q < 0 ↔ (x < 0 ∧ ¬ y < 0 ∨ ¬ x < 0 ∧ y < 0)) :
    (decide (x < 0) != decide (y < 0)) = decide (q < 0) := by
  by_cases hx : x < 0 <;> by_cases hy : y < 0 <;> simp [hx, hy, h]

section
variable {a b : FloatValue} {x y : ℚ} (ha : a.toRat? = some x) (hb : b.toRat? = some y) (f : FloatFormat)
include ha hb

theorem fadd_eq_roundRat (hne : x + y ≠ 0) : fadd f a b = roundRat f (x + y) := by
  obtain ⟨n, m, i, rfl, hx⟩ := FloatValue.toRat?_eq_some_iff.mp ha
  obtain ⟨n', m', i', rfl, hy⟩ := FloatValue.toRat?_eq_some_iff.mp hb
  have hpos : (0 : ℚ) < 2 ^ min i i' := by positivity
  have hsum : ((alignedTo (min i i') n m i + alignedTo (min i i') n' m' i' : Int) : ℚ) * 2 ^ min i i' = x + y := by
    rw [Int.cast_add, add_mul, alignedTo_mul_zpow (min_le_left i i'), alignedTo_mul_zpow (min_le_right i i'), hx, hy]
  simp only [fadd]
  generalize alignedTo (min i i') n m i + alignedTo (min i i') n' m' i' = sum at *
  have hsum_ne : sum ≠ 0 := fun hzero => hne (by rw [← hsum, hzero]; simp)
  have hneg : sum < 0 ↔ x + y < 0 := by
    rw [← hsum, lt_iff_lt_of_le_iff_le (mul_nonneg_iff_of_pos_right hpos), Int.cast_lt_zero]
  rw [if_neg hsum_ne, decide_eq_decide.mpr hneg]
  refine roundTo_eq_roundRat hne one_pos ?_ f
  rw [← hsum, abs_mul, abs_of_pos hpos, Nat.cast_one, div_one, Nat.cast_natAbs, Int.cast_abs]

theorem fsub_eq_roundRat (hne : x - y ≠ 0) : fsub f a b = roundRat f (x - y) := by
  rw [sub_eq_add_neg] at hne ⊢
  exact fadd_eq_roundRat ha (FloatValue.toRat?_negate hb) f hne

theorem fmul_eq_roundRat (hne : x * y ≠ 0) : fmul f a b = roundRat f (x * y) := by
  obtain ⟨hx, hy⟩ := mul_ne_zero_iff.mp hne
  obtain ⟨m, i, rfl, hm⟩ := FloatValue.exists_of_toRat? ha hx
  obtain ⟨m', i', rfl, hm'⟩ := FloatValue.exists_of_toRat? hb hy
  have hsign : x * y < 0 ↔ (x < 0 ∧ ¬ y < 0 ∨ ¬ x < 0 ∧ y < 0) := by
    rw [mul_neg_iff, not_lt, not_lt, hx.symm.le_iff_lt, hy.symm.le_iff_lt]
    tauto
  rw [fmul, decide_lt_zero_bne hsign]
  refine roundTo_eq_roundRat hne one_pos ?_ f
  rw [abs_mul, ← hm, ← hm', zpow_add₀ two_ne_zero]
  push_cast
  ring

theorem fdiv_eq_roundRat (hx : x ≠ 0) (hy : y ≠ 0) : fdiv f a b = roundRat f (x / y) := by
  obtain ⟨m, i, rfl, hm⟩ := FloatValue.exists_of_toRat? ha hx
  obtain ⟨m', i', rfl, hm'⟩ := FloatValue.exists_of_toRat? hb hy
  have hm'0 : m' ≠ 0 := fun hzero => hy (abs_eq_zero.mp (by rw [← hm', hzero]; simp))
  have hsign : x / y < 0 ↔ (x < 0 ∧ ¬ y < 0 ∨ ¬ x < 0 ∧ y < 0) := by
    rw [div_neg_iff, not_lt, not_lt, hx.symm.le_iff_lt, hy.symm.le_iff_lt]
    tauto
  simp only [fdiv, if_neg hm'0, decide_lt_zero_bne hsign]
  refine roundTo_eq_roundRat (div_ne_zero hx hy) (Nat.pos_of_ne_zero hm'0) ?_ f
  rw [abs_div, ← hm, ← hm', zpow_sub₀ two_ne_zero]
  field_simp

end

/-! ### Equal bounds -/

/-- A difference of equal values is +0. -/
theorem fsub_self (f : FloatFormat) (neg : Bool) (m : Nat) (e : Int) :
    fsub f (.finite neg m e) (.finite neg m e) = .finite false 0 f.minExp := by
  have hsum : alignedTo (min e e) neg m e + alignedTo (min e e) (!neg) m e = 0 := by
    cases neg <;> simp [alignedTo, signed]
  simp only [fsub, FloatValue.negate, fadd, hsum, Int.natAbs_zero, roundTo_zero, if_true, Bool.and_not_self]

theorem fmul_zero_left (f : FloatFormat) (m : Nat) (e : Int) :
    fmul f (.finite false 0 f.minExp) (.finite false m e) = .finite false 0 f.minExp := by
  rw [fmul, Nat.zero_mul, roundTo_zero, bne_self_eq_false]

/-- Adding +0 to a value of the format other than -0 changes nothing. -/
theorem fadd_zero_right {f : FloatFormat} {neg : Bool} {m : Nat} {e : Int} (hholds : f.holds m e)
    (hneg : m = 0 → neg = false) : fadd f (.finite neg m e) (.finite false 0 f.minExp) = .finite neg m e := by
  obtain ⟨-, hmin, -, hcanon⟩ := id hholds
  obtain rfl | hpos := m.eq_zero_or_pos
  · obtain rfl := hcanon.resolve_left (by simp)
    obtain rfl := hneg rfl
    simp [fadd, alignedTo, signed]
  · have hzero : (FloatValue.finite false 0 f.minExp).toRat? = some 0 := by simp [FloatValue.toRat?, signed]
    have hvalue : (FloatValue.finite neg m e).toRat? = some ((signed neg m : ℚ) * 2 ^ e) := rfl
    have hq : (signed neg m : ℚ) * 2 ^ e ≠ 0 := by
      have hm : (m : ℚ) * 2 ^ e ≠ 0 := by positivity
      cases neg <;> simpa [signed] using hm
    generalize (signed neg m : ℚ) * 2 ^ e = q at hvalue hq
    obtain ⟨m', e', heq, habs⟩ := FloatValue.exists_of_toRat? hvalue hq
    obtain ⟨hsign, rfl, rfl⟩ := FloatValue.finite.inj heq
    calc fadd f (.finite neg m e) (.finite false 0 f.minExp)
        = roundRat f q := by
          have hadd := fadd_eq_roundRat hvalue hzero f (by rwa [add_zero])
          rwa [add_zero] at hadd
      _ = roundTo f (decide (q < 0)) m 1 e :=
          (roundTo_eq_roundRat hq one_pos (by rw [← habs, Nat.cast_one, div_one]) f).symm
      _ = .finite neg m e := by
          rw [← hsign]
          exact roundTo_of_holds one_pos hholds (by rw [Nat.cast_one, div_one]) neg hpos

/-- `lower + (upper - lower) * u` with equal bounds (R169). -/
theorem scaleToRange_self {f : FloatFormat} {neg : Bool} {m : Nat} {e : Int} {u : FloatValue} {q : ℚ}
    (hholds : f.holds m e) (hneg : m = 0 → neg = false) (hu : f.isValue false q u) :
    scaleToRange f (.finite neg m e) (.finite neg m e) u = .finite neg m e := by
  obtain ⟨m', e', -, -, rfl⟩ := hu
  rw [scaleToRange, fsub_self, fmul_zero_left, fadd_zero_right hholds hneg]

/-- The only encoding of a finite value with a sign and no significand is the negative zero. -/
theorem eq_negZero_of_f32Value {bits : F32} {e : Int} (h : f32Value bits = .finite true 0 e) : bits = 0x80000000 := by
  obtain ⟨-, -, -, hcanon⟩ := holds_of_unpack (by decide) (by decide) h
  obtain rfl := hcanon.resolve_left (by decide)
  have hbits := f32Bits_f32Value (bits := bits) (by rw [h]; exact FloatValue.noConfusion) 0
  rw [← hbits, h]
  decide

end Sys2Proof.Machine

namespace Sys2Proof.Proofs

open Sys2Proof.Machine

/-- Settles O24: an encoding is its fields put together, and each kind of value keeps them. -/
theorem floatEncodingsRoundTrip : Obligations.FloatEncodingsRoundTrip :=
  ⟨fun nan _ h => f32Bits_f32Value h nan, fun nan _ h => f64Bits_f64Value h nan⟩

/-- Settles O31: setting bits of a draw makes it a NaN, and a NaN is kept as it is. -/
theorem nanResultsAreDrawnFromAllNans : Obligations.NanResultsAreDrawnFromAllNans :=
  ⟨f32Value_nanFrom32, f64Value_nanFrom64, fun nan h => ⟨nan, nanFrom32_of_nan h⟩,
    fun nan h => ⟨nan, nanFrom64_of_nan h⟩, fun s => ⟨s.nextNan32, f32Value_nanFrom32 _, s.respondF32_nan_response⟩,
    fun s => ⟨s.nextNan64, f64Value_nanFrom64 _, s.respondF64_nan_response⟩⟩

/-- Settles O22: each operator hands its exact result to one `roundTo`, which sees the value alone. -/
theorem operatorsRoundTheExactResult : Obligations.OperatorsRoundTheExactResult :=
  fun f _ _ _ _ _ ha hb =>
    ⟨fadd_eq_roundRat ha hb f, fsub_eq_roundRat ha hb f, fmul_eq_roundRat ha hb f, fdiv_eq_roundRat ha hb f⟩

/-- Settles O30: the difference of equal bounds is +0, and so is its product with the draw. -/
theorem floatInRangeOfEqualBoundsReturnsTheBound : Obligations.FloatInRangeOfEqualBoundsReturnsTheBound := by
  intro s w bound x hf hw hx hbound
  obtain ⟨neg, m, e, hvalue, -⟩ := FloatValue.toRat?_eq_some_iff.mp hx
  have hholds := holds_of_unpack (by decide) (by decide) hvalue
  have hneg : m = 0 → neg = false := by
    rintro rfl
    exact Bool.eq_false_iff.mpr fun hneg => hbound (eq_negZero_of_f32Value (hneg ▸ hvalue))
  rw [exec_floatInRange_of_unfaulted hf, State.withDraw_of_some hw, State.respondF32_setWords, hvalue,
    scaleToRange_self hholds hneg (isValue_u24 _), ← hvalue,
    f32Bits_f32Value (by rw [hvalue]; exact FloatValue.noConfusion), f32Result]

end Sys2Proof.Proofs
end

section
/-! PROOFS. Rounding is to nearest with ties to even, and the square root is correctly rounded
(spec/00_scope.md R9, spec/43_float_conversion.md R160, spec/44_gaussian.md R190). -/

namespace Sys2Proof.Machine

/-! ### A significand within half a unit is nearest -/

section
variable {K : Type} [Field K] [LinearOrder K] [IsStrictOrderedRing K] {f : FloatFormat} {m : Nat} {e : Int} {x : K}

/-- Every other multiple of the unit is at least half a unit away. -/
theorem half_unit_le_abs_sub (hhalf : |x - m * 2 ^ e| ≤ 2 ^ e / 2) {k : Nat} (hk : k ≠ m) :
    (2 : K) ^ e / 2 ≤ |x - k * 2 ^ e| := by
  have hunit : (0 : K) < 2 ^ e := by positivity
  obtain ⟨hlow, hhigh⟩ := abs_le.mp hhalf
  obtain hlt | hlt := hk.lt_or_gt
  · have hstep : ((k : K) + 1) * 2 ^ e ≤ m * 2 ^ e := by gcongr; exact_mod_cast hlt
    exact le_abs.mpr (.inl (by linarith))
  · have hstep : ((m : K) + 1) * 2 ^ e ≤ k * 2 ^ e := by gcongr; exact_mod_cast hlt
    exact le_abs.mpr (.inr (by linarith))

/-- A value with a greater exponent is a multiple of the unit. -/
theorem mul_zpow_add (k n : Nat) (e : Int) : (k : K) * 2 ^ (e + n) = (k * 2 ^ n : Nat) * 2 ^ e := by
  rw [zpow_add₀ two_ne_zero, zpow_natCast]
  push_cast
  ring

/-- A value with a smaller exponent stays below every magnitude of the unit's binade. -/
theorem mul_zpow_lt_of_exp_lt (hp : 0 < f.precision) {m' : Nat} {e' : Int} (hholds : f.holds m' e') (hexp : e' < e) :
    (m' : K) * 2 ^ e' < ((2 ^ (f.precision - 1) : Nat) : K) * 2 ^ e := by
  obtain ⟨hm, -, -, -⟩ := hholds
  calc (m' : K) * 2 ^ e'
      < ((2 ^ f.precision : Nat) : K) * 2 ^ e' := by gcongr
    _ = ((2 ^ (f.precision - 1) : Nat) : K) * 2 ^ (e' + 1) := by
        rw [← mul_pow_sub_one hp.ne' 2, zpow_add_one₀ two_ne_zero]
        push_cast
        ring
    _ ≤ ((2 ^ (f.precision - 1) : Nat) : K) * 2 ^ e := by
        gcongr
        · exact one_le_two
        · exact hexp

/-- With `x` in the binade of the unit, or the unit the least one: no value of the format is nearer to `x`, and another
value is as near only from half a unit away. -/
theorem abs_sub_le_of_half_unit (hp : 0 < f.precision)
    (htop : f.minExp < e → ((2 ^ (f.precision - 1) : Nat) : K) * 2 ^ e ≤ x) (hhalf : |x - m * 2 ^ e| ≤ 2 ^ e / 2)
    {m' : Nat} {e' : Int} (hholds : f.holds m' e') :
    |x - m * 2 ^ e| ≤ |x - m' * 2 ^ e'| ∧
      (|x - m * 2 ^ e| = |x - m' * 2 ^ e'| → (m : K) * 2 ^ e ≠ m' * 2 ^ e' → |x - m * 2 ^ e| = 2 ^ e / 2) := by
  have multiple (k : Nat) : |x - m * 2 ^ e| ≤ |x - k * 2 ^ e| := by
    obtain rfl | hk := eq_or_ne k m
    · exact le_rfl
    · exact hhalf.trans (half_unit_le_abs_sub hhalf hk)
  obtain hle | hlt := le_or_gt e e'
  · obtain ⟨n, rfl⟩ := Int.le.dest hle
    rw [mul_zpow_add]
    refine ⟨multiple (m' * 2 ^ n), fun heq hne => le_antisymm hhalf (heq ▸ half_unit_le_abs_sub hhalf ?_)⟩
    rintro rfl
    exact hne rfl
  · obtain ⟨-, hmin, -, -⟩ := id hholds
    have htop := htop (hmin.trans_lt hlt)
    have hbelow := mul_zpow_lt_of_exp_lt (K := K) hp hholds hlt
    have hless : |x - m * 2 ^ e| < |x - m' * 2 ^ e'| := by
      calc |x - m * 2 ^ e| ≤ |x - (2 ^ (f.precision - 1) : Nat) * 2 ^ e| := multiple _
        _ = x - (2 ^ (f.precision - 1) : Nat) * 2 ^ e := abs_of_nonneg (sub_nonneg.mpr htop)
        _ < x - m' * 2 ^ e' := by linarith
        _ ≤ |x - m' * 2 ^ e'| := le_abs_self _
    exact ⟨hless.le, fun heq => absurd heq hless.ne⟩

end

/-! ### The rounded significand -/

section
variable {num den : Nat} {exp : Int} {x : ℚ} (hden : 0 < den) (hx : (num : ℚ) / den * 2 ^ exp = x)
include hden hx

/-- The rounded significand is at most half a unit away, and even where it is half a unit away. -/
theorem abs_sub_significandAt_le (e : Int) :
    |x - significandAt num den exp e * 2 ^ e| ≤ 2 ^ e / 2 ∧
      (|x - significandAt num den exp e * 2 ^ e| = 2 ^ e / 2 → significandAt num den exp e % 2 = 0) := by
  have hshift := shiftLeft_mul_zpow hden hx e
  have hpos : 0 < den <<< (-(exp - e)).toNat := by rw [Nat.shiftLeft_eq]; positivity
  obtain ⟨hlow, hhigh, heven⟩ := divNearestEven_spec (num <<< (exp - e).toNat) hpos
  rw [← significandAt] at hlow hhigh heven
  generalize significandAt num den exp e = m at *
  generalize num <<< (exp - e).toNat = n at *
  generalize den <<< (-(exp - e)).toNat = d at *
  have hd : (0 : ℚ) < d := by exact_mod_cast hpos
  have hunit : (0 : ℚ) < 2 ^ e := by positivity
  have hscale : (x - m * 2 ^ e) * d = (n - m * d) * 2 ^ e := by linear_combination -hshift
  have hlow' : 2 * (n : ℚ) ≤ 2 * (m * d) + d := by exact_mod_cast hlow
  have hhigh' : 2 * ((m : ℚ) * d) ≤ 2 * n + d := by exact_mod_cast hhigh
  have habs : |x - m * 2 ^ e| * d = |(n : ℚ) - m * d| * 2 ^ e := by
    rw [← abs_of_pos hd, ← abs_mul, abs_of_pos hd, hscale, abs_mul, abs_of_pos hunit]
  constructor
  · refine le_of_mul_le_mul_right ?_ hd
    have hdist : |(n : ℚ) - m * d| ≤ d / 2 := abs_le.mpr ⟨by linarith, by linarith⟩
    calc |x - m * 2 ^ e| * d = |(n : ℚ) - m * d| * 2 ^ e := habs
      _ ≤ d / 2 * 2 ^ e := by gcongr
      _ = 2 ^ e / 2 * d := by ring
  · intro htie
    rw [htie] at habs
    have hdist : |(n : ℚ) - m * d| = d / 2 := mul_right_cancel₀ hunit.ne' (by linear_combination -habs)
    refine heven ?_
    obtain h | h := (abs_eq (by positivity)).mp hdist
    · exact .inl (by exact_mod_cast (by linarith : 2 * (n : ℚ) = 2 * (m * d) + d))
    · exact .inr (by exact_mod_cast (by linarith : 2 * ((m : ℚ) * d) = 2 * n + d))

end

/-- Putting a significand in canonical form keeps its value and its evenness, or leaves the format at the top. -/
theorem normalize_cases {f : FloatFormat} {m : Nat} {e : Int} (hp : 1 < f.precision) (neg : Bool)
    (hm : m ≤ 2 ^ f.precision) (hmin : f.minExp ≤ e) (htop : f.minExp < e → 2 ^ (f.precision - 1) ≤ m) :
    (∃ m' e', normalize f neg m e = .finite neg m' e' ∧ f.holds m' e' ∧ (m' : ℚ) * 2 ^ e' = m * 2 ^ e ∧
        (m % 2 = 0 → m' % 2 = 0)) ∨
      normalize f neg m e = .inf neg ∧ (f.maxExp < e ∨ f.maxExp = e ∧ m = 2 ^ f.precision) := by
  obtain hlt | rfl := hm.lt_or_eq
  · obtain hmax | hmax := le_or_gt e f.maxExp
    · have hholds : f.holds m e := ⟨hlt, hmin, hmax, hmin.lt_or_eq.imp htop Eq.symm⟩
      exact .inl ⟨m, e, normalize_of_holds neg hholds, hholds, rfl, id⟩
    · exact .inr ⟨by simp [normalize, hlt.ne, hmax], .inl hmax⟩
  · obtain hmax | hmax := le_or_gt (e + 1) f.maxExp
    · have hholds : f.holds (2 ^ (f.precision - 1)) (e + 1) :=
        ⟨Nat.pow_lt_pow_right one_lt_two (by omega), by omega, hmax, .inl le_rfl⟩
      refine .inl ⟨_, _, by simp [normalize, hmax.not_gt], hholds, ?_, fun _ => ?_⟩
      · rw [← mul_pow_sub_one (by omega : f.precision ≠ 0) 2, zpow_add_one₀ two_ne_zero]
        push_cast
        ring
      · exact Nat.mod_eq_zero_of_dvd (dvd_pow_self 2 (by omega))
    · refine .inr ⟨by simp [normalize, hmax], ?_⟩
      obtain h | h := (Int.lt_add_one_iff.mp hmax).lt_or_eq
      · exact .inl h
      · exact .inr ⟨h, rfl⟩

/-- `roundTo` in one view: the significand `m` in the unit `2^e` that `x` rounds to, and what becomes of it. -/
structure FloatFormat.Rounds (f : FloatFormat) (neg : Bool) (x : ℚ) (v : FloatValue) (m : Nat) (e : Int) : Prop where
  minExp_le : f.minExp ≤ e
  topBit_le : f.minExp < e → ((2 ^ (f.precision - 1) : Nat) : ℚ) * 2 ^ e ≤ x
  lt_top : x < ((2 ^ f.precision : Nat) : ℚ) * 2 ^ e
  near : |x - m * 2 ^ e| ≤ 2 ^ e / 2
  even : |x - m * 2 ^ e| = 2 ^ e / 2 → m % 2 = 0
  value : (∃ m' e', v = .finite neg m' e' ∧ f.holds m' e' ∧ (m' : ℚ) * 2 ^ e' = m * 2 ^ e ∧ (m % 2 = 0 → m' % 2 = 0)) ∨
    v = .inf neg ∧ (f.maxExp < e ∨ f.maxExp = e ∧ m = 2 ^ f.precision)

theorem rounds_roundTo {f : FloatFormat} {num den : Nat} {exp : Int} {x : ℚ} (hp : 1 < f.precision) (hnum : 0 < num)
    (hden : 0 < den) (hx : (num : ℚ) / den * 2 ^ exp = x) (neg : Bool) :
    f.Rounds neg x (roundTo f neg num den exp) (significandAt num den exp (unitExp f num den exp))
      (unitExp f num den exp) := by
  have htop := topBit_le_of_minExp_lt_unitExp (f := f) hden hx (Nat.zero_lt_of_lt hp) hnum
  have hlt := lt_two_pow_precision_mul_unit hden hx f hnum
  obtain ⟨hnear, heven⟩ := abs_sub_significandAt_le hden hx (unitExp f num den exp)
  refine ⟨le_max_right _ _, htop, hlt, hnear, heven, ?_⟩
  rw [roundTo_eq_normalize hnum]
  exact normalize_cases hp neg (significandAt_le hden hx hlt.le) (le_max_right _ _) fun hexp =>
    le_significandAt hden hx (htop hexp)

section
variable {f : FloatFormat} {neg : Bool} {x : ℚ} {v : FloatValue} {m : Nat} {e : Int} (h : f.Rounds neg x v m e)
include h

/-- A finite result is nearest, and its significand is even at a tie (R160). -/
theorem FloatFormat.Rounds.nearest (hp : 0 < f.precision) {n : Bool} {m1 : Nat} {e1 : Int} (hv : v = .finite n m1 e1) :
    n = neg ∧ f.holds m1 e1 ∧ ∀ (m' : Nat) (e' : Int), f.holds m' e' →
      |x - m1 * 2 ^ e1| ≤ |x - m' * 2 ^ e'| ∧
      (|x - m1 * 2 ^ e1| = |x - m' * 2 ^ e'| → (m1 : ℚ) * 2 ^ e1 ≠ m' * 2 ^ e' → m1 % 2 = 0) := by
  obtain ⟨m2, e2, hv2, hholds, hvalue, heven⟩ | ⟨hinf, -⟩ := h.value
  · obtain ⟨rfl, rfl, rfl⟩ := FloatValue.finite.inj (hv.symm.trans hv2)
    rw [hvalue]
    refine ⟨rfl, hholds, fun m' e' hholds' => ?_⟩
    obtain ⟨hle, htie⟩ := abs_sub_le_of_half_unit hp h.topBit_le h.near hholds'
    exact ⟨hle, fun heq hne => heven (h.even (htie heq hne))⟩
  · exact absurd (hv.symm.trans hinf) FloatValue.noConfusion

/-- An infinity comes from half a unit past the largest finite value on (log 10). -/
theorem FloatFormat.Rounds.le_of_inf (hp : 0 < f.precision) (hexp : f.minExp ≤ f.maxExp) {n : Bool} (hv : v = .inf n) :
    n = neg ∧ ((2 : ℚ) ^ (f.precision + 1) - 1) * 2 ^ (f.maxExp - 1) ≤ x := by
  obtain ⟨m2, e2, hv2, -⟩ | ⟨hinf, hover⟩ := h.value
  · exact absurd (hv.symm.trans hv2) FloatValue.noConfusion
  · refine ⟨FloatValue.inf.inj (hv.symm.trans hinf), ?_⟩
    obtain hlt | ⟨rfl, rfl⟩ := hover
    · have hfour : (2 : ℚ) ^ (f.precision + 1) = 2 ^ (f.precision - 1) * 2 ^ 2 := by
        rw [← pow_add]
        congr 1
        omega
      calc ((2 : ℚ) ^ (f.precision + 1) - 1) * 2 ^ (f.maxExp - 1)
          ≤ 2 ^ (f.precision + 1) * 2 ^ (f.maxExp - 1) := by gcongr; linarith
        _ = 2 ^ (f.precision - 1) * 2 ^ (f.maxExp + 1) := by
            rw [hfour, mul_assoc, ← zpow_natCast (2 : ℚ) 2, ← zpow_add₀ two_ne_zero]
            congr 2
            push_cast
            ring
        _ ≤ ((2 ^ (f.precision - 1) : Nat) : ℚ) * 2 ^ e := by
            rw [Nat.cast_pow, Nat.cast_ofNat]
            gcongr
            · exact one_le_two
            · exact hlt
        _ ≤ x := h.topBit_le (hexp.trans_lt hlt)
    · obtain ⟨hlow, -⟩ := abs_le.mp h.near
      have hunit : (2 : ℚ) ^ f.maxExp = 2 ^ (f.maxExp - 1) * 2 := by
        rw [← zpow_add_one₀ two_ne_zero, sub_add_cancel]
      rw [Nat.cast_pow, Nat.cast_ofNat, hunit] at hlow
      rw [pow_succ]
      linarith

theorem FloatFormat.Rounds.ne_nan : v ≠ .nan := by
  rintro rfl
  obtain ⟨m2, e2, hv2, -⟩ | ⟨hinf, -⟩ := h.value
  · exact FloatValue.noConfusion hv2
  · exact FloatValue.noConfusion hinf

end

end Sys2Proof.Machine

namespace Sys2Proof.Proofs

open Sys2Proof.Machine

/-- Settles O21: the significand is within half a unit of the exact value, so nearest, and even at half a unit. -/
theorem roundingIsToNearestTiesToEven : Obligations.RoundingIsToNearestTiesToEven := by
  intro f neg num den exp hf hnum hden
  have hp : 1 < f.precision := by obtain rfl | rfl := hf <;> decide
  have hexp : f.minExp ≤ f.maxExp := by obtain rfl | rfl := hf <;> decide
  have h := rounds_roundTo hp hnum hden rfl neg (exp := exp)
  exact ⟨fun n m e hv => h.nearest (Nat.zero_lt_of_lt hp) hv, fun n hv => h.le_of_inf (Nat.zero_lt_of_lt hp) hexp hv,
    h.ne_nan⟩

end Sys2Proof.Proofs
end

section
/-! PROOFS. The square root is correctly rounded: the root that `fsqrt` rounds lies on the same side of every midpoint
as the real root (spec/44_gaussian.md R190). -/

namespace Sys2Proof.Machine

/-! ### The root with a sticky bit -/

/-- Twice the integer root, with a last bit 1 for a remainder. -/
def stickyRoot (n : Nat) : Nat := 2 * isqrt n + if isqrt n * isqrt n = n then 0 else 1

theorem mul_self_le_of_two_mul_le_stickyRoot {n k : Nat} (h : 2 * k ≤ stickyRoot n) : k * k ≤ n := by
  obtain ⟨hroot, -⟩ := isqrt_spec n
  have hk : k ≤ isqrt n := by
    rw [stickyRoot] at h
    split at h <;> omega
  exact (Nat.mul_self_le_mul_self hk).trans hroot

theorem le_mul_self_of_stickyRoot_le {n k : Nat} (h : stickyRoot n ≤ 2 * k) : n ≤ k * k := by
  obtain ⟨-, hroot⟩ := isqrt_spec n
  rw [stickyRoot] at h
  split at h
  next hexact =>
    have hk : isqrt n ≤ k := by omega
    exact hexact.symm.trans_le (Nat.mul_self_le_mul_self hk)
  next =>
    have hk : isqrt n + 1 ≤ k := by omega
    exact hroot.le.trans (Nat.mul_self_le_mul_self hk)

theorem two_mul_le_stickyRoot {n k : Nat} (h : k * k ≤ n) : 2 * k ≤ stickyRoot n := by
  obtain ⟨-, hroot⟩ := isqrt_spec n
  have hk : k < isqrt n + 1 := Nat.mul_self_lt_mul_self_iff.mp (h.trans_lt hroot)
  rw [stickyRoot]
  omega

/-! ### What `fsqrt` takes the root of -/

/-- The significand made even-exponent and shifted up, so that its root has more bits than the format. -/
def sqrtOperand (f : FloatFormat) (mant : Nat) (exp : Int) : Nat :=
  (mant <<< (exp % 2).toNat) <<< (2 * (f.precision + 2))

/-- The exponent of the integer root. -/
def sqrtExp (f : FloatFormat) (exp : Int) : Int := (exp - exp % 2) / 2 - (f.precision + 2)

theorem fsqrt_eq {mant : Nat} (hmant : 0 < mant) (f : FloatFormat) (exp : Int) :
    fsqrt f (.finite false mant exp) =
      roundTo f false (stickyRoot (sqrtOperand f mant exp)) 1 (sqrtExp f exp - 1) := by
  rw [fsqrt, if_neg hmant.ne', if_neg Bool.false_ne_true, stickyRoot, sqrtOperand, sqrtExp]

theorem sqrtOperand_mul {K : Type} [Field K] [LinearOrder K] [IsStrictOrderedRing K] (f : FloatFormat) (mant : Nat)
    (exp : Int) : (sqrtOperand f mant exp : K) * (2 ^ sqrtExp f exp * 2 ^ sqrtExp f exp) = mant * 2 ^ exp := by
  have hexp : ((exp % 2).toNat : Int) + (2 * (f.precision + 2) : Nat) + (sqrtExp f exp + sqrtExp f exp) = exp := by
    rw [sqrtExp]
    omega
  calc (sqrtOperand f mant exp : K) * (2 ^ sqrtExp f exp * 2 ^ sqrtExp f exp)
      = mant * (2 ^ (exp % 2).toNat * 2 ^ (2 * (f.precision + 2)) * (2 ^ sqrtExp f exp * 2 ^ sqrtExp f exp)) := by
        rw [sqrtOperand, Nat.shiftLeft_eq, Nat.shiftLeft_eq]
        push_cast
        ring
    _ = mant * 2 ^ exp := by
        rw [← zpow_natCast, ← zpow_natCast, ← zpow_add₀ two_ne_zero, ← zpow_add₀ two_ne_zero, ← zpow_add₀ two_ne_zero,
          hexp]

/-- The value `fsqrt` rounds. -/
def sqrtApprox (f : FloatFormat) (mant : Nat) (exp : Int) : ℚ :=
  stickyRoot (sqrtOperand f mant exp) * 2 ^ (sqrtExp f exp - 1)

theorem two_mul_mul_zpow_pred (k : Nat) (e : Int) : (k : ℚ) * 2 ^ e = (2 * k : Nat) * 2 ^ (e - 1) := by
  obtain ⟨e, rfl⟩ : ∃ i, e = i + 1 := ⟨e - 1, by omega⟩
  rw [add_sub_cancel_right, zpow_add_one₀ two_ne_zero]
  push_cast
  ring

section
variable {f : FloatFormat} {mant : Nat} {exp : Int}

/-! ### The same side of every multiple of the root's unit -/

theorem mul_self_le_of_le_sqrtApprox {k : Nat} (h : (k : ℚ) * 2 ^ sqrtExp f exp ≤ sqrtApprox f mant exp) :
    k * k ≤ sqrtOperand f mant exp := by
  rw [two_mul_mul_zpow_pred, sqrtApprox] at h
  exact mul_self_le_of_two_mul_le_stickyRoot (by exact_mod_cast le_of_mul_le_mul_right h (by positivity))

theorem le_mul_self_of_sqrtApprox_le {k : Nat} (h : sqrtApprox f mant exp ≤ (k : ℚ) * 2 ^ sqrtExp f exp) :
    sqrtOperand f mant exp ≤ k * k := by
  rw [two_mul_mul_zpow_pred, sqrtApprox] at h
  exact le_mul_self_of_stickyRoot_le (by exact_mod_cast le_of_mul_le_mul_right h (by positivity))

theorem le_sqrt_of_le_sqrtApprox {k : Nat} {e : Int} (he : sqrtExp f exp ≤ e)
    (h : (k : ℚ) * 2 ^ e ≤ sqrtApprox f mant exp) : (k : ℝ) * 2 ^ e ≤ √(mant * 2 ^ exp) := by
  obtain ⟨n, rfl⟩ := Int.le.dest he
  rw [mul_zpow_add] at h ⊢
  have hsq : ((k * 2 ^ n * (k * 2 ^ n) : Nat) : ℝ) ≤ sqrtOperand f mant exp := by
    exact_mod_cast mul_self_le_of_le_sqrtApprox h
  refine Real.le_sqrt_of_sq_le ?_
  rw [← sqrtOperand_mul f mant exp, sq, mul_mul_mul_comm, ← Nat.cast_mul]
  gcongr

theorem sqrt_le_of_sqrtApprox_le {k : Nat} {e : Int} (he : sqrtExp f exp ≤ e)
    (h : sqrtApprox f mant exp ≤ (k : ℚ) * 2 ^ e) : √(mant * 2 ^ exp) ≤ (k : ℝ) * 2 ^ e := by
  obtain ⟨n, rfl⟩ := Int.le.dest he
  rw [mul_zpow_add] at h ⊢
  have hsq : (sqrtOperand f mant exp : ℝ) ≤ ((k * 2 ^ n * (k * 2 ^ n) : Nat) : ℝ) := by
    exact_mod_cast le_mul_self_of_sqrtApprox_le h
  refine Real.sqrt_le_iff.mpr ⟨by positivity, ?_⟩
  rw [← sqrtOperand_mul f mant exp, sq, mul_mul_mul_comm, ← Nat.cast_mul]
  gcongr

/-! ### Where the root lies -/

/-- The integer root has two bits more than the format. -/
theorem two_pow_le_sqrtApprox (hmant : 0 < mant) :
    (2 : ℚ) ^ (sqrtExp f exp + (f.precision + 2 : Nat)) ≤ sqrtApprox f mant exp := by
  have hsq : 2 ^ (f.precision + 2) * 2 ^ (f.precision + 2) ≤ sqrtOperand f mant exp := by
    rw [sqrtOperand, Nat.shiftLeft_eq, Nat.shiftLeft_eq, ← pow_add, ← two_mul]
    exact Nat.le_mul_of_pos_left _ (by positivity)
  have hroot : ((2 * 2 ^ (f.precision + 2) : Nat) : ℚ) ≤ stickyRoot (sqrtOperand f mant exp) := by
    exact_mod_cast two_mul_le_stickyRoot hsq
  rw [← one_mul ((2 : ℚ) ^ _), ← Nat.cast_one, mul_zpow_add, Nat.one_mul, two_mul_mul_zpow_pred, sqrtApprox]
  gcongr

/-- The root of a value of the format is far below its top. -/
theorem sqrtApprox_le_two_pow_maxExp (hp : (f.precision : Int) ≤ f.maxExp) (hholds : f.holds mant exp) :
    sqrtApprox f mant exp ≤ 2 ^ f.maxExp := by
  obtain ⟨hm, -, hmax, -⟩ := hholds
  obtain ⟨j, hj⟩ : ∃ j : Nat, sqrtExp f exp + j = f.maxExp := Int.le.dest (by rw [sqrtExp]; omega)
  by_contra! hlt
  rw [← hj, ← one_mul ((2 : ℚ) ^ _), ← Nat.cast_one, mul_zpow_add, Nat.one_mul] at hlt
  have hsq : ((2 ^ j * 2 ^ j : Nat) : ℚ) ≤ sqrtOperand f mant exp := by
    exact_mod_cast mul_self_le_of_le_sqrtApprox hlt.le
  have hvalue : (2 : ℚ) ^ (f.maxExp + f.maxExp) < 2 ^ (f.precision + f.maxExp) := by
    calc (2 : ℚ) ^ (f.maxExp + f.maxExp)
        = (2 ^ j * 2 ^ j : Nat) * (2 ^ sqrtExp f exp * 2 ^ sqrtExp f exp) := by
          rw [← hj, zpow_add₀ two_ne_zero, zpow_add₀ two_ne_zero, zpow_natCast]
          push_cast
          ring
      _ ≤ sqrtOperand f mant exp * (2 ^ sqrtExp f exp * 2 ^ sqrtExp f exp) := by gcongr
      _ = mant * 2 ^ exp := sqrtOperand_mul f mant exp
      _ < 2 ^ f.precision * 2 ^ f.maxExp := by
          have hm' : (mant : ℚ) < 2 ^ f.precision := by exact_mod_cast hm
          have hexp : (2 : ℚ) ^ exp ≤ 2 ^ f.maxExp := zpow_le_zpow_right₀ one_le_two hmax
          exact mul_lt_mul hm' hexp (by positivity) (by positivity)
      _ = 2 ^ (f.precision + f.maxExp) := by rw [zpow_add₀ two_ne_zero, zpow_natCast]
  have := (zpow_lt_zpow_iff_right₀ (one_lt_two (α := ℚ))).mp hvalue
  omega

/-! ### The rounded root -/

/-- The significand the approximation rounds to is within half a unit of the real root too. -/
theorem abs_sqrt_sub_le {m : Nat} {e : Int} (he : sqrtExp f exp ≤ e - 1)
    (hnear : |sqrtApprox f mant exp - m * 2 ^ e| ≤ 2 ^ e / 2) :
    |√(mant * 2 ^ exp) - (m : ℝ) * 2 ^ e| ≤ 2 ^ e / 2 := by
  obtain ⟨hlow, hhigh⟩ := abs_le.mp hnear
  obtain ⟨i, rfl⟩ : ∃ i, e = i + 1 := ⟨e - 1, by omega⟩
  rw [add_sub_cancel_right] at he
  rw [zpow_add_one₀ two_ne_zero] at hlow hhigh ⊢
  refine abs_le.mpr ⟨?_, ?_⟩
  · obtain rfl | hpos := m.eq_zero_or_pos
    · have hroot := Real.sqrt_nonneg ((mant : ℝ) * 2 ^ exp)
      have hunit : (0 : ℝ) < 2 ^ i := by positivity
      rw [Nat.cast_zero]
      linarith
    · have hcast : ((2 * m - 1 : Nat) : ℚ) = 2 * m - 1 := by rw [Nat.cast_pred (by omega)]; push_cast; rfl
      have hcast' : ((2 * m - 1 : Nat) : ℝ) = 2 * m - 1 := by rw [Nat.cast_pred (by omega)]; push_cast; rfl
      have hroot := le_sqrt_of_le_sqrtApprox (mant := mant) (k := 2 * m - 1) he (by rw [hcast]; linarith)
      rw [hcast'] at hroot
      linarith
  · have hroot := sqrt_le_of_sqrtApprox_le (mant := mant) (k := 2 * m + 1) he (by push_cast; linarith)
    push_cast at hroot
    linarith

theorem exists_rounds_fsqrt (hp : 1 < f.precision) (hmant : 0 < mant) :
    ∃ m e, f.Rounds false (sqrtApprox f mant exp) (fsqrt f (.finite false mant exp)) m e := by
  have hpos : (0 : ℚ) < sqrtApprox f mant exp := lt_of_lt_of_le (by positivity) (two_pow_le_sqrtApprox hmant)
  rw [sqrtApprox] at hpos ⊢
  have hroot : 0 < stickyRoot (sqrtOperand f mant exp) := by
    exact_mod_cast pos_of_mul_pos_left hpos (by positivity)
  rw [fsqrt_eq hmant]
  exact ⟨_, _, rounds_roundTo hp hroot one_pos (by rw [Nat.cast_one, div_one]) false⟩

/-- No root overflows (R190). -/
theorem exists_fsqrt_eq_finite (hp : 0 < f.precision) (hmin : f.minExp < 0) (hmax : (f.precision : Int) ≤ f.maxExp)
    (hholds : f.holds mant exp) (hmant : 0 < mant) :
    ∃ m e, f.holds m e ∧ fsqrt f (.finite false mant exp) = .finite false m e := by
  obtain ⟨-, hexpmin, hexpmax, -⟩ := id hholds
  have hval : (stickyRoot (sqrtOperand f mant exp) : ℚ) / (1 : Nat) * 2 ^ (sqrtExp f exp - 1) =
      sqrtApprox f mant exp := by rw [Nat.cast_one, div_one, sqrtApprox]
  obtain ⟨q, ⟨m, e, hholds', -, hfinite⟩, -⟩ := exists_isValue_roundTo hp one_pos hval
    (by rw [sqrtExp]; omega) (by rw [sqrtExp]; omega) le_rfl
    (.inr ⟨two_pow_le_sqrtApprox hmant, sqrtApprox_le_two_pow_maxExp hmax hholds⟩) false
  exact ⟨m, e, hholds', (fsqrt_eq hmant f exp).trans hfinite⟩

/-- The integer root's unit is no more than half the unit it is rounded to. -/
theorem FloatFormat.Rounds.sqrtExp_le {neg : Bool} {v : FloatValue} {m : Nat} {e : Int}
    (h : f.Rounds neg (sqrtApprox f mant exp) v m e) (hmant : 0 < mant) : sqrtExp f exp ≤ e - 1 := by
  have hlt := (two_pow_le_sqrtApprox hmant).trans_lt h.lt_top
  rw [Nat.cast_pow, Nat.cast_ofNat, ← zpow_natCast, ← zpow_add₀ two_ne_zero] at hlt
  have := (zpow_lt_zpow_iff_right₀ (one_lt_two (α := ℚ))).mp hlt
  omega

/-- R190 for any format whose exponents reach past its precision on both sides. -/
theorem fsqrt_nearest (hp : 1 < f.precision) (hmin : f.minExp < 0) (hmax : (f.precision : Int) ≤ f.maxExp)
    (hholds : f.holds mant exp) (hmant : 0 < mant) :
    ∃ (m : Nat) (e : Int), fsqrt f (.finite false mant exp) = .finite false m e ∧ f.holds m e ∧
      ∀ (m' : Nat) (e' : Int), f.holds m' e' →
        |√((mant : ℝ) * 2 ^ exp) - m * 2 ^ e| ≤ |√((mant : ℝ) * 2 ^ exp) - m' * 2 ^ e'| := by
  obtain ⟨m, e, hholds', hfinite⟩ := exists_fsqrt_eq_finite (Nat.zero_lt_of_lt hp) hmin hmax hholds hmant
  obtain ⟨m0, e0, hrounds⟩ := exists_rounds_fsqrt (f := f) (exp := exp) hp hmant
  have hunit := hrounds.sqrtExp_le hmant
  refine ⟨m, e, hfinite, hholds', fun m' e' hholds'' => ?_⟩
  obtain ⟨m1, e1, hv, -, hvalue, -⟩ | ⟨hinf, -⟩ := hrounds.value
  · obtain ⟨-, rfl, rfl⟩ := FloatValue.finite.inj (hfinite.symm.trans hv)
    have hvalue' := congrArg (Rat.cast : ℚ → ℝ) hvalue
    push_cast at hvalue'
    obtain ⟨hle, -⟩ := abs_sub_le_of_half_unit (Nat.zero_lt_of_lt hp)
      (fun hexp => le_sqrt_of_le_sqrtApprox (by omega) (hrounds.topBit_le hexp)) (abs_sqrt_sub_le hunit hrounds.near)
      hholds''
    rwa [hvalue']
  · exact absurd (hfinite.symm.trans hinf) FloatValue.noConfusion

end

end Sys2Proof.Machine

namespace Sys2Proof.Proofs

open Sys2Proof.Machine

/-- Settles O23: every midpoint of the format is a multiple of the integer root's unit, where the sticky bit decides as
the real root does. -/
theorem squareRootIsCorrectlyRounded : Obligations.SquareRootIsCorrectlyRounded := by
  intro f mant exp hf hholds hmant
  obtain rfl | rfl := hf
  · exact fsqrt_nearest (by decide) (by decide) (by decide) hholds hmant
  · exact fsqrt_nearest (by decide) (by decide) (by decide) hholds hmant

end Sys2Proof.Proofs
end
